-- ==== Sys2Proof/Word.lean ====
section
/-! DEFINITION. The word types of the Q3W transceiver. All values are unsigned (spec 00_scope.md R9); bit 0 is the least significant bit. -/

namespace Sys2Proof

/-- A byte: a display register, a key byte, a wire instruction, a data byte (R6: REG_W = 8). -/
abbrev Byte := BitVec 8

/-- A display register address, 0 to 15 (R6: ADDR_W = 4). -/
abbrev Addr := BitVec 4

/-- A brightness level, 0 to 7 (R6: BRIGHT_W = 3). -/
abbrev Level := BitVec 3

/-- A position of a digit or an LED, 0 to 7, and a bit index of a byte (R6: N_POS = 8, BYTE_BITS = 8). -/
abbrev Pos := BitVec 3

/-- The 32-bit key-scan word (R6: SCAN_W = 32). -/
abbrev ScanWord := BitVec 32

/-- A command word, `op[23:16] ++ A[15:8] ++ B[7:0]` (R101). -/
abbrev CmdWord := BitVec 24

end Sys2Proof
end

