-- ==== Sys2Proof/Config.lean ====
section
/-! DEFINITION. What one implementation fixes (00_scope.md R7, R8), as plain data, and the free values: constants without a body, of which nothing can be proved, for every value the spec calls a draw or unspecified. The default parameter values and their constraints are in Decode.lean. -/

namespace Sys2Proof

/-- The implementation's parameters. The source names the seven opcode constants and gives no number (R7, D1): a machine holds an assignment of them, and claims hold for every assignment that meets R92. `tBit` and `driveStrength` (R8, D12, D27) are open parameters that no rule reads (log 27). -/
structure Params where
  setDisplayCtrl : Byte
  displayOn      : Byte
  displayOff     : Byte
  setAddress     : Byte
  setDataInstr   : Byte
  dataReadInstr  : Byte
  dataWriteInstr : Byte
  tBit           : Nat
  driveStrength  : Nat
  deriving DecidableEq, Repr

namespace Config

/-- The six unused bits of each key byte, drawn afresh at each scan (R32, U7, D9; log 13). -/
opaque freeKeyBits : Nat → ScanWord

/-- The level a switch that moves inside the strobe window is seen at (R33, U8, D9; log 12). -/
opaque freeSwitches : Nat → Byte

/-- The level presented beyond the 32nd key bit (R71, R220, U9, D8; log 13). -/
opaque freeReadOut : Nat → Bool

/-- The level of the line while both sides drive it (R37, U17, D11; log 16). -/
opaque freeContention : Nat → Bool

/-- The level the loopback harness presents when its store is empty (R128 does not say; log 20). -/
opaque freeLoopback : Nat → Bool

end Config

end Sys2Proof
end

