-- ==== Sys2Proof/Syntax.lean ====
section
/-! DEFINITION. The instructions: the fourteen rows of spec/opcode_table.json, four wire instructions (R93 to R95) and ten commands (R102). -/

namespace Sys2Proof

/-- One constructor per row of the opcode table. A wire instruction's operands have exactly the width of their field, so every term has an encoding. A command's operands are the unsigned 8-bit values of the command word (R101): a value out of its legal range can be written, and raises a validation error when it runs (R106). -/
inductive Instr where
  /-- R214: display on or off and the brightness level. -/
  | displayCtrl (en : Bool) (bright : Level)
  /-- R215: select write mode. -/
  | dataWrite
  /-- R216: select read mode and present the key bytes. -/
  | dataRead
  /-- R217: set the address pointer. -/
  | setAddress (addr : Addr)
  /-- R280: initialisation, once. -/
  | construct
  /-- R166. -/
  | displayOn
  /-- R168. -/
  | displayOff
  /-- R170. -/
  | setBrightness (level : Byte)
  /-- R161. -/
  | setSegmentValue (position pattern : Byte)
  /-- R162. -/
  | setLedState (position state : Byte)
  /-- R190. -/
  | scanKeys
  /-- R194. -/
  | defPressedKeys
  /-- R164. -/
  | cleanup
  /-- R160. -/
  | write (address byte : Byte)
  deriving DecidableEq, Repr

/-- The wire instructions are executed by the peripheral; the other ten are the master's commands (R3). -/
def Instr.isWire : Instr → Bool
  | .displayCtrl _ _ => true
  | .dataWrite => true
  | .dataRead => true
  | .setAddress _ => true
  | .construct => false
  | .displayOn => false
  | .displayOff => false
  | .setBrightness _ => false
  | .setSegmentValue _ _ => false
  | .setLedState _ _ => false
  | .scanKeys => false
  | .defPressedKeys => false
  | .cleanup => false
  | .write _ _ => false

end Sys2Proof
end

