-- ==== Sys2Proof/WellFormed.lean ====
section
/-! DEFINITION. Well-formed instructions: every operand in the range R106 of 30_encoding.md calls legal. An ill-formed command can be encoded and issued; it is answered with a validation error (60_exceptions.md R251 to R254). -/

namespace Sys2Proof

/-- R106: "level in [0, 7]; position in [0, 7]; address in [0, 15]; pattern, state and byte in [0, 255]". The fields of a wire instruction have no illegal value. -/
def Instr.wellFormed : Instr → Bool
  | .displayCtrl _ _ => true
  | .dataWrite => true
  | .dataRead => true
  | .setAddress _ => true
  | .construct => true
  | .displayOn => true
  | .displayOff => true
  | .setBrightness level => decide (level.toNat ≤ 7)
  | .setSegmentValue position _ => decide (position.toNat ≤ 7)
  | .setLedState position _ => decide (position.toNat ≤ 7)
  | .scanKeys => true
  | .defPressedKeys => true
  | .cleanup => true
  | .write address _ => decide (address.toNat ≤ 15)

end Sys2Proof
end

