-- ==== Sys2Proof/Decode.lean ====
section
/-! DEFINITION. The decoder of wire bytes (30_encoding.md R92 to R95, R105) and of command words (R101, R102, R107), total and rejecting by name; then the encoder, written from the same tables; the default parameter values (00_scope.md R7) and the constraints of R92. -/

namespace Sys2Proof

/-! ## Parameters -/

/-- The default values of R7, D1, G1 (log 3). -/
def Params.default : Params where
  setDisplayCtrl := 0x80#8
  displayOn := 0x08#8
  displayOff := 0x00#8
  setAddress := 0xC0#8
  setDataInstr := 0x40#8
  dataReadInstr := 0x02#8
  dataWriteInstr := 0x00#8
  tBit := 0
  driveStrength := 0

/-- A byte with bits 2:0 cleared (R214). -/
def clearLow3 (c : Byte) : Byte := c &&& 0xF8#8

/-- A byte with bits 3:0 cleared (R95). -/
def clearLow4 (c : Byte) : Byte := c &&& 0xF0#8

/-- `SET_DISPLAY_CTRL | (en ? DISPLAY_ON : DISPLAY_OFF)`, the part of a display-control opcode above the brightness (R91). -/
def displayClass (p : Params) (en : Bool) : Byte :=
  p.setDisplayCtrl ||| (if en then p.displayOn else p.displayOff)

/-- The read-mode and the write-mode data instruction (R91, R94). -/
def dataReadCode (p : Params) : Byte := p.setDataInstr ||| p.dataReadInstr

/-- See `dataReadCode`. -/
def dataWriteCode (p : Params) : Byte := p.setDataInstr ||| p.dataWriteInstr

/-- The sets DC and AD of R92 (d). Under constraints (a) and (b) a byte is in DC exactly when it is a display class with any brightness in its clear bits, and in AD exactly when its upper nibble is SET_ADDRESS. -/
def inDC (p : Params) (en : Bool) (c : Byte) : Bool := clearLow3 c == displayClass p en

/-- See `inDC`. -/
def inAD (p : Params) (c : Byte) : Bool := clearLow4 c == p.setAddress

/-- The constraints of R92 on the seven opcode constants: (a) and (b) the bits under the operand fields are clear, (c) on and off differ, (d) the four opcode sets are pairwise disjoint. -/
def Params.valid (p : Params) : Bool :=
  clearLow3 p.setDisplayCtrl == p.setDisplayCtrl && clearLow3 p.displayOn == p.displayOn &&
  clearLow3 p.displayOff == p.displayOff && clearLow4 p.setAddress == p.setAddress &&
  displayClass p true != displayClass p false &&
  clearLow4 (displayClass p true) != p.setAddress && clearLow4 (displayClass p false) != p.setAddress &&
  !inDC p true (dataReadCode p) && !inDC p false (dataReadCode p) && !inAD p (dataReadCode p) &&
  !inDC p true (dataWriteCode p) && !inDC p false (dataWriteCode p) && !inAD p (dataWriteCode p) &&
  dataReadCode p != dataWriteCode p

/-! ## Decoding -/

/-- Why a byte or a word is no instruction. -/
inductive Reject where
  /-- R105: a first byte of a window in none of the sets DC, AD, DW, DR. -/
  | reservedFirstByte
  /-- R107: `op` in [0x0A, 0xFF]. -/
  | reservedOp
  /-- R101, R107: an operand byte the command does not use is not zero. -/
  | nonzeroUnusedOperand
  /-- No row of the opcode table has this many bits. -/
  | noSuchFormat
  deriving DecidableEq, Repr

/-- The wire instruction a byte stands for (R92 to R95). For an assignment that breaks R92 (d) the sets overlap and the order written here is the model's (log 32). -/
def decodeWire (p : Params) (c : Byte) : Except Reject Instr :=
  if inDC p true c then .ok (.displayCtrl true (c.setWidth 3))
  else if inDC p false c then .ok (.displayCtrl false (c.setWidth 3))
  else if inAD p c then .ok (.setAddress (c.setWidth 4))
  else if c = dataWriteCode p then .ok .dataWrite
  else if c = dataReadCode p then .ok .dataRead
  else .error .reservedFirstByte

/-- The fields of a command word (R101). -/
def cmdOp (w : CmdWord) : Byte := w.extractLsb' 16 8

/-- Operand A, bits 15:8. -/
def cmdA (w : CmdWord) : Byte := w.extractLsb' 8 8

/-- Operand B, bits 7:0. -/
def cmdB (w : CmdWord) : Byte := w.extractLsb' 0 8

/-- A command that uses neither operand byte. -/
def noOperand (a b : Byte) (i : Instr) : Except Reject Instr :=
  if a = 0#8 ∧ b = 0#8 then .ok i else .error .nonzeroUnusedOperand

/-- A command that uses operand byte A only. -/
def operandA (b : Byte) (i : Instr) : Except Reject Instr :=
  if b = 0#8 then .ok i else .error .nonzeroUnusedOperand

/-- The command a word stands for (R102), or why it is UNKNOWN_COMMAND (R107). -/
def decodeCommand (w : CmdWord) : Except Reject Instr :=
  let a := cmdA w
  let b := cmdB w
  match (cmdOp w).toNat with
  | 0x00 => noOperand a b .construct
  | 0x01 => noOperand a b .displayOn
  | 0x02 => noOperand a b .displayOff
  | 0x03 => operandA b (.setBrightness a)
  | 0x04 => .ok (.setSegmentValue a b)
  | 0x05 => .ok (.setLedState a b)
  | 0x06 => noOperand a b .scanKeys
  | 0x07 => noOperand a b .defPressedKeys
  | 0x08 => noOperand a b .cleanup
  | 0x09 => .ok (.write a b)
  | _ => .error .reservedOp

/-- The decoder by format: 8 bits are a wire byte, 24 bits a command word, and nothing else is in the table (R104). -/
def decodeBits (p : Params) (nbits w : Nat) : Except Reject Instr :=
  if nbits = 8 then decodeWire p (BitVec.ofNat 8 w)
  else if nbits = 24 then decodeCommand (BitVec.ofNat 24 w)
  else .error .noSuchFormat

/-- The instruction the decoder reads from a row of the opcode table, with the table's default parameters. -/
def decodeTableWord (nbits w : Nat) : Option Instr :=
  match decodeBits Params.default nbits w with
  | .ok i => some i
  | .error _ => none

/-! ## Encoding -/

/-- R93, R97: `SET_DISPLAY_CTRL | (en ? DISPLAY_ON : DISPLAY_OFF) | zext_8(bright)`. -/
def displayCtrlCode (p : Params) (en : Bool) (bright : Level) : Byte :=
  displayClass p en ||| bright.setWidth 8

/-- R95, R98: `SET_ADDRESS | zext_8(addr)`. -/
def addressCode (p : Params) (a : Addr) : Byte := p.setAddress ||| a.setWidth 8

/-- A command word from its three bytes (R101). -/
def cmdWord (op a b : Byte) : CmdWord := op ++ a ++ b

/-- An instruction as bits: one wire byte or one command word. -/
inductive Encoded where
  | wire (c : Byte)
  | command (w : CmdWord)
  deriving DecidableEq, Repr

/-- The encoding of an instruction (R93 to R95, R102). -/
def encode (p : Params) : Instr → Encoded
  | .displayCtrl en bright => .wire (displayCtrlCode p en bright)
  | .dataWrite => .wire (dataWriteCode p)
  | .dataRead => .wire (dataReadCode p)
  | .setAddress a => .wire (addressCode p a)
  | .construct => .command (cmdWord 0x00#8 0#8 0#8)
  | .displayOn => .command (cmdWord 0x01#8 0#8 0#8)
  | .displayOff => .command (cmdWord 0x02#8 0#8 0#8)
  | .setBrightness level => .command (cmdWord 0x03#8 level 0#8)
  | .setSegmentValue position pattern => .command (cmdWord 0x04#8 position pattern)
  | .setLedState position state => .command (cmdWord 0x05#8 position state)
  | .scanKeys => .command (cmdWord 0x06#8 0#8 0#8)
  | .defPressedKeys => .command (cmdWord 0x07#8 0#8 0#8)
  | .cleanup => .command (cmdWord 0x08#8 0#8 0#8)
  | .write address byte => .command (cmdWord 0x09#8 address byte)

/-- Decoding of encoded bits, by kind. -/
def decode (p : Params) : Encoded → Except Reject Instr
  | .wire c => decodeWire p c
  | .command w => decodeCommand w

/-- The number of bits of an encoding and its bits as the opcode table numbers them. -/
def Encoded.tableWord : Encoded → Nat × Nat
  | .wire c => (8, c.toNat)
  | .command w => (24, w.toNat)

end Sys2Proof
end

