-- ==== Sys2Proof/Machine/State.lean ====
section
/-! DEFINITION. The whole state of the Q3W transceiver as plain data (10_state.md R45), why a step can stop, and the state after power-on. -/

namespace Sys2Proof.Machine

/-- Direction of the data pin (R36). -/
inductive Dir where
  | output
  | input
  deriving DecidableEq, Repr

/-- What a device drives onto DIO: nothing (Z) or a level (R40). -/
inductive Drive where
  | z
  | level (v : Bool)
  deriving DecidableEq, Repr

/-- The data-mode latch of the peripheral (R25). -/
inductive Mode where
  | write
  | read
  deriving DecidableEq, Repr

/-- The peripheral's place in the protocol (R38, D8). -/
inductive Phase where
  | idle
  | cmd
  | dataIn
  | readOut
  | done
  deriving DecidableEq, Repr

/-- DISPLAY space (R60): addresses strictly rising and below 16, no entry equal to what an unlisted address reads as (`Memory.wf`). -/
abbrev Memory := List Host.Cell

/-- The master's registers (R26, R27, R43). -/
structure Master where
  constructed    : Bool
  displayEnabled : Bool
  brightness     : Level
  deriving DecidableEq, Repr

/-- The three pins as the master holds them (R34 to R36). `dio` is the level the master drives while the direction is output. -/
structure Pins where
  stb : Bool
  clk : Bool
  dir : Dir
  dio : Bool
  deriving DecidableEq, Repr

/-- The peripheral's registers (R20 to R25, R31, R33, R38 to R40). -/
structure Periph where
  mem    : Memory
  dispEn : Bool
  bright : Level
  mode   : Mode
  ap     : Addr
  phase  : Phase
  sr     : Byte
  bc     : BitVec 3
  rc     : BitVec 6
  drv    : Drive
  kw     : ScanWord
  deriving DecidableEq, Repr

/-- The loopback harness of R128: its store of bits, oldest first, and what it presents. -/
structure Harness where
  fifo : List Bool
  drv  : Drive
  deriving DecidableEq, Repr

/-- What hangs on the three wires: nothing (R78, R235), the peripheral of 44_peripheral.md, that peripheral without power (R284), or the loopback harness (R128). -/
inductive Attached where
  | nothing
  | peripheral
  | unpowered
  | loopback
  deriving DecidableEq, Repr

/-- A pin action of the master (R12). -/
inductive PinAction where
  | stb (v : Bool)
  | clk (v : Bool)
  | dio (v : Bool)
  | dirOut
  | dirIn
  | sample
  deriving DecidableEq, Repr

/-- A pin action as it is observed (R13, R15): a sample with the level it returned. -/
inductive PinEvent where
  | stb (v : Bool)
  | clk (v : Bool)
  | dio (v : Bool)
  | dirOut
  | dirIn
  | sampled (v : Bool)
  deriving DecidableEq, Repr

/-- The result of a command: a status byte, 0 for Ok and otherwise the error code, and a 32-bit value (R103). -/
structure Result where
  status : Byte
  value  : ScanWord
  deriving DecidableEq, Repr

/-- The peripheral alone loses its power, or has it back with its registers at `p` (R284; log 33). -/
inductive PowerMove where
  | lost
  | back (p : Periph)
  deriving DecidableEq, Repr

/-- What reaches the machine from outside: a command word of the host (R101); a change of the switches by the environment (R74): their levels, and which of them will move inside a strobe window before the next change (R33, D9; log 12); a change of the peripheral's power between two commands; or a command word in whose course that power changes, each change after so many more pin actions (R284; log 33). -/
inductive Input where
  | command (w : CmdWord)
  | switches (levels unstable : Byte)
  | power (m : PowerMove)
  | commandAmid (w : CmdWord) (moves : List (Nat × PowerMove))
  deriving DecidableEq, Repr

/-- The machine: master, pins, peripheral, environment, and what is pending and observed. -/
structure State where
  /-- The opcode constants and open parameters (R7, R8); no step writes them. -/
  params   : Params
  master   : Master
  pins     : Pins
  attached : Attached
  per      : Periph
  harness  : Harness
  /-- `SW[0..7]` (R234), 1 = pressed. -/
  sw       : Byte
  /-- The model's own: the switches that do not keep one level over a strobe window (log 12). -/
  unstable : Byte
  /-- The model's own: the counter of free values drawn (log 13). -/
  draws    : Nat
  /-- Commands the host has yet to issue, and what the environment does between and during them, in order (R17; log 7). -/
  inputs   : List Input
  /-- Pin actions still to be performed one a step, when the run is described at the wire level (R14; log 8). -/
  wire     : List PinAction
  /-- The model's own: results returned, oldest first (R103; log 24). -/
  results  : List Result
  /-- The model's own: pin actions performed, oldest first (R15; log 24). -/
  trace    : List PinEvent
  deriving DecidableEq, Repr

/-- A pin used against its contract (R36: "settable/readable only in the matching mode"). Safe: no command of the master does either (R292), and the model stops instead of choosing a level (log 19). -/
inductive Fault where
  /-- Raised by `setDio`: DIO driven while the pin is an input. Safe. -/
  | dioDrivenInInputMode
  /-- Raised by `sampleLine`: the line sampled while the pin is an output. Safe. -/
  | sampledInOutputMode
  deriving DecidableEq, Repr

/-- Situations the spec refuses (gives no meaning). All are safe: nothing can be proved of what follows. -/
inductive Refusal where
  /-- Raised by `exec`'s arms only, for an instruction without a meaning. Safe. -/
  | notModelled (mnemonic : String)
  /-- R43, R257: raised by every command but CONSTRUCT while `M.constructed` = 0. Safe. -/
  | notConstructed
  /-- R43, R257: raised by CONSTRUCT while `M.constructed` = 1. Safe. -/
  | alreadyConstructed
  /-- R301, D23: raised by `issue` when a command other than CONSTRUCT meets a master that is not at rest. Safe. -/
  | notAtRest
  /-- R105, R221, U10: raised by `acceptInstruction` for a reserved first byte. Safe. -/
  | reservedFirstByte
  /-- R221, U11, U12: raised by `clkRise` for a rising CLK edge in phase DONE. Safe. -/
  | clockInDonePhase
  /-- R221, U13: raised by `clkRise` for a byte clocked in by the master during read-out. Safe. -/
  | writeDuringReadOut
  deriving DecidableEq, Repr

/-- The state after power-on, before CONSTRUCT. `M.constructed` is 0 by R45; the parameters are the defaults of R7; every other value is the model's (logs 1, 2, 12, 13, 20, 21), since R45 gives none. -/
def State.reset : State where
  params := Params.default
  master := { constructed := false, displayEnabled := false, brightness := 0#3 }
  pins := { stb := true, clk := false, dir := .output, dio := false }
  attached := .peripheral
  per := { mem := [], dispEn := false, bright := 0#3, mode := .write, ap := 0#4, phase := .idle,
           sr := 0#8, bc := 0#3, rc := 0#6, drv := .z, kw := 0#32 }
  harness := { fifo := [], drv := .z }
  sw := 0#8
  unstable := 0#8
  draws := 0
  inputs := []
  wire := []
  results := []
  trace := []

end Sys2Proof.Machine
end

