-- ==== Sys2Proof/Machine/Ops.lean ====
section
/-! DEFINITION. The named operations over memory and registers: the display bytes, bit insertion, the record updates, results, and the one way a validation error is taken (60_exceptions.md R260, R261). -/

namespace Sys2Proof.Machine

/-- An outcome carrying a value. -/
abbrev Out (α : Type) := Host.Outcome α Fault Refusal

/-- Sequencing: go on with the next state, or stop as the first part stopped. -/
def andThen {α β : Type} (x : Out α) (f : α → Out β) : Out β :=
  match x with
  | .next a => f a
  | .fault r => .fault r
  | .refused r => .refused r

/-! ## DISPLAY space -/

/-- What a display byte that nothing has written reads as. The spec gives none (R20, N6): log 2. -/
def unlistedByte : Byte := 0#8

/-- `R[a]` (R11). -/
def Memory.read : Memory → Nat → Byte
  | [], _ => unlistedByte
  | (b, v) :: rest, a => if a = b then v else Memory.read rest a

/-- `MemWrite(a, 1, v)` (R11), in the canonical form. -/
def Memory.write : Memory → Nat → Byte → Memory
  | [], a, v => if v = unlistedByte then [] else [(a, v)]
  | (b, w) :: rest, a, v =>
    if a < b then (if v = unlistedByte then (b, w) :: rest else (a, v) :: (b, w) :: rest)
    else if a = b then (if v = unlistedByte then rest else (a, v) :: rest)
    else (b, w) :: Memory.write rest a v

/-- Every address from `lo` on, rising, below 16, and no entry at the unlisted value. -/
def Memory.wfFrom : Nat → Memory → Bool
  | _, [] => true
  | lo, (a, v) :: rest => decide (lo ≤ a) && decide (a < 16) && decide (v ≠ unlistedByte) && Memory.wfFrom (a + 1) rest

/-- The canonical form of DISPLAY space. -/
def Memory.wf (m : Memory) : Bool := Memory.wfFrom 0 m

/-- The entries of `n` addresses from `a` on, in canonical form. -/
def Memory.entriesFrom : Nat → Nat → Memory → Memory
  | 0, _, _ => []
  | n + 1, a, m =>
    if Memory.read m a = unlistedByte then Memory.entriesFrom n (a + 1) m
    else (a, Memory.read m a) :: Memory.entriesFrom n (a + 1) m

/-- The sixteen bytes of `m` in canonical form. -/
def Memory.canonical (m : Memory) : Memory := Memory.entriesFrom 16 0 m

/-! ## Bits -/

/-- `r[k] <- v` (R39). -/
def setBit (r : Byte) (k : BitVec 3) (v : Bool) : Byte :=
  (r &&& ~~~((1#8) <<< k)) ||| ((BitVec.ofBool v).setWidth 8 <<< k)

/-- Key byte i of the key word (R33): `K[i] = KW[8i+7:8i]`. -/
def keyByte (w : ScanWord) (i : Nat) : Byte := w.extractLsb' (8 * i) 8

/-! ## Registers -/

/-- Replace the peripheral's registers. -/
def State.setPer (s : State) (p : Periph) : State := { s with per := p }

/-- Replace the pins. -/
def State.setPins (s : State) (p : Pins) : State := { s with pins := p }

/-- Replace the loopback harness. -/
def State.setHarness (s : State) (h : Harness) : State := { s with harness := h }

/-- One more free value drawn. -/
def State.drew (s : State) : State := { s with draws := s.draws + 1 }

/-- A pin action is performed and seen (R15). -/
def State.log (s : State) (e : PinEvent) : State := { s with trace := s.trace ++ [e] }

/-- `M.constructed <- 1` (R43, R280). -/
def State.setConstructed (s : State) : State := { s with master := { s.master with constructed := true } }

/-- The command returns its result to the host (R103). -/
def State.giveResult (s : State) (r : Result) : State := { s with results := s.results ++ [r] }

/-! ## Validation errors -/

/-- The causes of R250, with one code each (D3). -/
inductive ValidationError where
  | brightnessRange
  | segmentPositionRange
  | ledPositionRange
  | addressRange
  | unknownCommand
  deriving DecidableEq, Repr

/-- The code of a validation error (R250). -/
def errorCode : ValidationError → Byte
  | .brightnessRange => 1#8
  | .segmentPositionRange => 2#8
  | .ledPositionRange => 3#8
  | .addressRange => 4#8
  | .unknownCommand => 5#8

/-- Taking a validation error (R260): the command ends, the host gets `Err(code)` with value 0, no field of master or peripheral changes and no pin action is performed. Nothing is saved and there is no vector, so there is no return either (R261): the next command runs from the state left here. -/
def raiseValidation (e : ValidationError) (s : State) : Out State :=
  .next (s.giveResult { status := errorCode e, value := 0#32 })

/-- A command that has run to completion returns `Ok(value)` (R103); a command without a value returns 0. -/
def returnOk (value : ScanWord) (s : State) : Out State :=
  .next (s.giveResult { status := 0#8, value := value })

/-- R43, R257: every command but CONSTRUCT needs a constructed master. -/
def whenConstructed (s : State) (run : Out State) : Out State :=
  if s.master.constructed then run else .refused .notConstructed

end Sys2Proof.Machine
end

