-- ==== Sys2Proof/Machine/Operands.lean ====
section
/-! DEFINITION. Operand forms: positions and addresses (30_encoding.md R98, R99, 42_register_api.md R175), the range checks of R106, and the parts of the key-scan word (R33, R63, R191, R194). -/

namespace Sys2Proof.Machine

/-- R251: `level > 7`. -/
def levelTooBig (level : Byte) : Bool := decide (level.toNat > 7)

/-- R252, R253: `position > 7`. -/
def positionTooBig (position : Byte) : Bool := decide (position.toNat > 7)

/-- R254: `address > 15`. -/
def addressTooBig (address : Byte) : Bool := decide (address.toNat > 15)

/-- R99, R161: the address of the pattern of digit `position`, `2 * position`, as an operand of WRITE. -/
def segmentAddress (position : Byte) : Byte := position <<< 1

/-- R99, R162: the address of the state of LED `position`, `2 * position + 1`. -/
def ledAddress (position : Byte) : Byte := (position <<< 1) ||| 1#8

/-- `address[3:0]` (R160). -/
def addressField (address : Byte) : Addr := address.setWidth 4

/-- `level[2:0]` (R170). -/
def levelField (level : Byte) : Level := level.setWidth 3

/-- The 24 bits of the key word no switch feeds (R32, R63). -/
def unusedKeyMask : ScanWord := 0xEEEEEEEE#32

/-- One key byte: bit 0 and bit 4 are switches (R63). -/
def switchByte (lo hi : Bool) : Byte :=
  (BitVec.ofBool lo).setWidth 8 ||| ((BitVec.ofBool hi).setWidth 8 <<< 4)

/-- The meaningful bits of the key word, `K[3] ++ K[2] ++ K[1] ++ K[0]` (R33). -/
def switchWord (sw : Byte) : ScanWord :=
  switchByte (sw.getLsbD 3) (sw.getLsbD 7) ++ switchByte (sw.getLsbD 2) (sw.getLsbD 6) ++
  switchByte (sw.getLsbD 1) (sw.getLsbD 5) ++ switchByte (sw.getLsbD 0) (sw.getLsbD 4)

/-- The key word seen for switch levels `sw` with the unused bits taken from `unused` (R33, D9). -/
def keyWord (sw : Byte) (unused : ScanWord) : ScanWord :=
  switchWord sw ||| (unused &&& unusedKeyMask)

/-- The switch levels as the scan sees them (R33): a switch that keeps its level over the window is seen at that level, any other at a free one. -/
def State.seenSwitches (s : State) : Byte :=
  (s.sw &&& ~~~s.unstable) ||| (Config.freeSwitches s.draws &&& s.unstable)

/-- The key snapshot of R216. -/
def State.keySnapshot (s : State) : ScanWord :=
  keyWord s.seenSwitches (Config.freeKeyBits s.draws)

/-- R190, R191: byte i of a scan placed at bit offset 8i of the accumulator. -/
def placeKeyByte (w : ScanWord) (i : Nat) (b : Byte) : ScanWord := w ||| (b.setWidth 32 <<< (8 * i))

/-- R194: the eight booleans, `out[i]` in bit i and bits 31:8 zero (D26). -/
def pressedKeys (w : ScanWord) : ScanWord :=
  (BitVec.ofBool (w.getLsbD 28) ++ BitVec.ofBool (w.getLsbD 20) ++
   BitVec.ofBool (w.getLsbD 12) ++ BitVec.ofBool (w.getLsbD 4) ++
   BitVec.ofBool (w.getLsbD 24) ++ BitVec.ofBool (w.getLsbD 16) ++
   BitVec.ofBool (w.getLsbD 8) ++ BitVec.ofBool (w.getLsbD 0)).setWidth 32

end Sys2Proof.Machine
end

