-- ==== Sys2Proof/Machine/Flags.lean ====
section
/-! DEFINITION. The flag-like state: the master's mirror (10_state.md R26 to R28), the peripheral's display-control latch (R24) and data mode (R25), and the display outputs that read them (44_peripheral.md R230 to R233). -/

namespace Sys2Proof.Machine

/-- `M.display_enabled <- v` (R26). -/
def State.setDisplayEnabled (s : State) (v : Bool) : State :=
  { s with master := { s.master with displayEnabled := v } }

/-- `M.brightness <- level` (R27). -/
def State.setBrightness (s : State) (level : Level) : State :=
  { s with master := { s.master with brightness := level } }

/-- The opcode `push_display_ctrl_instr` builds from the mirror (R144). -/
def mirrorCode (s : State) : Byte :=
  displayCtrlCode s.params s.master.displayEnabled s.master.brightness

/-- The master's registers after an instruction that goes on (R26, R27, R43): only CONSTRUCT, DISPLAY_ON, DISPLAY_OFF and a legal SET_BRIGHTNESS write them. -/
def masterAfter : Instr → Master → Master
  | .displayCtrl _ _, m => m
  | .dataWrite, m => m
  | .dataRead, m => m
  | .setAddress _, m => m
  | .construct, _ => { constructed := true, displayEnabled := true, brightness := 7#3 }
  | .displayOn, m => { m with displayEnabled := true }
  | .displayOff, m => { m with displayEnabled := false }
  | .setBrightness level, m => if level.toNat ≤ 7 then { m with brightness := level.setWidth 3 } else m
  | .setSegmentValue _ _, m => m
  | .setLedState _ _, m => m
  | .scanKeys, m => m
  | .defPressedKeys, m => m
  | .cleanup, m => m
  | .write _ _, m => m

/-- `P.DISP_EN, P.BRIGHT <- en, bright`, both at once (R24, R214). -/
def Periph.latchDisplay (p : Periph) (en : Bool) (bright : Level) : Periph :=
  { p with dispEn := en, bright := bright }

/-- `P.MODE <- m` (R25). -/
def Periph.setMode (p : Periph) (m : Mode) : Periph := { p with mode := m }

/-- R217, D22: what follows an address instruction is stored only in write mode. -/
def phaseAfterAddress : Mode → Phase
  | .write => .dataIn
  | .read => .done

/-! ## Display outputs -/

/-- The display of a peripheral that is there and has power is on (R230). That the lights are dark with nothing or the loopback harness on the wires, and without power, is the model's choice: R235 allows no claim there (DESIGN CHOICE, log 35). -/
def State.displayIsOn (s : State) : Bool := s.attached == .peripheral && s.per.dispEn

/-- `SEG[p][j]` (R231). -/
def State.seg (s : State) (p j : Pos) : Bool :=
  s.displayIsOn && (Memory.read s.per.mem (2 * p.toNat)).getLsbD j.toNat

/-- `LED[p]` (R232). -/
def State.led (s : State) (p : Pos) : Bool :=
  s.displayIsOn && (Memory.read s.per.mem (2 * p.toNat + 1)).getLsbD 0

/-- `LEVEL` (R233). That it is the last `P.BRIGHT` also while no powered peripheral hangs on the wires is the model's choice (DESIGN CHOICE, log 35). -/
def State.displayLevel (s : State) : Level := s.per.bright

end Sys2Proof.Machine
end

