-- ==== Sys2Proof/Machine/Wire.lean ====
section
/-! DEFINITION. The four wire instructions as the peripheral executes them (44_peripheral.md R214 to R217) and the data byte (R218). Each runs at the rising CLK edge that completes its byte (D18, D19); Machine/Link.lean calls them there, and exec's arms are these same meanings. -/

namespace Sys2Proof.Machine

/-- R214 DISPLAY_CTRL. -/
def execDisplayCtrl (en : Bool) (bright : Level) (s : State) : Out State :=
  .next (s.setPer { s.per.latchDisplay en bright with phase := .done })

/-- R215 DATA_WRITE. -/
def execDataWrite (s : State) : Out State :=
  .next (s.setPer { s.per.setMode .write with phase := .done })

/-- R216 DATA_READ: the key snapshot is a draw (R33), so a free value is used up. -/
def execDataRead (s : State) : Out State :=
  .next (s.setPer { s.per.setMode .read with kw := s.keySnapshot, rc := 0#6, phase := .readOut }).drew

/-- R217 SET_ADDRESS. -/
def execSetAddress (addr : Addr) (s : State) : Out State :=
  .next (s.setPer { s.per with ap := addr, phase := phaseAfterAddress s.per.mode })

/-- R218: the data byte in the shift register is stored at the pointer, which advances and wraps (D6). -/
def storeDataByte (s : State) : State :=
  s.setPer { s.per with mem := Memory.write s.per.mem s.per.ap.toNat s.per.sr, ap := s.per.ap + 1#4 }

/-- The byte that completed as the first of its window, once decoded. The ten commands are no wire instructions and `decodeWire` never yields one. -/
def execWire (i : Instr) (s : State) : Out State :=
  match i with
  | .displayCtrl en bright => execDisplayCtrl en bright s
  | .dataWrite => execDataWrite s
  | .dataRead => execDataRead s
  | .setAddress addr => execSetAddress addr s
  | .construct => .refused .reservedFirstByte
  | .displayOn => .refused .reservedFirstByte
  | .displayOff => .refused .reservedFirstByte
  | .setBrightness _ => .refused .reservedFirstByte
  | .setSegmentValue _ _ => .refused .reservedFirstByte
  | .setLedState _ _ => .refused .reservedFirstByte
  | .scanKeys => .refused .reservedFirstByte
  | .defPressedKeys => .refused .reservedFirstByte
  | .cleanup => .refused .reservedFirstByte
  | .write _ _ => .refused .reservedFirstByte

/-- R212, R221: the completed first byte of a window is decoded and acted on; a reserved one is refused. -/
def acceptInstruction (s : State) : Out State :=
  match decodeWire s.params s.per.sr with
  | .ok i => execWire i s
  | .error _ => .refused .reservedFirstByte

end Sys2Proof.Machine
end

