-- ==== Sys2Proof/Machine/Link.lean ====
section
/-! DEFINITION. The three wires: the level of the DIO line (10_state.md R37), how the device on the wires reacts to each edge (44_peripheral.md R211 to R213, R220, R221; the loopback harness of 40_transport.md R128), and the pin primitives of the master (00_scope.md R12). -/

namespace Sys2Proof.Machine

/-! ## The line -/

/-- What the attached device drives onto DIO. -/
def State.driver (s : State) : Drive :=
  match s.attached with
  | .nothing => .z
  | .peripheral => s.per.drv
  | .unpowered => .z
  | .loopback => s.harness.drv

/-- The level of an input that nothing drives: pull-up (R37, D11, G3; log 15). -/
def pullLevel : Bool := true

/-- `Line` (R37). When both sides drive it the level is a free value (D11; log 16). -/
def State.line (s : State) : Bool :=
  match s.pins.dir, s.driver with
  | .output, .z => s.pins.dio
  | .output, .level _ => Config.freeContention s.draws
  | .input, .z => pullLevel
  | .input, .level v => v

/-- Both sides drive the line. -/
def State.contended (s : State) : Bool :=
  match s.pins.dir, s.driver with
  | .output, .z => false
  | .output, .level _ => true
  | .input, .z => false
  | .input, .level _ => false

/-- The line has been latched; a free level is used up. -/
def State.afterLatch (s : State) : State := if s.contended then s.drew else s

/-! ## The peripheral at the edges -/

/-- R211: STB falls, a window opens. -/
def Periph.openWindow (p : Periph) : Periph := { p with phase := .cmd, bc := 0#3, drv := .z }

/-- R211: STB rises, the window closes; bits of an incomplete byte are never acted on (D7; log 22). -/
def Periph.closeWindow (p : Periph) : Periph := { p with phase := .idle, drv := .z }

/-- R212, R213: the byte in the shift register is complete. -/
def byteComplete (s : State) : Out State :=
  match s.per.phase with
  | .idle => .next s
  | .cmd => acceptInstruction s
  | .dataIn => .next (storeDataByte s)
  | .readOut => .next s
  | .done => .next s

/-- R213: the level of the line is latched as the next bit, bit 0 first, and the eighth completes the byte. -/
def latchBit (s : State) : Out State :=
  let p := s.per
  let sr := setBit p.sr p.bc s.line
  if p.bc = 7#3 then byteComplete (s.afterLatch.setPer { p with sr := sr, bc := 0#3 })
  else .next (s.afterLatch.setPer { p with sr := sr, bc := p.bc + 1#3 })

/-- A rising CLK edge in phases CMD and DATA_IN. The line is latched only when `M.DIR` = OUT (R37). An edge that latches nothing brings no bit, so nothing is counted and no byte completes at it (R39; log 18). -/
def receiveBit (s : State) : Out State :=
  match s.pins.dir with
  | .output => latchBit s
  | .input => .next s

/-- R220, R222: the read-out counter after a rising CLK edge; 6 bits, and once it is 32 or more only that matters (R40), so it stays at its last value (log 14). -/
def nextReadCount (rc : BitVec 6) : BitVec 6 := if rc = 63#6 then rc else rc + 1#6

/-- R220: a falling CLK edge in READ_OUT presents the next key bit; beyond the 32nd the level is free (R71; log 13). -/
def presentKeyBit (s : State) : State :=
  if s.per.rc.toNat ≤ 31 then s.setPer { s.per with drv := .level (s.per.kw.getLsbD s.per.rc.toNat) }
  else (s.setPer { s.per with drv := .level (Config.freeReadOut s.draws) }).drew

/-- R211: while STB is 1 every CLK edge is ignored. -/
def periphClkFall (s : State) : State :=
  if s.pins.stb then s else
  match s.per.phase with
  | .idle => s
  | .cmd => s
  | .dataIn => s
  | .readOut => presentKeyBit s
  | .done => s

/-- R212, R213, R220, R221. A byte clocked in by the master during read-out is one clocked while its pin is an output (log 17). -/
def periphClkRise (s : State) : Out State :=
  if s.pins.stb then .next s else
  match s.per.phase with
  | .idle => .next s
  | .cmd => receiveBit s
  | .dataIn => receiveBit s
  | .readOut =>
    match s.pins.dir with
    | .output => .refused .writeDuringReadOut
    | .input => .next (s.setPer { s.per with rc := nextReadCount s.per.rc })
  | .done => .refused .clockInDonePhase

/-! ## The loopback harness (R128, D10) -/

/-- A rising CLK edge while the master drives pushes the level of the line. -/
def loopRise (s : State) : State :=
  match s.pins.dir with
  | .output => (s.setHarness { s.harness with fifo := s.harness.fifo ++ [s.line] }).afterLatch
  | .input => s

/-- A falling CLK edge while the master listens presents the oldest stored bit and removes it. With nothing stored the level is free (log 20). -/
def loopFall (s : State) : State :=
  match s.pins.dir with
  | .output => s
  | .input =>
    match s.harness.fifo with
    | v :: rest => s.setHarness { fifo := rest, drv := .level v }
    | [] => (s.setHarness { fifo := [], drv := .level (Config.freeLoopback s.draws) }).drew

/-! ## Edges by device -/

/-- STB has changed to `v`. -/
def stbEdge (v : Bool) (s : State) : State :=
  match s.attached with
  | .nothing => s
  | .peripheral => s.setPer (if v then s.per.closeWindow else s.per.openWindow)
  | .unpowered => s
  | .loopback => s

/-- CLK has changed to `v`. -/
def clkEdge (v : Bool) (s : State) : Out State :=
  match s.attached, v with
  | .nothing, _ => .next s
  | .peripheral, true => periphClkRise s
  | .peripheral, false => .next (periphClkFall s)
  | .unpowered, _ => .next s
  | .loopback, true => .next (loopRise s)
  | .loopback, false => .next (loopFall s)

/-! ## Pin primitives (R12) -/

/-- `STB <- v`. An assignment of the level the pin already has is no edge. -/
def setStb (v : Bool) (s : State) : Out State :=
  let t := (s.setPins { s.pins with stb := v }).log (.stb v)
  .next (if s.pins.stb = v then t else stbEdge v t)

/-- `CLK <- v`. -/
def setClk (v : Bool) (s : State) : Out State :=
  let t := (s.setPins { s.pins with clk := v }).log (.clk v)
  if s.pins.clk = v then .next t else clkEdge v t

/-- `DIO <- v`, valid only in output mode (R36). -/
def setDio (v : Bool) (s : State) : Out State :=
  match s.pins.dir with
  | .output => .next ((s.setPins { s.pins with dio := v }).log (.dio v))
  | .input => .fault .dioDrivenInInputMode

/-- `DIR <- OUT`: the pin drives the level last assigned (D20). The harness presents only while the master listens (R128). -/
def setDirOut (s : State) : Out State :=
  .next (((s.setPins { s.pins with dir := .output }).setHarness { s.harness with drv := .z }).log .dirOut)

/-- `DIR <- IN`. -/
def setDirIn (s : State) : Out State :=
  .next ((s.setPins { s.pins with dir := .input }).log .dirIn)

/-- `Sample()`, valid only in input mode (R36). -/
def sampleLine (s : State) : Out (Bool × State) :=
  match s.pins.dir with
  | .output => .fault .sampledInOutputMode
  | .input => .next (s.line, s.log (.sampled s.line))

/-- One pin action. The level a sample returns is seen in the trace. -/
def pinAction (a : PinAction) (s : State) : Out State :=
  match a with
  | .stb v => setStb v s
  | .clk v => setClk v s
  | .dio v => setDio v s
  | .dirOut => setDirOut s
  | .dirIn => setDirIn s
  | .sample => andThen (sampleLine s) fun r => .next r.2

/-- Pin actions in order. -/
def pinActions : List PinAction → State → Out State
  | [], s => .next s
  | a :: rest, s => andThen (pinAction a s) (pinActions rest)

end Sys2Proof.Machine
end

