-- ==== Sys2Proof/Machine/Transport.lean ====
section
/-! DEFINITION. The bit-serial transport (40_transport.md R120, R124). -/

namespace Sys2Proof.Machine

/-- The pin actions of one bit of `write_byte`. -/
def writeBitActions (v : Bool) : List PinAction := [.clk false, .dio v, .clk true]

/-- The 24 pin actions of `write_byte(b)` (R120), bit 0 first. -/
def writeByteActions (b : Byte) : List PinAction :=
  writeBitActions (b.getLsbD 0) ++ writeBitActions (b.getLsbD 1) ++ writeBitActions (b.getLsbD 2) ++
  writeBitActions (b.getLsbD 3) ++ writeBitActions (b.getLsbD 4) ++ writeBitActions (b.getLsbD 5) ++
  writeBitActions (b.getLsbD 6) ++ writeBitActions (b.getLsbD 7)

/-- `write_byte(b)` (R120). -/
def writeByte (b : Byte) (s : State) : Out State := pinActions (writeByteActions b) s

/-- `write_byte` of each payload byte in sequence (R146). -/
def writeBytes : List Byte → State → Out State
  | [], s => .next s
  | b :: rest, s => andThen (writeByte b s) (writeBytes rest)

/-- The loop of `read_byte` (R124) with `n` bits to go, the next at index `k`: clock low, clock high, sample, OR the level into the result. -/
def readByteLoop : Nat → Nat → Byte → State → Out (Byte × State)
  | 0, _, r, s => .next (r, s)
  | n + 1, k, r, s =>
    andThen (setClk false s) fun s1 =>
    andThen (setClk true s1) fun s2 =>
    andThen (sampleLine s2) fun v =>
    readByteLoop n (k + 1) (r ||| ((BitVec.ofBool v.1).setWidth 8 <<< k)) v.2

/-- `read_byte()` (R124): the data line is an input for the eight bits and an output again afterwards. -/
def readByte (s : State) : Out (Byte × State) :=
  andThen (setDirIn s) fun s1 =>
  andThen (readByteLoop 8 0 0#8 s1) fun r =>
  andThen (setDirOut r.2) fun s2 =>
  .next (r.1, s2)

/-- The loop of `scan_keys` (R190) with `n` bytes to go, the next at index `i`. -/
def readBytes : Nat → Nat → ScanWord → State → Out (ScanWord × State)
  | 0, _, w, s => .next (w, s)
  | n + 1, i, w, s => andThen (readByte s) fun r => readBytes n (i + 1) (placeKeyByte w i r.1) r.2

end Sys2Proof.Machine
end

