-- ==== Sys2Proof/Machine/Framing.lean ====
section
/-! DEFINITION. Strobe-delimited framing (41_framing.md R142 to R147). -/

namespace Sys2Proof.Machine

/-- One strobe window around `body`. -/
def window (body : State → Out State) (s : State) : Out State :=
  andThen (setStb false s) fun s1 => andThen (body s1) (setStb true)

/-- `push_instruction(code)` (R142). -/
def pushInstruction (code : Byte) (s : State) : Out State := window (writeByte code) s

/-- `push_data_write_instr()` (R143). -/
def pushDataWriteInstr (s : State) : Out State := pushInstruction (dataWriteCode s.params) s

/-- `push_display_ctrl_instr()` (R144); called every time, with no test whether the mirror changed (R145). -/
def pushDisplayCtrlInstr (s : State) : Out State := pushInstruction (mirrorCode s) s

/-- `open_write_transaction(address, payload)` (R146): two windows one after the other, never nested (R152). -/
def openWriteTransaction (address : Addr) (payload : List Byte) (s : State) : Out State :=
  andThen (pushDataWriteInstr s) fun s1 =>
  window (writeBytes (addressCode s1.params address :: payload)) s1

/-- The read transaction (R147, R190): the instruction and four key bytes in one window. -/
def readTransaction (s : State) : Out (ScanWord × State) :=
  andThen (setStb false s) fun s1 =>
  andThen (writeByte (dataReadCode s1.params) s1) fun s2 =>
  andThen (readBytes 4 0 0#32 s2) fun r =>
  andThen (setStb true r.2) fun s3 =>
  .next (r.1, s3)

end Sys2Proof.Machine
end

