-- ==== Sys2Proof/Machine/Register.lean ====
section
/-! DEFINITION. The commands that store to the display registers: WRITE, SET_SEGMENT_VALUE, SET_LED_STATE, CLEANUP (42_register_api.md R160 to R164). -/

namespace Sys2Proof.Machine

/-- The body of WRITE once the address is known to be legal (R160). -/
def storeRegister (address byte : Byte) (s : State) : Out State :=
  andThen (openWriteTransaction (addressField address) [byte] s) (returnOk 0#32)

/-- R160 WRITE. -/
def execWrite (address byte : Byte) (s : State) : Out State :=
  whenConstructed s <|
    if addressTooBig address then raiseValidation .addressRange s
    else storeRegister address byte s

/-- R161 SET_SEGMENT_VALUE: the position is checked before the address is computed (R259). -/
def execSetSegmentValue (position pattern : Byte) (s : State) : Out State :=
  whenConstructed s <|
    if positionTooBig position then raiseValidation .segmentPositionRange s
    else storeRegister (segmentAddress position) pattern s

/-- R162 SET_LED_STATE: the state byte is stored as it is (R163). -/
def execSetLedState (position state : Byte) (s : State) : Out State :=
  whenConstructed s <|
    if positionTooBig position then raiseValidation .ledPositionRange s
    else storeRegister (ledAddress position) state s

/-- The sixteen zero bytes of CLEANUP (R164, C1, D5). -/
def cleanupPayload : List Byte := List.replicate 16 0#8

/-- The transactions of CLEANUP; STB ends high, with no stray strobe (R153). -/
def clearRegisters (s : State) : Out State := openWriteTransaction 0#4 cleanupPayload s

/-- R164 CLEANUP. -/
def execCleanup (s : State) : Out State :=
  whenConstructed s <| andThen (clearRegisters s) (returnOk 0#32)

end Sys2Proof.Machine
end

