-- ==== Sys2Proof/Machine/DisplayControl.lean ====
section
/-! DEFINITION. Display control: DISPLAY_ON, DISPLAY_OFF, SET_BRIGHTNESS (42_register_api.md R166 to R170), and CONSTRUCT (70_reset_and_hazards.md R280). -/

namespace Sys2Proof.Machine

/-- R166 DISPLAY_ON. -/
def execDisplayOn (s : State) : Out State :=
  whenConstructed s <|
    andThen (pushDisplayCtrlInstr (s.setDisplayEnabled true)) (returnOk 0#32)

/-- R168 DISPLAY_OFF. -/
def execDisplayOff (s : State) : Out State :=
  whenConstructed s <|
    andThen (pushDisplayCtrlInstr (s.setDisplayEnabled false)) (returnOk 0#32)

/-- R170 SET_BRIGHTNESS: the level is checked before the mirror is written. -/
def execSetBrightness (level : Byte) (s : State) : Out State :=
  whenConstructed s <|
    if levelTooBig level then raiseValidation .brightnessRange s
    else andThen (pushDisplayCtrlInstr (s.setBrightness (levelField level))) (returnOk 0#32)

/-- The four pin actions CONSTRUCT begins with, in the order of R281 (D13). -/
def initPins (s : State) : Out State :=
  pinActions [.stb true, .clk false, .dirOut, .dio false] s

/-- R280 CONSTRUCT. The order of the pin actions and the mirror writes is R280's. -/
def execConstruct (s : State) : Out State :=
  if s.master.constructed then .refused .alreadyConstructed else
    andThen (initPins s) fun s1 =>
    andThen (pushDisplayCtrlInstr ((s1.setDisplayEnabled true).setBrightness 7#3).setConstructed) fun s2 =>
    andThen (clearRegisters s2) (returnOk 0#32)

end Sys2Proof.Machine
end

