-- ==== Sys2Proof/Machine/KeyScan.lean ====
section
/-! DEFINITION. The key scan: SCAN_KEYS and DEF_PRESSED_KEYS (43_key_scan.md R190 to R194). -/

namespace Sys2Proof.Machine

/-- R190 SCAN_KEYS: the result is the 32-bit key-scan word. -/
def execScanKeys (s : State) : Out State :=
  whenConstructed s <| andThen (readTransaction s) fun r => returnOk r.1 r.2

/-- R194 DEF_PRESSED_KEYS: exactly one scan; the eight booleans in bits 7:0 of the value (R103, D26). -/
def execDefPressedKeys (s : State) : Out State :=
  whenConstructed s <| andThen (readTransaction s) fun r => returnOk (pressedKeys r.1) r.2

end Sys2Proof.Machine
end

