-- ==== Sys2Proof/Machine/Dispatch.lean ====
section
/-! DEFINITION. exec: one arm per constructor of Instr. -/

namespace Sys2Proof.Machine

/-- The effect of an instruction: of a wire instruction at the peripheral when its byte completes, of a command from one rest state to the next (R14). -/
def exec (i : Instr) (s : State) : Host.Outcome State Fault Refusal :=
  match i with
  -- wire instructions (44_peripheral.md)
  | .displayCtrl en bright => Sys2Proof.Machine.execDisplayCtrl en bright s
  | .dataWrite => Sys2Proof.Machine.execDataWrite s
  | .dataRead => Sys2Proof.Machine.execDataRead s
  | .setAddress addr => Sys2Proof.Machine.execSetAddress addr s
  -- commands (30_encoding.md R102)
  | .construct => Sys2Proof.Machine.execConstruct s
  | .displayOn => Sys2Proof.Machine.execDisplayOn s
  | .displayOff => Sys2Proof.Machine.execDisplayOff s
  | .setBrightness level => Sys2Proof.Machine.execSetBrightness level s
  | .setSegmentValue position pattern => Sys2Proof.Machine.execSetSegmentValue position pattern s
  | .setLedState position state => Sys2Proof.Machine.execSetLedState position state s
  | .scanKeys => Sys2Proof.Machine.execScanKeys s
  | .defPressedKeys => Sys2Proof.Machine.execDefPressedKeys s
  | .cleanup => Sys2Proof.Machine.execCleanup s
  | .write address byte => Sys2Proof.Machine.execWrite address byte s

end Sys2Proof.Machine
end

