-- ==== Sys2Proof/Machine/Trace.lean ====
section
/-! DEFINITION. Wire traces: what each command puts on the wires, written out from the expansion table of 30_encoding.md R110 and the byte traces of 40_transport.md R120, R124, independently of the meanings; and the same as pin actions, to run a command at the wire level (00_scope.md R14), as Machine/Power.lean does. -/

namespace Sys2Proof.Machine

/-- The bits of a byte in transmission order (R64). -/
def lsbFirst (b : Byte) : List Bool :=
  [b.getLsbD 0, b.getLsbD 1, b.getLsbD 2, b.getLsbD 3, b.getLsbD 4, b.getLsbD 5, b.getLsbD 6, b.getLsbD 7]

/-- `W b` (R13, R120). -/
def writeByteEvents (b : Byte) : List PinEvent :=
  (lsbFirst b).flatMap fun v => [.clk false, .dio v, .clk true]

/-- `R r` (R13, R124): the eight samples return the bits of r. -/
def readByteEvents (r : Byte) : List PinEvent :=
  .dirIn :: ((lsbFirst r).flatMap fun v => [.clk false, .clk true, .sampled v]) ++ [.dirOut]

/-- `< body >` (R13). -/
def windowEvents (body : List PinEvent) : List PinEvent := .stb false :: body ++ [.stb true]

/-- `< W c >` (R142). -/
def instructionEvents (c : Byte) : List PinEvent := windowEvents (writeByteEvents c)

/-- `< W DW > < W AD(a) W payload ... >` (R146). -/
def writeTransactionEvents (p : Params) (a : Addr) (payload : List Byte) : List PinEvent :=
  instructionEvents (dataWriteCode p) ++
  windowEvents ((addressCode p a :: payload).flatMap writeByteEvents)

/-- `< W DR R k0 R k1 R k2 R k3 >` for the word `k3 ++ k2 ++ k1 ++ k0` (R190). -/
def scanEvents (p : Params) (w : ScanWord) : List PinEvent :=
  windowEvents (writeByteEvents (dataReadCode p) ++ readByteEvents (keyByte w 0) ++
    readByteEvents (keyByte w 1) ++ readByteEvents (keyByte w 2) ++ readByteEvents (keyByte w 3))

/-- The trace of CLEANUP. -/
def cleanupEvents (p : Params) : List PinEvent :=
  writeTransactionEvents p 0#4 (List.replicate 16 0#8)

/-- The whole trace of a command (R110), with `m` the mirror before it and `w` the word a scan reads; nothing for a command that is rejected (R260). A wire instruction is no command. -/
def commandEvents (p : Params) (m : Master) (w : ScanWord) : Instr → List PinEvent
  | .displayCtrl _ _ => []
  | .dataWrite => []
  | .dataRead => []
  | .setAddress _ => []
  | .construct =>
    [.stb true, .clk false, .dirOut, .dio false] ++ instructionEvents (displayCtrlCode p true 7#3) ++ cleanupEvents p
  | .displayOn => instructionEvents (displayCtrlCode p true m.brightness)
  | .displayOff => instructionEvents (displayCtrlCode p false m.brightness)
  | .setBrightness level =>
    if level.toNat ≤ 7 then instructionEvents (displayCtrlCode p m.displayEnabled (level.setWidth 3)) else []
  | .setSegmentValue position pattern =>
    if position.toNat ≤ 7 then writeTransactionEvents p (BitVec.ofNat 4 (2 * position.toNat)) [pattern] else []
  | .setLedState position state =>
    if position.toNat ≤ 7 then writeTransactionEvents p (BitVec.ofNat 4 (2 * position.toNat + 1)) [state] else []
  | .scanKeys => scanEvents p w
  | .defPressedKeys => scanEvents p w
  | .cleanup => cleanupEvents p
  | .write address byte =>
    if address.toNat ≤ 15 then writeTransactionEvents p (BitVec.ofNat 4 address.toNat) [byte] else []

/-- The pin action behind an observed one. -/
def PinEvent.action : PinEvent → PinAction
  | .stb v => .stb v
  | .clk v => .clk v
  | .dio v => .dio v
  | .dirOut => .dirOut
  | .dirIn => .dirIn
  | .sampled _ => .sample

/-- The pin actions of a command: they do not depend on what is read. -/
def commandActions (p : Params) (m : Master) (i : Instr) : List PinAction :=
  (commandEvents p m 0#32 i).map PinEvent.action

/-- The levels the samples of a trace returned, in order. -/
def sampledLevels : List PinEvent → List Bool
  | [] => []
  | .sampled v :: rest => v :: sampledLevels rest
  | .stb _ :: rest => sampledLevels rest
  | .clk _ :: rest => sampledLevels rest
  | .dio _ :: rest => sampledLevels rest
  | .dirOut :: rest => sampledLevels rest
  | .dirIn :: rest => sampledLevels rest

/-- The word whose bit k is the k-th level (R191: bytes in order, R64: each LSB first). -/
def wordOfLevels : List Bool → ScanWord
  | [] => 0#32
  | v :: rest => (BitVec.ofBool v).setWidth 32 ||| (wordOfLevels rest <<< 1)

/-- The number of pin actions of a command (R304). -/
def pinActionCount (i : Instr) : Nat :=
  if i.wellFormed = false then 0 else
  match i with
  | .displayCtrl _ _ => 0
  | .dataWrite => 0
  | .dataRead => 0
  | .setAddress _ => 0
  | .construct => 466
  | .displayOn => 26
  | .displayOff => 26
  | .setBrightness _ => 26
  | .setSegmentValue _ _ => 76
  | .setLedState _ _ => 76
  | .scanKeys => 130
  | .defPressedKeys => 130
  | .cleanup => 436
  | .write _ _ => 76

/-- The number of rising CLK edges of a command (R304). -/
def risingEdgeCount (i : Instr) : Nat :=
  if i.wellFormed = false then 0 else
  match i with
  | .displayCtrl _ _ => 0
  | .dataWrite => 0
  | .dataRead => 0
  | .setAddress _ => 0
  | .construct => 152
  | .displayOn => 8
  | .displayOff => 8
  | .setBrightness _ => 8
  | .setSegmentValue _ _ => 24
  | .setLedState _ _ => 24
  | .scanKeys => 40
  | .defPressedKeys => 40
  | .cleanup => 144
  | .write _ _ => 24

/-! ## Checks on a trace (R151) -/

/-- Where a reader of the wires is: a window is open, the last level of CLK, and the rising CLK edges of the open window modulo 8. -/
structure WireView where
  inWindow : Bool
  clk      : Bool
  edges    : BitVec 3
  deriving DecidableEq, Repr

/-- One observed action under R151: a window opens only when none is open and closes only after a whole number of bytes, and CLK is toggled only inside a window. `none` is a trace that breaks the rule. -/
def WireView.next (v : WireView) : PinEvent → Option WireView
  | .stb false => if v.inWindow then none else some { v with inWindow := true, edges := 0#3 }
  | .stb true => if v.inWindow && v.edges == 0#3 then some { v with inWindow := false } else none
  | .clk c =>
    if v.inWindow then some { v with clk := c, edges := if c && !v.clk then v.edges + 1#3 else v.edges } else none
  | .dio _ => some v
  | .dirOut => some v
  | .dirIn => some v
  | .sampled _ => some v

/-- A whole trace under R151. -/
def WireView.run (v : WireView) : List PinEvent → Option WireView
  | [] => some v
  | e :: rest =>
    match v.next e with
    | some u => WireView.run u rest
    | none => none

/-- The number of rising CLK edges in a trace, from the level `clk` before it (R304). -/
def rises : Bool → List PinEvent → Nat
  | _, [] => 0
  | clk, .clk v :: rest => (if v && !clk then 1 else 0) + rises v rest
  | clk, .stb _ :: rest => rises clk rest
  | clk, .dio _ :: rest => rises clk rest
  | clk, .dirOut :: rest => rises clk rest
  | clk, .dirIn :: rest => rises clk rest
  | clk, .sampled _ :: rest => rises clk rest

end Sys2Proof.Machine
end

