-- ==== Sys2Proof/Machine/Power.lean ====
section
/-! DEFINITION. The peripheral alone losing power and having it back (70_reset_and_hazards.md R284), between two commands or in the course of one. A command in whose course this happens is described at the wire level of 00_scope.md R14: the pin actions of its expansion (30_encoding.md R110), with the changes of power in between. -/

namespace Sys2Proof.Machine

/-- The change gives the power back. -/
def PowerMove.isBack : PowerMove → Bool
  | .lost => false
  | .back _ => true

/-- A phase a peripheral can be in while STB is low (R38). -/
def Phase.inOpenWindow : Phase → Phase
  | .idle => .cmd
  | .cmd => .cmd
  | .dataIn => .dataIn
  | .readOut => .readOut
  | .done => .done

/-- The mode that goes with a phase as power returns, the model's choice (DESIGN CHOICE, log 34): the one it has on a running peripheral, where data bytes are accepted only in write mode (R217) and key bits presented only in read mode (R216). -/
def modeInPhase : Phase → Mode → Mode
  | .idle, m => m
  | .cmd, m => m
  | .dataIn, _ => .write
  | .readOut, _ => .read
  | .done, m => m

/-- The peripheral as its power returns, with its registers at `p`: any values are possible (R283; log 33). The phase is IDLE while STB is high (R38). R40 leaves P.DRV unspecified until the first STB edge: that it is Z outside READ_OUT is the model's choice, and so are the modes of DATA_IN and READ_OUT and the canonical form of the sixteen bytes (DESIGN CHOICE, log 34). -/
def Periph.poweredUp (p : Periph) (stb : Bool) : Periph :=
  let phase := if stb then .idle else p.phase.inOpenWindow
  { p with
    mem := Memory.canonical p.mem
    phase := phase
    mode := modeInPhase phase p.mode
    drv := if phase = .readOut then p.drv else .z }

/-- The peripheral loses its power or has it back; the master cannot know (R284). Without a peripheral there is nothing to lose. -/
def State.powerMove (m : PowerMove) (s : State) : State :=
  match s.attached, m with
  | .nothing, _ => s
  | .loopback, _ => s
  | .peripheral, .lost => { s with attached := .unpowered }
  | .unpowered, .lost => s
  | .peripheral, .back p => { s with per := p.poweredUp s.pins.stb }
  | .unpowered, .back p => { s with attached := .peripheral, per := p.poweredUp s.pins.stb }

/-- Pin actions with changes of power in between: each change comes after so many more pin actions, or at the end if there are fewer. -/
def pinActionsAmid : List (Nat × PowerMove) → List PinAction → State → Out State
  | [], actions, s => pinActions actions s
  | (n, m) :: rest, actions, s =>
    andThen (pinActions (actions.take n) s) fun t => pinActionsAmid rest (actions.drop n) (t.powerMove m)

/-- The value a command returns when it has read the word `w` (R103). -/
def valueOf (w : ScanWord) : Instr → ScanWord
  | .displayCtrl _ _ => 0#32
  | .dataWrite => 0#32
  | .dataRead => 0#32
  | .setAddress _ => 0#32
  | .construct => 0#32
  | .displayOn => 0#32
  | .displayOff => 0#32
  | .setBrightness _ => 0#32
  | .setSegmentValue _ _ => 0#32
  | .setLedState _ _ => 0#32
  | .scanKeys => w
  | .defPressedKeys => pressedKeys w
  | .cleanup => 0#32
  | .write _ _ => 0#32

/-- The command `i` with changes of power in its course. A command that performs no pin action (it is refused, R43, or rejected, R260) does what it always does and the changes follow. Any other performs the pin actions of its expansion, with the mirror as it leaves it, and returns what it has sampled. -/
def execAmid (i : Instr) (moves : List (Nat × PowerMove)) (s : State) : Out State :=
  if s.master.constructed = decide (i = .construct) ∨ i.wellFormed = false then
    andThen (exec i s) (pinActionsAmid moves [])
  else
    andThen (pinActionsAmid moves (commandActions s.params s.master i) { s with master := masterAfter i s.master }) fun t =>
      returnOk (valueOf (wordOfLevels (sampledLevels (t.trace.drop s.trace.length))) i) t

end Sys2Proof.Machine
end

