-- ==== Sys2Proof/Machine/HostPort.lean ====
section
/-! DEFINITION. The command interface (30_encoding.md R100 to R103): how the host's next command word is taken, the environment's switch changes and the peripheral's power, and how an instruction is placed where the step fetches. -/

namespace Sys2Proof.Machine

/-- The rest state of R150: STB high and the data pin an output. -/
def State.atRest (s : State) : Bool := s.pins.stb && s.pins.dir == .output

/-- D23, R301: the next command is taken only at a rest state. CONSTRUCT comes before any rest state exists, at whatever pin levels power-on left (R45, R287). -/
def mayIssue (i : Instr) (s : State) : Bool := decide (i = .construct) || s.atRest

/-- The host issues a command word. The word is decoded first (R259): a reserved word returns `Err(UNKNOWN_COMMAND)` (R255). -/
def issue (w : CmdWord) (s : State) : Out State :=
  match decodeCommand w with
  | .error _ => raiseValidation .unknownCommand s
  | .ok i => if mayIssue i s then exec i s else .refused .notAtRest

/-- The host issues a command word in whose course the power of the peripheral changes (R284): taken as `issue` takes it. -/
def issueAmid (w : CmdWord) (moves : List (Nat × PowerMove)) (s : State) : Out State :=
  match decodeCommand w with
  | .error _ => andThen (raiseValidation .unknownCommand s) (pinActionsAmid moves [])
  | .ok i => if mayIssue i s then execAmid i moves s else .refused .notAtRest

/-- The next thing from outside. -/
def takeInput (x : Input) (s : State) : Out State :=
  match x with
  | .command w => issue w s
  | .switches levels unstable => .next { s with sw := levels, unstable := unstable }
  | .power m => .next (s.powerMove m)
  | .commandAmid w moves => issueAmid w moves s

/-- Place a command word as the host's next command, before a master that is at rest and, for any command but CONSTRUCT, constructed (log 5). -/
def loadCommand (w : CmdWord) (s : State) : State :=
  { s with
    inputs := .command w :: s.inputs
    wire := []
    master := { s.master with constructed := decide (cmdOp w ≠ 0#8) }
    pins := { s.pins with stb := true, dir := .output } }

/-- Place a wire byte on the link: the window is open, seven bits are in, bit 7 is on the line, and the pin action to come is the rising CLK edge that completes the byte (log 5). -/
def loadWireByte (c : Byte) (s : State) : State :=
  { s with
    attached := .peripheral
    pins := { stb := false, clk := false, dir := .output, dio := c.getLsbD 7 }
    per := { s.per with phase := .cmd, sr := c &&& 0x7F#8, bc := 7#3, drv := .z }
    wire := .clk true :: s.wire }

end Sys2Proof.Machine
end

