-- ==== Sys2Proof/Machine/Step.lean ====
section
/-! DEFINITION. One step of the machine, and placing an instruction where the step fetches its next one. -/

namespace Sys2Proof.Machine

/-- One step. Pin actions that are still to be performed come first, one a step (the wire level of R14). With none, the next input is taken: a command runs to completion in this one step (R14, R301), or the switches change, or the peripheral loses power or has it back. With no input left the run has ended (R17) and nothing changes. -/
def step (s : State) : Host.Outcome State Fault Refusal :=
  match s.wire, s.inputs with
  | a :: rest, _ => pinAction a { s with wire := rest }
  | [], x :: rest => takeInput x { s with inputs := rest }
  | [], [] => .next s

/-- `s` with the instruction whose bits are `w` placed where `step` fetches its next one: 8 bits on the link, 24 bits at the command interface (log 5). -/
def State.withFetchWord (s : State) (nbits w : Nat) : State :=
  if nbits = 8 then loadWireByte (BitVec.ofNat 8 w) s
  else if nbits = 24 then loadCommand (BitVec.ofNat 24 w) s
  else s

end Sys2Proof.Machine
end

