-- ==== Sys2Proof/Machine/CommandLevel.lean ====
section
/-! DEFINITION. The command level of 00_scope.md R14: what each command has done, from one rest state to the next, written from the "Effect" lines of 42_register_api.md, 43_key_scan.md and 70_reset_and_hazards.md for a peripheral on the wires, without any pin action. The meanings do not use it; statements compare the two levels. What a command does to the mirror is `masterAfter` of Flags.lean. -/

namespace Sys2Proof.Machine

/-- DISPLAY space after a burst from address `a`: the j-th byte at `(a + j) mod 16` (R71). -/
def Memory.burst : Memory → Addr → List Byte → Memory
  | m, _, [] => m
  | m, a, d :: rest => Memory.burst (Memory.write m a.toNat d) (a + 1#4) rest

/-- A display-control transaction carrying `en` and `bright` (R144, R214). -/
def State.afterDisplayControl (s : State) (en : Bool) (bright : Level) : State :=
  let code := displayCtrlCode s.params en bright
  { s with
    pins := { s.pins with clk := true, dio := code.getLsbD 7 }
    per := { s.per with dispEn := en, bright := bright, phase := .idle, sr := code, bc := 0#3, drv := .z }
    trace := s.trace ++ instructionEvents code }

/-- A write transaction storing `ds` from address `a` (R146, R218). -/
def State.afterBurst (s : State) (a : Addr) (ds : List Byte) : State :=
  let last := ds.getLastD 0#8
  { s with
    pins := { s.pins with clk := true, dio := last.getLsbD 7 }
    per := { s.per with
      mem := Memory.burst s.per.mem a ds, mode := .write, ap := a + BitVec.ofNat 4 ds.length
      phase := .idle, sr := last, bc := 0#3, drv := .z }
    trace := s.trace ++ writeTransactionEvents s.params a ds }

/-- A read transaction that took the key snapshot `w` (R190, R216, R220). -/
def State.afterScan (s : State) (w : ScanWord) : State :=
  let code := dataReadCode s.params
  { s with
    pins := { s.pins with clk := true, dio := code.getLsbD 7 }
    per := { s.per with mode := .read, kw := w, rc := 32#6, phase := .idle, sr := code, bc := 0#3, drv := .z }
    harness := { s.harness with drv := .z }
    draws := s.draws + 1
    trace := s.trace ++ scanEvents s.params w }

/-- `Ok(value)` returned (R103). -/
def State.ok (s : State) (value : ScanWord) : State :=
  { s with results := s.results ++ [{ status := 0#8, value := value }] }

/-- `Err(code)` returned (R103, R260). -/
def State.err (s : State) (code : Byte) : State :=
  { s with results := s.results ++ [{ status := code, value := 0#32 }] }

/-- The pins after CONSTRUCT's four pin actions (R280, R281), seen in that order. The peripheral ignores CLK and DIO while STB is high, and takes a rising STB, if there is one, as the end of a window. -/
def State.afterInitPins (s : State) : State :=
  { s with
    pins := { stb := true, clk := false, dir := .output, dio := false }
    per := if s.pins.stb then s.per else { s.per with phase := .idle, drv := .z }
    harness := { s.harness with drv := .z }
    trace := s.trace ++ [.stb true, .clk false, .dirOut, .dio false] }

/-- The effect of a command whose operands are legal, with the master constructed or, for CONSTRUCT, not. A wire instruction is no command. -/
def commandEffect : Instr → State → State
  | .displayCtrl _ _, s => s
  | .dataWrite, s => s
  | .dataRead, s => s
  | .setAddress _, s => s
  | .construct, s =>
    (({ s.afterInitPins with master := { constructed := true, displayEnabled := true, brightness := 7#3 } }.afterDisplayControl
      true 7#3).afterBurst 0#4 (List.replicate 16 0#8)).ok 0#32
  | .displayOn, s =>
    ({ s with master := { s.master with displayEnabled := true } }.afterDisplayControl true s.master.brightness).ok 0#32
  | .displayOff, s =>
    ({ s with master := { s.master with displayEnabled := false } }.afterDisplayControl false s.master.brightness).ok 0#32
  | .setBrightness level, s =>
    ({ s with master := { s.master with brightness := level.setWidth 3 } }.afterDisplayControl
      s.master.displayEnabled (level.setWidth 3)).ok 0#32
  | .setSegmentValue position pattern, s => (s.afterBurst (BitVec.ofNat 4 (2 * position.toNat)) [pattern]).ok 0#32
  | .setLedState position state, s => (s.afterBurst (BitVec.ofNat 4 (2 * position.toNat + 1)) [state]).ok 0#32
  | .scanKeys, s => (s.afterScan s.keySnapshot).ok s.keySnapshot
  | .defPressedKeys, s => (s.afterScan s.keySnapshot).ok (pressedKeys s.keySnapshot)
  | .cleanup, s => (s.afterBurst 0#4 (List.replicate 16 0#8)).ok 0#32
  | .write address byte, s => (s.afterBurst (address.setWidth 4) [byte]).ok 0#32

end Sys2Proof.Machine
end

