-- ==== Sys2Proof/Safety.lean ====
section
/-! DEFINITION. What counts as a safe state of the machine, in the terms claims use: when a command may run, the invariant of the link and of DISPLAY space, and the invariants of 10_state.md R44 and R28 between commands, and the part of them a return of power cannot break. -/

namespace Sys2Proof.Machine

/-- A constructed master at rest (R150) with opcode constants that meet R92: the condition under which a command executes. -/
abbrev State.ready (s : State) : Prop :=
  s.master.constructed = true ∧ s.params.valid = true ∧ s.pins.stb = true ∧ s.pins.dir = .output

/-- A `ready` state with the peripheral of 44_peripheral.md on the wires (R235). -/
abbrev State.readyWithPeripheral (s : State) : Prop := s.ready ∧ s.attached = .peripheral

/-- The command `i` runs in `s`: CONSTRUCT on a master that does not exist yet, at any pin levels (R280), any other command on a constructed master at rest (R43, R150). -/
abbrev State.accepts (s : State) (i : Instr) : Prop :=
  s.params.valid = true ∧
  (i = .construct → s.master.constructed = false) ∧
  (i ≠ .construct → s.master.constructed = true ∧ s.pins.stb = true ∧ s.pins.dir = .output)

/-- The invariant of the link and of DISPLAY space. Memory is in canonical form. A window is open exactly outside IDLE (R38, R211). P.DRV is Z outside READ_OUT (R40). Data bytes are accepted only in write mode (R217) and key bits presented only in read mode (R216). The harness presents only to a listening master (R128; log 20). What a peripheral drives, and in which mode, as its power returns is the model's choice (log 34). -/
abbrev State.linkInv (s : State) : Prop :=
  Memory.wf s.per.mem = true ∧
  (s.attached = .peripheral →
    (s.pins.stb = true ↔ s.per.phase = .idle) ∧
    (s.per.phase ≠ .readOut → s.per.drv = .z) ∧
    (s.per.phase = .dataIn → s.per.mode = .write) ∧
    (s.per.phase = .readOut → s.per.mode = .read)) ∧
  (s.pins.dir = .output → s.harness.drv = .z)

/-- The invariants of R44, R28 and R150 between commands: nothing is in flight, and once the master exists it is at rest with CLK high and its mirror agrees with the peripheral's display-control latch. -/
abbrev State.restInv (s : State) : Prop :=
  s.wire = [] ∧ s.params.valid = true ∧
  (s.master.constructed = true →
    s.pins.stb = true ∧ s.pins.clk = true ∧ s.pins.dir = .output ∧
    (s.attached = .peripheral →
      s.per.phase = .idle ∧ s.per.dispEn = s.master.displayEnabled ∧ s.per.bright = s.master.brightness))

/-- The part of `restInv` that holds also after the peripheral has had its power back, when the mirror need not agree with it (R294): nothing is in flight, the master is at rest and the peripheral is in IDLE. -/
abbrev State.restPins (s : State) : Prop :=
  s.wire = [] ∧ s.params.valid = true ∧
  (s.master.constructed = true →
    s.pins.stb = true ∧ s.pins.clk = true ∧ s.pins.dir = .output ∧ (s.attached = .peripheral → s.per.phase = .idle))

/-- The power of the peripheral comes back in the course of this input (R284). -/
def Input.bringsPowerBack : Input → Bool
  | .command _ => false
  | .switches _ _ => false
  | .power m => m.isBack
  | .commandAmid _ moves => moves.any fun x => x.2.isBack

/-- What the host and a reader of the wires can tell of a state (R15): the pins, the results, the trace, and what the master knows. -/
abbrev State.sameMasterSide (s t : State) : Prop :=
  s.params = t.params ∧ s.master = t.master ∧ s.pins = t.pins ∧ s.results = t.results ∧ s.trace = t.trace

/-- `n` steps, stopping where one stops. -/
def steps : Nat → State → Host.Outcome State Fault Refusal
  | 0, s => .next s
  | n + 1, s => andThen (step s) (steps n)

end Sys2Proof.Machine
end

