-- ==== Sys2Proof/Certificates/Slice0/Obligations.lean ====
section
/-! DEFINITION. The statements for the provers. Each docstring names the sentence or section of spec/ it formalises. Where the effect of a command on the peripheral is stated, the premise is that the peripheral of 44_peripheral.md hangs on the wires (R235). Statements hold for every assignment of the opcode constants that meets R92, and for every value of the free streams of Config. -/

open Sys2Proof Sys2Proof.Machine

/-! ## Encoding -/

/-- 30_encoding.md sections 1 to 4: with any legal opcode constants, the decoder gives back every instruction that was encoded. -/
def Obligations.EncodedInstructionsDecode : Prop :=
  ∀ p : Params, p.valid = true → ∀ i : Instr, decode p (encode p i) = .ok i

/-- The other direction: what decodes to an instruction is that instruction's encoding, so no bit is ignored. -/
def Obligations.DecodedBitsAreTheEncoding : Prop :=
  ∀ (p : Params) (e : Encoded) (i : Instr), decode p e = .ok i → encode p i = e

/-- Every row of the opcode table under the default constants (log 3): the table's word of an instruction decodes to it. -/
def Obligations.TableWordsDecode : Prop :=
  ∀ i : Instr, decodeTableWord (encode Params.default i).tableWord.1 (encode Params.default i).tableWord.2 = some i

/-- 30_encoding.md section 5 (R105), under the default constants (log 3): exactly the bytes outside 0x40, 0x42, 0x80 to 0x8F and 0xC0 to 0xCF are reserved. -/
def Obligations.ReservedWireBytes : Prop :=
  ∀ c : Byte, decodeWire Params.default c = .error .reservedFirstByte ↔
    ¬ (c = 0x40#8 ∨ c = 0x42#8 ∨ (0x80 ≤ c.toNat ∧ c.toNat ≤ 0x8F) ∨ (0xC0 ≤ c.toNat ∧ c.toNat ≤ 0xCF))

/-- 30_encoding.md sections 4 and 5 (R101, R107, D24): a command word is rejected exactly when its op is above 0x09 or an operand byte its command does not use is not zero. -/
def Obligations.ReservedCommandWords : Prop :=
  ∀ w : CmdWord, (∃ r, decodeCommand w = .error r) ↔
    (cmdOp w).toNat > 0x09 ∨
    ((cmdOp w).toNat ∈ [0x00, 0x01, 0x02, 0x06, 0x07, 0x08] ∧ (cmdA w ≠ 0#8 ∨ cmdB w ≠ 0#8)) ∨
    ((cmdOp w).toNat = 0x03 ∧ cmdB w ≠ 0#8)

/-- Words written out from 30_encoding.md R93 to R95 and R102, one or more of every format (default constants, log 3). -/
def Obligations.WrittenOutWordsDecode : Prop :=
  decodeTableWord 8 0b10001111 = some (.displayCtrl true 7#3) ∧
  decodeTableWord 8 0b10000010 = some (.displayCtrl false 2#3) ∧
  decodeTableWord 8 0b01000000 = some .dataWrite ∧
  decodeTableWord 8 0b01000010 = some .dataRead ∧
  decodeTableWord 8 0b11000101 = some (.setAddress 5#4) ∧
  decodeTableWord 24 0x000000 = some .construct ∧
  decodeTableWord 24 0x030200 = some (.setBrightness 2#8) ∧
  decodeTableWord 24 0x04034F = some (.setSegmentValue 3#8 0x4F#8) ∧
  decodeTableWord 24 0x060000 = some .scanKeys ∧
  decodeTableWord 24 0x090FAA = some (.write 15#8 0xAA#8)

/-- R99: a digit's address is `2 * p` and an LED's `2 * p + 1`, both within 4 bits for p in [0, 7], and SET_SEGMENT_VALUE and SET_LED_STATE target those registers: they do what WRITE does at that address. -/
def Obligations.PositionsGiveAddresses : Prop :=
  ∀ p : Byte, p.toNat ≤ 7 →
    (segmentAddress p).toNat = 2 * p.toNat ∧ (segmentAddress p).toNat ≤ 14 ∧
    (ledAddress p).toNat = 2 * p.toNat + 1 ∧ (ledAddress p).toNat ≤ 15 ∧
    (addressField (segmentAddress p)).toNat = 2 * p.toNat ∧ (addressField (ledAddress p)).toNat = 2 * p.toNat + 1 ∧
    (∀ (v : Byte) (s : State), exec (.setSegmentValue p v) s = exec (.write (segmentAddress p) v) s ∧
      exec (.setLedState p v) s = exec (.write (ledAddress p) v) s)

/-- R191: byte i, the i-th read of a scan, lands in bits 8i+7 to 8i of the word; the first byte read is the least significant. -/
def Obligations.KeyBytesArePlaced : Prop :=
  ∀ k0 k1 k2 k3 : Byte,
    (∀ s s1 s2 s3 s4 : State, readByte s = .next (k0, s1) → readByte s1 = .next (k1, s2) →
      readByte s2 = .next (k2, s3) → readByte s3 = .next (k3, s4) →
      readBytes 4 0 0#32 s = .next (k3 ++ k2 ++ k1 ++ k0, s4)) ∧
    (∀ j, j < 8 → (k3 ++ k2 ++ k1 ++ k0).getLsbD j = k0.getLsbD j ∧
      (k3 ++ k2 ++ k1 ++ k0).getLsbD (8 + j) = k1.getLsbD j ∧
      (k3 ++ k2 ++ k1 ++ k0).getLsbD (16 + j) = k2.getLsbD j ∧
      (k3 ++ k2 ++ k1 ++ k0).getLsbD (24 + j) = k3.getLsbD j)

/-! ## The step -/

/-- R14, R100: with no pin action pending, a command word that decodes runs as its command, the word taken off the list; CONSTRUCT at any pin levels, any other command at rest (D23). With changes of the peripheral's power in its course (R284; log 33) it runs as `execAmid`. -/
def Obligations.StepRunsTheIssuedCommand : Prop :=
  (∀ (s : State) (w : CmdWord) (rest : List Input) (i : Instr),
    s.wire = [] → s.inputs = .command w :: rest → decodeCommand w = .ok i → (i = .construct ∨ s.atRest = true) →
    step s = exec i { s with inputs := rest }) ∧
  (∀ (s : State) (w : CmdWord) (moves : List (Nat × PowerMove)) (rest : List Input) (i : Instr),
    s.wire = [] → s.inputs = .commandAmid w moves :: rest → decodeCommand w = .ok i →
    (i = .construct ∨ s.atRest = true) → step s = execAmid i moves { s with inputs := rest })

/-- R212, R213: the rising CLK edge that brings the eighth bit of a window's first byte runs the wire instruction the byte stands for, on the state in which the edge has happened and the byte is in the shift register. -/
def Obligations.StepRunsTheCompletedWireInstruction : Prop :=
  ∀ (s : State) (rest : List PinAction) (i : Instr),
    s.wire = .clk true :: rest → s.attached = .peripheral → s.pins.stb = false → s.pins.clk = false →
    s.pins.dir = .output → s.per.phase = .cmd → s.per.bc = 7#3 → s.per.drv = .z →
    decodeWire s.params (setBit s.per.sr 7#3 s.pins.dio) = .ok i →
    step s = exec i { s with
      wire := rest
      pins := { s.pins with clk := true }
      per := { s.per with sr := setBit s.per.sr 7#3 s.pins.dio, bc := 0#3 }
      trace := s.trace ++ [.clk true] }

/-- The other steps. A reserved command word returns Err(5) and nothing else (R255, R260); that it does so also before CONSTRUCT and off the rest state is the model's choice (log 9). A command other than CONSTRUCT is not taken while the master is not at rest (D23; log 11). A switch change sets the switches (R74) and the model's own `unstable` (log 12). The peripheral alone loses power or has it back, with whatever registers it then has, and nothing else changes (R283, R284; log 33); that P.DRV is then Z while STB is high, which R40 leaves unspecified until the first STB edge, is the model's choice (log 34). With nothing to do nothing changes (R17; log 7). -/
def Obligations.OtherSteps : Prop :=
  (∀ (s : State) (w : CmdWord) (rest : List Input) (r : Reject),
    s.wire = [] → s.inputs = .command w :: rest → decodeCommand w = .error r →
    step s = .next ({ s with inputs := rest }.err 5#8)) ∧
  (∀ (s : State) (w : CmdWord) (rest : List Input) (i : Instr),
    s.wire = [] → s.inputs = .command w :: rest → decodeCommand w = .ok i → i ≠ .construct → s.atRest = false →
    step s = .refused .notAtRest) ∧
  (∀ (s : State) (levels unstable : Byte) (rest : List Input),
    s.wire = [] → s.inputs = .switches levels unstable :: rest →
    step s = .next { s with inputs := rest, sw := levels, unstable := unstable }) ∧
  (∀ (s : State) (rest : List Input), s.wire = [] → s.inputs = .power .lost :: rest →
    step s = .next { s with
      inputs := rest, attached := if s.attached = .peripheral then .unpowered else s.attached }) ∧
  (∀ (s : State) (p : Periph) (rest : List Input), s.wire = [] → s.inputs = .power (.back p) :: rest →
    ((s.attached = .nothing ∨ s.attached = .loopback) → step s = .next { s with inputs := rest }) ∧
    ((s.attached = .peripheral ∨ s.attached = .unpowered) →
      ∃ t, step s = .next t ∧ t = { s with inputs := rest, attached := .peripheral, per := t.per } ∧
        Memory.wf t.per.mem = true ∧ (∀ a, a < 16 → Memory.read t.per.mem a = Memory.read p.mem a) ∧
        (s.pins.stb = true → t.per = { p with mem := t.per.mem, phase := .idle, drv := .z }) ∧
        (s.pins.stb = false → t.per.phase ≠ .idle ∧ (p.phase ≠ .idle → t.per.phase = p.phase) ∧
          t.per = { p with mem := t.per.mem, phase := t.per.phase, mode := t.per.mode, drv := t.per.drv }))) ∧
  (∀ s : State, s.wire = [] → s.inputs = [] → step s = .next s)

/-- An instruction placed where the step fetches runs in the very next step (log 5): a wire instruction on the link, a command at the command interface. -/
def Obligations.PlacedInstructionRunsNext : Prop :=
  ∀ (s : State) (i : Instr), s.params.valid = true →
    step (s.withFetchWord (encode s.params i).tableWord.1 (encode s.params i).tableWord.2) =
      match encode s.params i with
      | .wire c => exec i { s with
          attached := .peripheral
          pins := { stb := false, clk := true, dir := .output, dio := c.getLsbD 7 }
          per := { s.per with phase := .cmd, sr := c, bc := 0#3, drv := .z }
          trace := s.trace ++ [.clk true] }
      | .command _ => exec i { s with
          wire := []
          master := { s.master with constructed := decide (i ≠ .construct) }
          pins := { s.pins with stb := true, dir := .output } }

/-! ## Wire instructions at the peripheral -/

/-- R214: DISPLAY_CTRL sets the display-control latch, and nothing else but the phase. -/
def Obligations.DisplayCtrlSetsTheLatch : Prop :=
  ∀ (en : Bool) (bright : Level) (s : State),
    exec (.displayCtrl en bright) s =
      .next { s with per := { s.per with dispEn := en, bright := bright, phase := .done } }

/-- R215, R216: the data instructions select the mode; DATA_READ takes the key snapshot and starts the read-out with P.DRV still as it was. -/
def Obligations.DataInstructionsSelectTheMode : Prop :=
  ∀ s : State,
    exec .dataWrite s = .next { s with per := { s.per with mode := .write, phase := .done } } ∧
    exec .dataRead s = .next { s with
      per := { s.per with mode := .read, kw := s.keySnapshot, rc := 0#6, phase := .readOut }
      draws := s.draws + 1 }

/-- R217, D22: SET_ADDRESS sets the pointer; data bytes are accepted afterwards only in write mode. No register is stored. -/
def Obligations.SetAddressSetsThePointer : Prop :=
  ∀ (addr : Addr) (s : State),
    exec (.setAddress addr) s = .next { s with
      per := { s.per with ap := addr, phase := if s.per.mode = .write then .dataIn else .done } }

/-- R213, R37: in phases CMD and DATA_IN a rising CLK edge with the data pin an output stores the line at bit P.BC of the shift register; before the last bit only the counter moves on, at the last bit the byte is acted on at once; falling edges do nothing. With the data pin an input the line is not latched (R37); that the edge then has no effect at all, on the bit counter either, is log 18. That latching a line both sides drive uses up one free value is the model's choice (log 16). Eight bits of `write_byte(b)` from P.BC = 0 complete the byte b. -/
def Obligations.BytesAreReceivedLsbFirst : Prop :=
  ∀ s : State, s.attached = .peripheral → s.pins.stb = false → (s.per.phase = .cmd ∨ s.per.phase = .dataIn) →
    (s.pins.clk = true → setClk false s = .next { s with
      pins := { s.pins with clk := false }, trace := s.trace ++ [.clk false] }) ∧
    (s.pins.clk = false → s.pins.dir = .input → setClk true s = .next { s with
      pins := { s.pins with clk := true }, trace := s.trace ++ [.clk true] }) ∧
    (s.pins.clk = false → s.pins.dir = .output → s.per.bc ≠ 7#3 → setClk true s = .next { s with
      pins := { s.pins with clk := true }
      per := { s.per with sr := setBit s.per.sr s.per.bc s.line, bc := s.per.bc + 1#3 }
      draws := if s.contended then s.draws + 1 else s.draws
      trace := s.trace ++ [.clk true] }) ∧
    (s.pins.clk = false → s.pins.dir = .output → s.per.bc = 7#3 → setClk true s = byteComplete { s with
      pins := { s.pins with clk := true }
      per := { s.per with sr := setBit s.per.sr 7#3 s.line, bc := 0#3 }
      draws := if s.contended then s.draws + 1 else s.draws
      trace := s.trace ++ [.clk true] }) ∧
    (∀ b : Byte, s.pins.dir = .output → s.per.drv = .z → s.per.bc = 0#3 → writeByte b s = byteComplete { s with
      pins := { s.pins with clk := true, dio := b.getLsbD 7 }
      per := { s.per with sr := b, bc := 0#3 }
      trace := s.trace ++ writeByteEvents b })

/-- The opcode byte of a wire instruction, written by the master at the start of an open window, runs that instruction (44_peripheral.md sections 1 and 2), for every legal assignment of the constants. -/
def Obligations.WrittenOpcodeRunsItsInstruction : Prop :=
  ∀ (i : Instr) (c : Byte) (s : State),
    s.params.valid = true → encode s.params i = .wire c → s.attached = .peripheral → s.pins.stb = false →
    s.pins.dir = .output → s.per.phase = .cmd → s.per.bc = 0#3 → s.per.drv = .z →
    writeByte c s = exec i { s with
      pins := { s.pins with clk := true, dio := c.getLsbD 7 }
      per := { s.per with sr := c, bc := 0#3 }
      trace := s.trace ++ writeByteEvents c }

/-- R218: a data byte in DATA_IN is stored whole at the pointer, every other register reads as before, and the pointer advances by one modulo 16 (D6). -/
def Obligations.DataByteIsStoredAtThePointer : Prop :=
  ∀ (d : Byte) (s : State),
    s.attached = .peripheral → s.pins.stb = false → s.pins.dir = .output → s.per.phase = .dataIn →
    s.per.bc = 0#3 → s.per.drv = .z → Memory.wf s.per.mem = true →
    ∃ t, writeByte d s = .next t ∧
      Memory.read t.per.mem s.per.ap.toNat = d ∧
      (∀ a, a ≠ s.per.ap.toNat → Memory.read t.per.mem a = Memory.read s.per.mem a) ∧
      t.per.ap.toNat = (s.per.ap.toNat + 1) % 16 ∧
      t = { s with
        pins := { s.pins with clk := true, dio := d.getLsbD 7 }
        per := { s.per with mem := t.per.mem, ap := t.per.ap, sr := d, bc := 0#3 }
        trace := s.trace ++ writeByteEvents d }

/-- R220, R222: in READ_OUT a falling CLK edge presents the key bit the counter points at, beyond the 32nd a free level (U9); a rising edge while the master listens advances the counter. -/
def Obligations.KeyBitsAreReadOut : Prop :=
  ∀ s : State, s.attached = .peripheral → s.pins.stb = false → s.per.phase = .readOut →
    (s.pins.clk = true → s.per.rc.toNat ≤ 31 → setClk false s = .next { s with
      pins := { s.pins with clk := false }
      per := { s.per with drv := .level (s.per.kw.getLsbD s.per.rc.toNat) }
      trace := s.trace ++ [.clk false] }) ∧
    (s.pins.clk = true → s.per.rc.toNat ≥ 32 → setClk false s = .next { s with
      pins := { s.pins with clk := false }
      per := { s.per with drv := .level (Config.freeReadOut s.draws) }
      draws := s.draws + 1
      trace := s.trace ++ [.clk false] }) ∧
    (s.pins.clk = false → s.pins.dir = .input → s.per.rc.toNat ≤ 32 → setClk true s = .next { s with
      pins := { s.pins with clk := true }
      per := { s.per with rc := BitVec.ofNat 6 (s.per.rc.toNat + 1) }
      trace := s.trace ++ [.clk true] })

/-- R211: a change of STB opens or closes a window at the peripheral, an assignment of the level it has does nothing there, and while STB is high a CLK edge changes nothing but the pin (D15). -/
def Obligations.StrobeBoundsTheWindow : Prop :=
  ∀ s : State, s.attached = .peripheral →
    (s.pins.stb = true → setStb false s = .next { s with
      pins := { s.pins with stb := false }
      per := { s.per with phase := .cmd, bc := 0#3, drv := .z }
      trace := s.trace ++ [.stb false] }) ∧
    (s.pins.stb = false → setStb true s = .next { s with
      pins := { s.pins with stb := true }
      per := { s.per with phase := .idle, drv := .z }
      trace := s.trace ++ [.stb true] }) ∧
    setStb s.pins.stb s = .next { s with trace := s.trace ++ [.stb s.pins.stb] } ∧
    (∀ v, s.pins.stb = true → setClk v s = .next { s with
      pins := { s.pins with clk := v }, trace := s.trace ++ [.clk v] })

/-- R67, D7: bits of a window that ends inside a byte are dropped: only the shift register, its counter, the phase and the drive change. -/
def Obligations.PartialByteIsDropped : Prop :=
  ∀ (vs : List Bool) (s : State),
    vs.length < 8 → s.attached = .peripheral → s.pins.stb = false → s.pins.dir = .output →
    (s.per.phase = .cmd ∨ s.per.phase = .dataIn) → s.per.bc = 0#3 → s.per.drv = .z →
    ∃ t, pinActions (vs.flatMap writeBitActions ++ [.stb true]) s = .next t ∧
      t.per = { s.per with sr := t.per.sr, bc := t.per.bc, phase := .idle, drv := .z }

/-- R221, R105 (D8): what the peripheral refuses. A reserved first byte; a rising CLK edge after a standalone instruction or after an address instruction in read mode; a byte clocked in by the master during read-out (log 17). And what stops the machine at the pins (R36, R292; log 19): the data pin driven while it is an input, and sampled while it is an output. -/
def Obligations.UncoveredInputIsRefused : Prop :=
  (∀ s : State, s.attached = .peripheral → s.pins.stb = false →
    (∀ c r, decodeWire s.params c = .error r → s.pins.dir = .output → s.per.phase = .cmd → s.per.bc = 0#3 →
      s.per.drv = .z → writeByte c s = .refused .reservedFirstByte) ∧
    (s.pins.clk = false → s.per.phase = .done → setClk true s = .refused .clockInDonePhase) ∧
    (s.per.phase = .readOut → s.pins.dir = .output → ∀ b, writeByte b s = .refused .writeDuringReadOut)) ∧
  (∀ (s : State) (v : Bool), s.pins.dir = .input → pinAction (.dio v) s = .fault .dioDrivenInInputMode) ∧
  (∀ s : State, s.pins.dir = .output → pinAction .sample s = .fault .sampledInOutputMode)

/-! ## Transport and framing, whatever hangs on the wires -/

/-- R120: `write_byte(b)` performs exactly these 24 pin actions, bit 0 first, and leaves CLK at 1 and DIO at bit 7; no other pin, no register of the master and nothing at the interface changes. It runs to completion when nothing hangs on the wires, and otherwise whenever the device accepts the byte. -/
def Obligations.WriteByteDrivesEightBits : Prop :=
  ∀ (b : Byte) (s : State), s.pins.dir = .output →
    (s.attached ≠ .peripheral → ∃ t, writeByte b s = .next t) ∧
    ∀ t, writeByte b s = .next t →
      t.trace = s.trace ++
        [.clk false, .dio (b.getLsbD 0), .clk true, .clk false, .dio (b.getLsbD 1), .clk true,
         .clk false, .dio (b.getLsbD 2), .clk true, .clk false, .dio (b.getLsbD 3), .clk true,
         .clk false, .dio (b.getLsbD 4), .clk true, .clk false, .dio (b.getLsbD 5), .clk true,
         .clk false, .dio (b.getLsbD 6), .clk true, .clk false, .dio (b.getLsbD 7), .clk true] ∧
      t.pins = { s.pins with clk := true, dio := b.getLsbD 7 } ∧
      t.master = s.master ∧ t.params = s.params ∧ t.results = s.results ∧ t.inputs = s.inputs

/-- R124: `read_byte()` performs exactly these 26 pin actions, its result holds sample k in bit k, the pin is an output again afterwards, CLK is 1, and the level DIO drives is not touched. It completes whenever the peripheral is not on the wires. -/
def Obligations.ReadByteSamplesEightBits : Prop :=
  ∀ s : State,
    (s.attached ≠ .peripheral → ∃ x, readByte s = .next x) ∧
    ∀ r t, readByte s = .next (r, t) →
      t.trace = s.trace ++
        [.dirIn, .clk false, .clk true, .sampled (r.getLsbD 0), .clk false, .clk true, .sampled (r.getLsbD 1),
         .clk false, .clk true, .sampled (r.getLsbD 2), .clk false, .clk true, .sampled (r.getLsbD 3),
         .clk false, .clk true, .sampled (r.getLsbD 4), .clk false, .clk true, .sampled (r.getLsbD 5),
         .clk false, .clk true, .sampled (r.getLsbD 6), .clk false, .clk true, .sampled (r.getLsbD 7), .dirOut] ∧
      t.pins = { s.pins with clk := true, dir := .output } ∧
      t.master = s.master ∧ t.params = s.params ∧ t.results = s.results ∧ t.inputs = s.inputs

/-- R142: `push_instruction(code)` is one window with the one byte, from the rest state to the rest state, CLK at 1 and DIO at bit 7 of the code. -/
def Obligations.PushInstructionIsOneWindow : Prop :=
  ∀ (code : Byte) (s : State), s.pins.stb = true → s.pins.dir = .output →
    (s.attached ≠ .peripheral → ∃ t, pushInstruction code s = .next t) ∧
    ∀ t, pushInstruction code s = .next t →
      t.trace = s.trace ++ [.stb false] ++ writeByteEvents code ++ [.stb true] ∧
      t.trace.length = s.trace.length + 26 ∧
      t.pins = { stb := true, clk := true, dir := .output, dio := code.getLsbD 7 } ∧
      t.master = s.master ∧ t.params = s.params ∧ t.results = s.results ∧ t.inputs = s.inputs

/-- 41_framing.md R146 and 20_memory.md R65, R71: a write transaction of up to 16 bytes stores the j-th byte at `(a + j) mod 16`, leaves every other register as it was, sets write mode and leaves the pointer after the last byte; it is two windows one after the other (R152). -/
def Obligations.WriteTransactionStoresABurst : Prop :=
  ∀ (a : Addr) (ds : List Byte) (s : State),
    s.params.valid = true → s.attached = .peripheral → s.pins.stb = true → s.pins.dir = .output →
    Memory.wf s.per.mem = true → ds ≠ [] → ds.length ≤ 16 →
    ∃ t, openWriteTransaction a ds s = .next t ∧
      (∀ j (h : j < ds.length), Memory.read t.per.mem ((a.toNat + j) % 16) = ds[j]) ∧
      (∀ b, (∀ j, j < ds.length → b ≠ (a.toNat + j) % 16) → Memory.read t.per.mem b = Memory.read s.per.mem b) ∧
      t.per.ap.toNat = (a.toNat + ds.length) % 16 ∧ t.per.mode = .write ∧ t.per.phase = .idle ∧
      t.per.dispEn = s.per.dispEn ∧ t.per.bright = s.per.bright ∧ t.per.kw = s.per.kw ∧ t.per.rc = s.per.rc ∧
      t.pins.stb = true ∧ t.pins.clk = true ∧ t.pins.dir = .output ∧
      t.trace = s.trace ++ instructionEvents (dataWriteCode s.params) ++
        windowEvents (writeByteEvents (addressCode s.params a) ++ ds.flatMap writeByteEvents) ∧
      t = { s with per := t.per, pins := t.pins, trace := t.trace }

/-- R128 (the source's property S1): on the loopback harness, a byte written and read back is the same byte, and the store is empty again. -/
def Obligations.LoopbackReproducesEveryByte : Prop :=
  ∀ (b : Byte) (s : State), s.attached = .loopback → s.pins.dir = .output → s.harness = { fifo := [], drv := .z } →
    ∃ t u, writeByte b s = .next t ∧ readByte t = .next (b, u) ∧ u.harness = { fifo := [], drv := .z } ∧
      u.pins = { s.pins with clk := true, dio := b.getLsbD 7 }

/-! ## Commands: what each one does, with the peripheral on the wires -/

/-- 42_register_api.md section 2 (R166, R168): DISPLAY_ON and DISPLAY_OFF set the mirror flag and send it with the brightness of the mirror; no display register changes. The right sides name every field that changes. -/
def Obligations.DisplayPowerCommands : Prop :=
  ∀ s : State, s.readyWithPeripheral →
    exec .displayOn s = .next (commandEffect .displayOn s) ∧
    exec .displayOff s = .next (commandEffect .displayOff s) ∧
    (commandEffect .displayOn s).per.dispEn = true ∧ (commandEffect .displayOff s).per.dispEn = false ∧
    (commandEffect .displayOn s).per.bright = s.master.brightness ∧
    (commandEffect .displayOff s).per.bright = s.master.brightness ∧
    (commandEffect .displayOn s).per.mem = s.per.mem ∧ (commandEffect .displayOff s).per.mem = s.per.mem

/-- 42_register_api.md section 2 (R170): a legal level goes to the mirror and, with the mirror flag, to the peripheral; a display that is off stays off. -/
def Obligations.SetBrightnessCommand : Prop :=
  ∀ (level : Byte) (s : State), s.readyWithPeripheral → level.toNat ≤ 7 →
    exec (.setBrightness level) s = .next (commandEffect (.setBrightness level) s) ∧
    (commandEffect (.setBrightness level) s).master.brightness.toNat = level.toNat ∧
    (commandEffect (.setBrightness level) s).per.bright.toNat = level.toNat ∧
    (commandEffect (.setBrightness level) s).per.dispEn = s.master.displayEnabled ∧
    (commandEffect (.setBrightness level) s).per.mem = s.per.mem

/-- 42_register_api.md section 1 (R160 to R163): WRITE, SET_SEGMENT_VALUE and SET_LED_STATE store their byte unmasked at the address, at `2 * position` and at `2 * position + 1`; the pointer moves past it and the mode is WRITE. -/
def Obligations.StoreCommands : Prop :=
  ∀ (x v : Byte) (s : State), s.readyWithPeripheral →
    (x.toNat ≤ 15 → exec (.write x v) s = .next ((s.afterBurst (BitVec.ofNat 4 x.toNat) [v]).ok 0#32)) ∧
    (x.toNat ≤ 7 → exec (.setSegmentValue x v) s =
      .next ((s.afterBurst (BitVec.ofNat 4 (2 * x.toNat)) [v]).ok 0#32)) ∧
    (x.toNat ≤ 7 → exec (.setLedState x v) s =
      .next ((s.afterBurst (BitVec.ofNat 4 (2 * x.toNat + 1)) [v]).ok 0#32))

/-- The frame of the storing commands: the stored byte reads back in the model's memory, every byte at another address reads as before, and the display-control latch, the mirror, the key word and the environment are as before. The address is the one the meanings compute (`addressField` of the operand, of `segmentAddress`, of `ledAddress`). -/
def Obligations.StoreCommandsTouchOneRegister : Prop :=
  ∀ (x v : Byte) (i : Instr) (a : Addr) (s t : State),
    ((i = .write x v ∧ x.toNat ≤ 15 ∧ a = addressField x) ∨
     (i = .setSegmentValue x v ∧ x.toNat ≤ 7 ∧ a = addressField (segmentAddress x)) ∨
     (i = .setLedState x v ∧ x.toNat ≤ 7 ∧ a = addressField (ledAddress x))) →
    s.readyWithPeripheral → Memory.wf s.per.mem = true → exec i s = .next t →
    Memory.read t.per.mem a.toNat = v ∧
    (∀ b, b ≠ a.toNat → Memory.read t.per.mem b = Memory.read s.per.mem b) ∧
    t.per = { s.per with mem := t.per.mem, mode := .write, ap := a + 1#4, phase := .idle, sr := v, bc := 0#3, drv := .z } ∧
    t.master = s.master ∧ t.harness = s.harness ∧ t.sw = s.sw ∧ t.draws = s.draws

/-- 42_register_api.md section 1 (R164, D5): CLEANUP clears all sixteen registers in one burst and touches neither the display-control latch nor the mirror; nothing is lit afterwards. -/
def Obligations.CleanupClearsEveryRegister : Prop :=
  ∀ s : State, s.readyWithPeripheral → Memory.wf s.per.mem = true →
    ∃ t, exec .cleanup s = .next t ∧ (∀ a, Memory.read t.per.mem a = 0#8) ∧
      t.per.dispEn = s.per.dispEn ∧ t.per.bright = s.per.bright ∧ t.per.mode = .write ∧ t.per.ap = 0#4 ∧
      t.master = s.master ∧ t.pins = { stb := true, clk := true, dir := .output, dio := false } ∧
      (∀ p, t.led p = false) ∧ (∀ p j, t.seg p j = false) ∧
      t = commandEffect .cleanup s

/-- 43_key_scan.md (R190, R192): SCAN_KEYS returns the key snapshot of 44_peripheral.md R216, leaves the pin an output and the peripheral in read mode, and changes no display register and no display-control state. -/
def Obligations.ScanKeysReturnsTheSnapshot : Prop :=
  ∀ s : State, s.readyWithPeripheral →
    exec .scanKeys s = .next ((s.afterScan s.keySnapshot).ok s.keySnapshot)

/-- 43_key_scan.md (R194; the bit order of the value is D26): DEF_PRESSED_KEYS is exactly one scan, and returns its bits 0, 8, 16, 24, 4, 12, 20, 28 as bits 0 to 7 of the value, whatever hangs on the wires. -/
def Obligations.DefPressedKeysDecodesOneScan : Prop :=
  ∀ s : State,
    (∀ t, exec .scanKeys s = .next t → ∃ (w : ScanWord) (u : State), t = u.ok w ∧ exec .defPressedKeys s = .next (u.ok (pressedKeys w))) ∧
    (∀ t, exec .defPressedKeys s = .next t → ∃ u, exec .scanKeys s = .next u) ∧
    (∀ (w : ScanWord) (i : Nat), i < 4 →
      (pressedKeys w).getLsbD i = w.getLsbD (8 * i) ∧ (pressedKeys w).getLsbD (i + 4) = w.getLsbD (8 * i + 4)) ∧
    (∀ (w : ScanWord) (i : Nat), i ≥ 8 → (pressedKeys w).getLsbD i = false)

/-- 43_key_scan.md (R194): with the peripheral on the wires DEF_PRESSED_KEYS completes and returns the decoded snapshot. -/
def Obligations.DefPressedKeysCommand : Prop :=
  ∀ s : State, s.readyWithPeripheral →
    exec .defPressedKeys s = .next ((s.afterScan s.keySnapshot).ok (pressedKeys s.keySnapshot))

/-- 10_state.md R32, R33 and 20_memory.md R63 (D9): a switch that keeps its level is seen at that level in its bit of the key word, whatever the unused bits are; and the eight booleans decoded are the switches seen. -/
def Obligations.SteadySwitchesAreSeen : Prop :=
  (∀ (s : State) (n : Nat), n < 8 → s.unstable.getLsbD n = false →
    s.keySnapshot.getLsbD (8 * (n % 4) + 4 * (n / 4)) = s.sw.getLsbD n ∧
    (pressedKeys s.keySnapshot).getLsbD n = s.sw.getLsbD n) ∧
  (∀ (sw : Byte) (unused : ScanWord), pressedKeys (keyWord sw unused) = sw.setWidth 32)

/-- 70_reset_and_hazards.md section 1 (R280): CONSTRUCT, from every power-on state of the pins and the peripheral, leaves the state of R45: display on at level 7, write mode, all sixteen registers zero, pointer 0, IDLE, STB and CLK high, the pin an output at 0. -/
def Obligations.ConstructFromAnyPowerOn : Prop :=
  ∀ s : State, s.master.constructed = false → s.params.valid = true → s.attached = .peripheral →
    Memory.wf s.per.mem = true →
    ∃ t, exec .construct s = .next t ∧
      t.master = { constructed := true, displayEnabled := true, brightness := 7#3 } ∧
      t.pins = { stb := true, clk := true, dir := .output, dio := false } ∧
      (∀ a, Memory.read t.per.mem a = 0#8) ∧
      t.per = { s.per with
        mem := t.per.mem, dispEn := true, bright := 7#3, mode := .write, ap := 0#4, phase := .idle,
        sr := 0#8, bc := 0#3, drv := .z } ∧
      t = commandEffect .construct s

/-- R282: the mirror starts at display on, max brightness, whatever hangs on the wires. -/
def Obligations.ConstructSetsTheDefaults : Prop :=
  ∀ s : State, s.master.constructed = false → s.params.valid = true →
    ∃ t, exec .construct s = .next t ∧ t.master.displayEnabled = true ∧ t.master.brightness = 7#3 ∧
      t.master.constructed = true

/-! ## Commands that are rejected or refused -/

/-- 60_exceptions.md sections 1 and 3 (R251 to R254, R260; D2, D3): an operand out of range returns its error code with value 0; no register, no pin and no trace changes. -/
def Obligations.OutOfRangeOperandsAreRejected : Prop :=
  ∀ (x v : Byte) (s : State), s.master.constructed = true →
    (x.toNat > 7 → exec (.setBrightness x) s = .next (s.err 1#8)) ∧
    (x.toNat > 7 → exec (.setSegmentValue x v) s = .next (s.err 2#8)) ∧
    (x.toNat > 7 → exec (.setLedState x v) s = .next (s.err 3#8)) ∧
    (x.toNat > 15 → exec (.write x v) s = .next (s.err 4#8))

/-- 10_state.md section 6 (R43) and 60_exceptions.md section 1 (R257; D16): before CONSTRUCT every other command is refused, and a second CONSTRUCT is refused. -/
def Obligations.CommandsNeedOneConstruct : Prop :=
  (∀ (i : Instr) (s : State), i.isWire = false → i ≠ .construct → s.master.constructed = false →
    exec i s = .refused .notConstructed) ∧
  (∀ s : State, s.master.constructed = true → exec .construct s = .refused .alreadyConstructed)

/-! ## Whole-machine rules -/

/-- R26, R27: the mirror is written by CONSTRUCT, DISPLAY_ON, DISPLAY_OFF and a legal SET_BRIGHTNESS, as `masterAfter` says, and by no other instruction, in every state. -/
def Obligations.OnlyTheseCommandsWriteTheMirror : Prop :=
  ∀ (i : Instr) (s t : State), exec i s = .next t → t.master = masterAfter i s.master

/-- R145: the display-control instruction is sent by DISPLAY_ON, DISPLAY_OFF and SET_BRIGHTNESS every time, built from the mirror as they leave it, with no comparison with the old value, and CONSTRUCT sends it after its pin actions. -/
def Obligations.DisplayControlIsAlwaysSent : Prop :=
  (∀ (i : Instr) (s : State), (i = .displayOn ∨ i = .displayOff ∨ ∃ l : Byte, l.toNat ≤ 7 ∧ i = .setBrightness l) →
    s.ready → ∃ t, exec i s = .next t ∧
      t.trace = s.trace ++ instructionEvents (displayCtrlCode s.params t.master.displayEnabled t.master.brightness)) ∧
  (∀ s : State, s.accepts .construct → ∃ t es, exec .construct s = .next t ∧
    t.trace = s.trace ++ [.stb true, .clk false, .dirOut, .dio false] ++
      instructionEvents (displayCtrlCode s.params true 7#3) ++ es)

/-- R23: the registers are written only by a data byte, so only at the rising CLK edge that completes a byte in phase DATA_IN, which is reached only from an address instruction that was the first byte of the window; the commands that cause it are WRITE, SET_SEGMENT_VALUE, SET_LED_STATE, CLEANUP and CONSTRUCT (a constructed master cannot run the last). They are read by no wire instruction (which leaves them as they are and does the same whatever they hold) and by no command: what the host and the wires show of a command does not depend on them. -/
def Obligations.DisplayRegistersAreWriteOnly : Prop :=
  (∀ (i : Instr) (s t : State), s.readyWithPeripheral → exec i s = .next t →
    (∀ x v, i ≠ .write x v) → (∀ x v, i ≠ .setSegmentValue x v) → (∀ x v, i ≠ .setLedState x v) → i ≠ .cleanup →
    t.per.mem = s.per.mem) ∧
  (∀ (i : Instr) (s : State) (m : Memory), s.accepts i → s.attached = .peripheral → i.isWire = false →
    ∃ t u, exec i s = .next t ∧ exec i (s.setPer { s.per with mem := m }) = .next u ∧ t.sameMasterSide u) ∧
  (∀ (i : Instr) (s : State) (m : Memory), i.isWire = true →
    ∃ t, exec i s = .next t ∧ t.per.mem = s.per.mem ∧
      exec i (s.setPer { s.per with mem := m }) = .next (t.setPer { t.per with mem := m })) ∧
  (∀ (a : PinAction) (s t : State), pinAction a s = .next t → t.per.mem ≠ s.per.mem →
    a = .clk true ∧ s.attached = .peripheral ∧ s.pins.stb = false ∧ s.pins.clk = false ∧
      s.per.phase = .dataIn ∧ s.per.bc = 7#3) ∧
  (∀ (a : PinAction) (s t : State), pinAction a s = .next t → t.per.phase = .dataIn → s.per.phase ≠ .dataIn →
    s.pins.stb = false ∧ s.per.phase = .cmd ∧ decodeWire t.params t.per.sr = .ok (.setAddress t.per.ap))

/-- 30_encoding.md R110: the whole wire trace of every command, whatever hangs on the wires; for a scan the word in the trace is the word returned. -/
def Obligations.EveryCommandHasItsTrace : Prop :=
  ∀ (i : Instr) (s : State), i.isWire = false → s.accepts i →
    ∃ t w, exec i s = .next t ∧ t.trace = s.trace ++ commandEvents s.params s.master w i ∧
      (i = .scanKeys → t.results = s.results ++ [{ status := 0#8, value := w }]) ∧
      (i = .defPressedKeys → t.results = s.results ++ [{ status := 0#8, value := pressedKeys w }])

/-- 00_scope.md R17, 60_exceptions.md R261 and 70_reset_and_hazards.md R304: every command runs to completion, whatever hangs on the wires, after the fixed number of pin actions and rising CLK edges of R304, and leaves the master at rest, also when it is rejected. -/
def Obligations.EveryCommandCompletes : Prop :=
  ∀ (i : Instr) (s : State), i.isWire = false → s.accepts i →
    ∃ t, exec i s = .next t ∧ t.atRest = true ∧
      t.trace.length = s.trace.length + pinActionCount i ∧
      rises s.pins.clk (t.trace.drop s.trace.length) = risingEdgeCount i

/-- 30_encoding.md R103: every command that goes on returns exactly one result; its status is 0 exactly for legal operands (R106), and the value is 0 but for the scans. -/
def Obligations.EveryCommandReturnsOneResult : Prop :=
  ∀ (i : Instr) (s t : State), i.isWire = false → exec i s = .next t →
    ∃ r, t.results = s.results ++ [r] ∧ (r.status = 0#8 ↔ i.wellFormed = true) ∧
      (i ≠ .scanKeys → i ≠ .defPressedKeys → r.value = 0#32)

/-- 00_scope.md R14: the two levels agree. The pin actions of a command, performed one a step on the wires, leave pins, peripheral, harness, free-value counter and trace exactly as the command does in one step; and the command described at the wire level, with no change of power in its course, does in every respect what the command does. -/
def Obligations.WireLevelAgreesWithCommandLevel : Prop :=
  ∀ (i : Instr) (s : State), i.isWire = false → s.accepts i →
    ∃ t u, exec i s = .next t ∧
      steps (commandActions s.params s.master i).length { s with wire := commandActions s.params s.master i } = .next u ∧
      u.wire = [] ∧ u.pins = t.pins ∧ u.per = t.per ∧ u.harness = t.harness ∧ u.draws = t.draws ∧ u.trace = t.trace ∧
      execAmid i [] s = .next t

/-- 41_framing.md R151: in the trace of every command, at most one window is open, every window holds a whole number of bytes, CLK is toggled only inside a window, and the last window is closed. R151 excepts CONSTRUCT's `CLK <- 0` before its first window; its four pin actions come first, and the rest of its trace is framed like any other. -/
def Obligations.EveryTraceIsFramed : Prop :=
  (∀ (i : Instr) (s t : State), i.isWire = false → i ≠ .construct → s.ready → exec i s = .next t →
    ∃ es v, t.trace = s.trace ++ es ∧
      WireView.run { inWindow := false, clk := s.pins.clk, edges := 0#3 } es = some v ∧
      v.inWindow = false ∧ v.clk = t.pins.clk) ∧
  (∀ s t : State, exec .construct s = .next t →
    ∃ es v, t.trace = s.trace ++ [.stb true, .clk false, .dirOut, .dio false] ++ es ∧
      WireView.run { inWindow := false, clk := false, edges := 0#3 } es = some v ∧
      v.inWindow = false ∧ v.clk = t.pins.clk)

/-- 20_memory.md R78: "a non-responsive or absent chip cannot be detected", and 70_reset_and_hazards.md R284: of a loss of power "the master cannot know". A command that reads no keys runs with the peripheral, without it and with it unpowered, and the host and the wires show the same; without power or chip the stores are lost. Every command runs to its end also when the peripheral loses its power after any number of its pin actions (log 33), with the same pin actions, and if it reads no keys the host and the wires show the same as without the loss. -/
def Obligations.AbsentChipCannotBeDetected : Prop :=
  (∀ (i : Instr) (s : State), i.isWire = false → i ≠ .scanKeys → i ≠ .defPressedKeys → s.accepts i →
    s.attached = .peripheral →
    ∃ t u v, exec i s = .next t ∧ exec i { s with attached := .nothing } = .next u ∧
      exec i { s with attached := .unpowered } = .next v ∧
      t.sameMasterSide u ∧ t.sameMasterSide v ∧ u.per = s.per ∧ v.per = s.per) ∧
  (∀ (i : Instr) (s : State) (n : Nat), i.isWire = false → s.accepts i → s.attached = .peripheral →
    ∃ t u, exec i s = .next t ∧ execAmid i [(n, .lost)] s = .next u ∧
      u.attached = .unpowered ∧ u.pins = t.pins ∧ u.master = t.master ∧
      u.trace.map PinEvent.action = t.trace.map PinEvent.action ∧
      (i ≠ .scanKeys → i ≠ .defPressedKeys → t.sameMasterSide u))

/-- 20_memory.md R78 and 43_key_scan.md R190, R194: with nothing on the wires, or with the peripheral unpowered, a read byte is 0xFF, a scan returns 0xFFFFFFFF and all eight keys. That the line then reads 1 is the model's choice (log 15, PRESUMED; D11, G3). -/
def Obligations.AbsentChipReadsAllOnes : Prop :=
  ∀ s : State, (s.attached = .nothing ∨ s.attached = .unpowered) →
    (∃ t, readByte s = .next (0xFF#8, t)) ∧
    (s.ready → ∃ t, exec .scanKeys s = .next t ∧ t.results = s.results ++ [{ status := 0#8, value := 0xFFFFFFFF#32 }] ∧
      t.per = s.per ∧ t.master = s.master) ∧
    (s.ready → ∃ t, exec .defPressedKeys s = .next t ∧ t.results = s.results ++ [{ status := 0#8, value := 0xFF#32 }] ∧
      t.per = s.per ∧ t.master = s.master)

/-- R43 and 00_scope.md R15: no step changes the parameters, takes the master away, or takes back a result or a pin action. That a step puts no device on the wires and takes none away, but for the power of the peripheral, is the model's choice (logs 21, 33), and the lists of results and pin actions and the counter of free values are its own fields (logs 24, 13). -/
def Obligations.StepsOnlyAddToWhatIsSeen : Prop :=
  ∀ s t : State, step s = .next t →
    t.params = s.params ∧
    (s.attached = .nothing ↔ t.attached = .nothing) ∧ (s.attached = .loopback ↔ t.attached = .loopback) ∧
    (s.master.constructed = true → t.master.constructed = true) ∧
    s.results <+: t.results ∧ s.trace <+: t.trace ∧ s.draws ≤ t.draws

/-! ## Invariants -/

/-- The link invariant of Safety.lean survives every step: canonical memory, the model's form (log 2), a window open exactly outside IDLE (R38, R211), P.DRV at Z outside READ_OUT (R40), data bytes only in write mode and key bits only in read mode (R216, R217). For a step in which the power of the peripheral returns, R40 and R283 leave P.DRV and the mode unspecified: there these clauses, and the canonical memory, rest on the model's choices (logs 33, 34). That the harness presents only to a listening master is log 20. -/
def Obligations.LinkInvariantIsKept : Prop :=
  ∀ s t : State, s.linkInv → step s = .next t → t.linkInv

/-- The state after power-on meets the link invariant (logs 1, 2). -/
def Obligations.LinkInvariantAtReset : Prop := State.reset.linkInv

/-- 10_state.md R44, R28 and 41_framing.md R150: between commands nothing is in flight, the master is at rest with CLK high, and its mirror agrees with the peripheral. A step keeps it so, unless the power of the peripheral comes back in it (R284, R294); every step whatever keeps all of it but the agreement of the mirror. -/
def Obligations.RestInvariantIsKept : Prop :=
  ∀ s t : State, step s = .next t →
    (s.restInv → (∀ x rest, s.inputs = x :: rest → x.bringsPowerBack = false) → t.restInv) ∧
    (s.restPins → t.restPins)

/-- The state after power-on meets the rest invariant: there is no master yet (R45), nothing is pending, and the default constants meet R92 (log 3). -/
def Obligations.RestInvariantAtReset : Prop := State.reset.restInv ∧ State.reset.master.constructed = false

/-- 70_reset_and_hazards.md R284 and R294: whatever state the peripheral is in, DISPLAY_ON or DISPLAY_OFF and then CLEANUP bring it back: the display-control latch agrees with the mirror, the mode is WRITE, and every register is 0 (in canonical form, nothing is listed). They can be issued as soon as the power is back. -/
def Obligations.PeripheralIsRestored : Prop :=
  (∀ (s : State) (on : Bool), s.readyWithPeripheral → Memory.wf s.per.mem = true →
    ∃ t u, exec (if on then .displayOn else .displayOff) s = .next t ∧ exec .cleanup t = .next u ∧
      u.master = { s.master with displayEnabled := on } ∧
      u.per = { s.per with
        mem := [], dispEn := on, bright := s.master.brightness, mode := .write, ap := 0#4, phase := .idle,
        sr := 0#8, bc := 0#3, drv := .z }) ∧
  (∀ (s : State) (p : Periph), s.ready → s.attached = .unpowered →
    (s.powerMove (.back p)).readyWithPeripheral ∧ Memory.wf (s.powerMove (.back p)).per.mem = true)

/-! ## What is seen on the display -/

/-- 42_register_api.md R161 to R163 and 44_peripheral.md R231, R232 (D14): after SET_LED_STATE the LED follows bit 0 of the state if the display is on, and after SET_SEGMENT_VALUE the segments of the digit follow the pattern; every other LED and segment is as before. -/
def Obligations.LightsFollowTheirCommands : Prop :=
  ∀ (x v : Byte) (s : State), s.readyWithPeripheral → Memory.wf s.per.mem = true → x.toNat ≤ 7 →
    (∃ t, exec (.setLedState x v) s = .next t ∧
      (∀ p : Pos, t.led p = if p.toNat = x.toNat then s.per.dispEn && v.getLsbD 0 else s.led p) ∧
      (∀ p j : Pos, t.seg p j = s.seg p j)) ∧
    (∃ t, exec (.setSegmentValue x v) s = .next t ∧
      (∀ p j : Pos, t.seg p j = if p.toNat = x.toNat then s.per.dispEn && v.getLsbD j.toNat else s.seg p j) ∧
      (∀ p : Pos, t.led p = s.led p))

/-- 44_peripheral.md R230 and 60_exceptions.md R267 (D14): DISPLAY_OFF darkens everything and keeps the registers, and the next DISPLAY_ON shows their content again, at the brightness of the mirror. -/
def Obligations.DisplayOffKeepsTheContent : Prop :=
  ∀ s : State, s.readyWithPeripheral →
    ∃ t u, exec .displayOff s = .next t ∧ exec .displayOn t = .next u ∧
      (∀ p, t.led p = false) ∧ (∀ p j, t.seg p j = false) ∧ u.per.mem = s.per.mem ∧
      (∀ p, u.led p = (Memory.read s.per.mem (2 * p.toNat + 1)).getLsbD 0) ∧
      (∀ p j, u.seg p j = (Memory.read s.per.mem (2 * p.toNat)).getLsbD j.toNat) ∧
      u.displayLevel = s.master.brightness

/-- 42_register_api.md section 2 (R168, the source's property S7): DISPLAY_OFF twice sends the identical byte both times and leaves the brightness unchanged, and the second changes nothing at the peripheral. -/
def Obligations.DisplayOffTwiceIsTheSame : Prop :=
  ∀ s : State, s.readyWithPeripheral →
    ∃ t u, exec .displayOff s = .next t ∧ exec .displayOff t = .next u ∧
      t.trace = s.trace ++ instructionEvents (displayCtrlCode s.params false s.master.brightness) ∧
      u.trace = t.trace ++ instructionEvents (displayCtrlCode s.params false s.master.brightness) ∧
      u.master = t.master ∧ t.master.brightness = s.master.brightness ∧ u.per = t.per ∧ u.pins = t.pins

/-- 43_key_scan.md R192 (the source's property S6): after a scan a store needs no mode reset; it stores as it would have without the scan. -/
def Obligations.StoreAfterScanSucceeds : Prop :=
  ∀ (x v : Byte) (s : State), s.readyWithPeripheral → x.toNat ≤ 7 →
    ∃ t u, exec .scanKeys s = .next t ∧ t.per.mode = .read ∧ t.pins.dir = .output ∧
      exec (.setSegmentValue x v) t = .next u ∧
      u.per.mem = Memory.write s.per.mem (2 * x.toNat) v ∧ u.per.mode = .write
end

