-- ==== Sys2Proof/Laws/Bits.lean ====
section
/-! SUPPORT. Bits of bytes and words: insertion into the shift register, assembly of samples into a byte, and of key bytes into the key-scan word. -/

namespace Sys2Proof.Machine

/-- Bit i after `r[k] <- v`. -/
theorem getLsbD_setBit (r : Byte) (k : BitVec 3) (v : Bool) (i : Nat) (hi : i < 8) :
    (setBit r k v).getLsbD i = if i = k.toNat then v else r.getLsbD i := by
  have hk : k.toNat < 8 := k.isLt
  unfold setBit
  simp only [BitVec.getLsbD_or, BitVec.getLsbD_and, BitVec.getLsbD_not, BitVec.shiftLeft_eq',
    BitVec.getLsbD_shiftLeft, BitVec.getLsbD_setWidth, hi, decide_true, Bool.true_and]
  by_cases h : i = k.toNat
  · subst h; simp
  · rw [if_neg h]
    by_cases hlt : i < k.toNat
    · simp [hlt]
    · have h1 : 1 ≤ i - k.toNat := by omega
      have h2 : i - k.toNat ≠ 0 := by omega
      simp [hlt, h2, BitVec.getLsbD_one, BitVec.getLsbD_ofBool]

/-- Two bytes with the same eight bits are equal. -/
theorem byte_ext {a b : Byte} (h : ∀ i, i < 8 → a.getLsbD i = b.getLsbD i) : a = b :=
  BitVec.eq_of_getLsbD_eq h

/-- The first seven bits of `write_byte` in the shift register, bit 0 first. -/
def sevenBits (r b : Byte) : Byte :=
  setBit (setBit (setBit (setBit (setBit (setBit (setBit r 0#3 (b.getLsbD 0)) 1#3 (b.getLsbD 1)) 2#3 (b.getLsbD 2))
    3#3 (b.getLsbD 3)) 4#3 (b.getLsbD 4)) 5#3 (b.getLsbD 5)) 6#3 (b.getLsbD 6)

/-- The eight bits inserted in ascending order are the byte (R213). -/
theorem setBit_sevenBits (r b : Byte) : setBit (sevenBits r b) 7#3 (b.getLsbD 7) = b := by
  apply byte_ext
  intro i hi
  unfold sevenBits
  simp only [getLsbD_setBit _ _ _ _ hi]
  have : i = 0 ∨ i = 1 ∨ i = 2 ∨ i = 3 ∨ i = 4 ∨ i = 5 ∨ i = 6 ∨ i = 7 := by omega
  rcases this with h | h | h | h | h | h | h | h <;> subst h <;> rfl

/-- Bits sampled at indices 0 to 7 and ORed into a zero byte (R124). -/
def orSamples (b : Byte) : Byte :=
  ((((((((0#8 ||| ((BitVec.ofBool (b.getLsbD 0)).setWidth 8 <<< 0)) ||| ((BitVec.ofBool (b.getLsbD 1)).setWidth 8 <<< 1))
    ||| ((BitVec.ofBool (b.getLsbD 2)).setWidth 8 <<< 2)) ||| ((BitVec.ofBool (b.getLsbD 3)).setWidth 8 <<< 3))
    ||| ((BitVec.ofBool (b.getLsbD 4)).setWidth 8 <<< 4)) ||| ((BitVec.ofBool (b.getLsbD 5)).setWidth 8 <<< 5))
    ||| ((BitVec.ofBool (b.getLsbD 6)).setWidth 8 <<< 6)) ||| ((BitVec.ofBool (b.getLsbD 7)).setWidth 8 <<< 7))

/-- R125: the result of `read_byte` equals the samples. -/
theorem orSamples_eq (b : Byte) : orSamples b = b := by
  apply byte_ext
  intro i hi
  unfold orSamples
  have : i = 0 ∨ i = 1 ∨ i = 2 ∨ i = 3 ∨ i = 4 ∨ i = 5 ∨ i = 6 ∨ i = 7 := by omega
  rcases this with h | h | h | h | h | h | h | h <;> subst h <;>
    simp

/-- The four key bytes of a word placed at offsets 0, 8, 16 and 24 are the word (R191). -/
theorem placeKeyBytes (w : ScanWord) :
    placeKeyByte (placeKeyByte (placeKeyByte (placeKeyByte 0#32 0 (keyByte w 0)) 1 (keyByte w 1)) 2 (keyByte w 2))
      3 (keyByte w 3) = w := by
  apply BitVec.eq_of_getLsbD_eq
  intro i hi
  unfold placeKeyByte keyByte
  simp only [BitVec.getLsbD_or, BitVec.getLsbD_shiftLeft, BitVec.getLsbD_setWidth, BitVec.getLsbD_extractLsb',
    BitVec.getLsbD_zero, hi, decide_true, Bool.true_and, Bool.false_or]
  have : i < 8 ∨ (8 ≤ i ∧ i < 16) ∨ (16 ≤ i ∧ i < 24) ∨ (24 ≤ i ∧ i < 32) := by omega
  rcases this with h | h | h | h
  · simp [h, show i < 16 by omega, show i < 24 by omega]; omega
  · simp [show ¬ i < 8 by omega, show i < 16 by omega, show i < 24 by omega, show i - 8 < 8 by omega,
      show i - 8 < 32 by omega, show 8 + (i - 8) = i by omega]
  · simp [show ¬ i < 8 by omega, show ¬ i < 16 by omega, show i < 24 by omega, show i - 16 < 8 by omega,
      show i - 16 < 32 by omega, show 16 + (i - 16) = i by omega, show ¬ i - 8 < 8 by omega]
  · simp [show ¬ i < 8 by omega, show ¬ i < 16 by omega, show ¬ i < 24 by omega, show i - 24 < 8 by omega,
      show i - 24 < 32 by omega, show 24 + (i - 24) = i by omega, show ¬ i - 8 < 8 by omega,
      show ¬ i - 16 < 8 by omega]

end Sys2Proof.Machine
end

