-- ==== Sys2Proof/Laws/Encoding.lean ====
section
/-! SUPPORT. The bit facts under the encodings of 30_encoding.md: operand fields lie in the clear bits of their class constants (R92), and the three bytes of a command word come apart again (R101). -/

namespace Sys2Proof

/-- The constraints of R92, one by one. -/
structure Params.Constraints (p : Params) : Prop where
  ctrl : clearLow3 p.setDisplayCtrl = p.setDisplayCtrl
  on : clearLow3 p.displayOn = p.displayOn
  off : clearLow3 p.displayOff = p.displayOff
  address : clearLow4 p.setAddress = p.setAddress
  onOff : displayClass p true ≠ displayClass p false
  onAddress : clearLow4 (displayClass p true) ≠ p.setAddress
  offAddress : clearLow4 (displayClass p false) ≠ p.setAddress
  readOn : inDC p true (dataReadCode p) = false
  readOff : inDC p false (dataReadCode p) = false
  readAddress : inAD p (dataReadCode p) = false
  writeOn : inDC p true (dataWriteCode p) = false
  writeOff : inDC p false (dataWriteCode p) = false
  writeAddress : inAD p (dataWriteCode p) = false
  readWrite : dataReadCode p ≠ dataWriteCode p

theorem Params.constraints {p : Params} (h : p.valid = true) : p.Constraints := by
  simp only [Params.valid, Bool.and_eq_true, beq_iff_eq, bne_iff_ne, Bool.not_eq_true'] at h
  obtain ⟨⟨⟨⟨⟨⟨⟨⟨⟨⟨⟨⟨⟨h1, h2⟩, h3⟩, h4⟩, h5⟩, h6⟩, h7⟩, h8⟩, h9⟩, h10⟩, h11⟩, h12⟩, h13⟩, h14⟩ := h
  exact ⟨h1, h2, h3, h4, h5, h6, h7, h8, h9, h10, h11, h12, h13, h14⟩

/-- An eight-bit fact checked bit by bit. -/
theorem byte_bits {a b : Byte} (h0 : a.getLsbD 0 = b.getLsbD 0) (h1 : a.getLsbD 1 = b.getLsbD 1)
    (h2 : a.getLsbD 2 = b.getLsbD 2) (h3 : a.getLsbD 3 = b.getLsbD 3) (h4 : a.getLsbD 4 = b.getLsbD 4)
    (h5 : a.getLsbD 5 = b.getLsbD 5) (h6 : a.getLsbD 6 = b.getLsbD 6) (h7 : a.getLsbD 7 = b.getLsbD 7) : a = b := by
  apply BitVec.eq_of_getLsbD_eq
  intro i hi
  have : i = 0 ∨ i = 1 ∨ i = 2 ∨ i = 3 ∨ i = 4 ∨ i = 5 ∨ i = 6 ∨ i = 7 := by omega
  rcases this with h | h | h | h | h | h | h | h <;> subst h <;> assumption

theorem getLsbD_clearLow3 (c : Byte) (i : Nat) : (clearLow3 c).getLsbD i = (c.getLsbD i && (0xF8#8).getLsbD i) := by
  simp [clearLow3]

theorem getLsbD_clearLow4 (c : Byte) (i : Nat) : (clearLow4 c).getLsbD i = (c.getLsbD i && (0xF0#8).getLsbD i) := by
  simp [clearLow4]

theorem clearLow3_or (a b : Byte) : clearLow3 (a ||| b) = clearLow3 a ||| clearLow3 b := by
  apply byte_bits <;> simp [clearLow3]

/-- The operand field of a display-control opcode is cleared away. -/
theorem clearLow3_field (k : Level) : clearLow3 (k.setWidth 8) = 0#8 := by
  apply byte_bits <;> simp [clearLow3]

theorem clearLow4_or (a b : Byte) : clearLow4 (a ||| b) = clearLow4 a ||| clearLow4 b := by
  apply byte_bits <;> simp [clearLow4]

theorem clearLow4_field3 (k : Level) : clearLow4 (k.setWidth 8) = 0#8 := by
  apply byte_bits <;> simp [clearLow4]

theorem clearLow4_field4 (a : Addr) : clearLow4 (a.setWidth 8) = 0#8 := by
  apply byte_bits <;> simp [clearLow4]

/-- A byte is its cleared part and its low three bits. -/
theorem clearLow3_or_field (c : Byte) : clearLow3 c ||| (c.setWidth 3).setWidth 8 = c := by
  apply byte_bits <;> simp [clearLow3]

/-- A byte is its upper nibble and its low four bits. -/
theorem clearLow4_or_field (c : Byte) : clearLow4 c ||| (c.setWidth 4).setWidth 8 = c := by
  apply byte_bits <;> simp [clearLow4]

/-- A field ORed into clear bits is read back (R97). -/
theorem field3_of_or {c : Byte} (h : clearLow3 c = c) (k : Level) : (c ||| k.setWidth 8).setWidth 3 = k := by
  apply BitVec.eq_of_getLsbD_eq
  intro i hi
  have hc : c.getLsbD i = false := by
    rw [← h, getLsbD_clearLow3]
    have : i = 0 ∨ i = 1 ∨ i = 2 := by omega
    rcases this with r | r | r <;> subst r <;> simp
  have h8 : i < 8 := by omega
  simp only [BitVec.getLsbD_setWidth, BitVec.getLsbD_or, hi, hc, h8, decide_true, Bool.true_and, Bool.false_or]

/-- A field ORed into clear bits is read back (R98). -/
theorem field4_of_or {c : Byte} (h : clearLow4 c = c) (a : Addr) : (c ||| a.setWidth 8).setWidth 4 = a := by
  apply BitVec.eq_of_getLsbD_eq
  intro i hi
  have hc : c.getLsbD i = false := by
    rw [← h, getLsbD_clearLow4]
    have : i = 0 ∨ i = 1 ∨ i = 2 ∨ i = 3 := by omega
    rcases this with r | r | r | r <;> subst r <;> simp
  have h8 : i < 8 := by omega
  simp only [BitVec.getLsbD_setWidth, BitVec.getLsbD_or, hi, hc, h8, decide_true, Bool.true_and, Bool.false_or]

/-- The display class of a legal assignment has its operand bits clear. -/
theorem Params.Constraints.class_clear {p : Params} (h : p.Constraints) (en : Bool) :
    clearLow3 (displayClass p en) = displayClass p en := by
  cases en <;> simp [displayClass, clearLow3_or, h.ctrl, h.on, h.off]

/-- The three bytes of a command word (R101). -/
theorem cmdOp_cmdWord (op a b : Byte) : cmdOp (cmdWord op a b) = op := by
  apply BitVec.eq_of_getLsbD_eq
  intro i hi
  simp only [cmdOp, cmdWord, BitVec.getLsbD_extractLsb', BitVec.getLsbD_append, hi, decide_true, Bool.true_and,
    show ¬ 16 + i < 8 by omega, show ¬ 16 + i - 8 < 8 by omega, if_false]
  congr 1; omega

theorem cmdA_cmdWord (op a b : Byte) : cmdA (cmdWord op a b) = a := by
  apply BitVec.eq_of_getLsbD_eq
  intro i hi
  simp only [cmdA, cmdWord, BitVec.getLsbD_extractLsb', BitVec.getLsbD_append, hi, decide_true, Bool.true_and,
    show ¬ 8 + i < 8 by omega, show 8 + i - 8 = i by omega, if_false, if_true]

theorem cmdB_cmdWord (op a b : Byte) : cmdB (cmdWord op a b) = b := by
  apply BitVec.eq_of_getLsbD_eq
  intro i hi
  simp only [cmdB, cmdWord, BitVec.getLsbD_extractLsb', BitVec.getLsbD_append, hi, decide_true, Bool.true_and,
    Nat.zero_add, if_true]

theorem cmdWord_fields (w : CmdWord) : cmdWord (cmdOp w) (cmdA w) (cmdB w) = w := by
  apply BitVec.eq_of_getLsbD_eq
  intro i hi
  simp only [cmdOp, cmdA, cmdB, cmdWord, BitVec.getLsbD_append, BitVec.getLsbD_extractLsb']
  have : i < 8 ∨ (8 ≤ i ∧ i < 16) ∨ (16 ≤ i ∧ i < 24) := by omega
  rcases this with h | h | h
  · simp only [h, decide_true, if_true, Bool.true_and, Nat.zero_add]
  · simp only [show ¬ i < 8 by omega, show i - 8 < 8 by omega, if_true, if_false, decide_true, Bool.true_and,
      show 8 + (i - 8) = i by omega]
  · simp only [show ¬ i < 8 by omega, show ¬ i - 8 < 8 by omega, show i - 8 - 8 < 8 by omega, if_false, decide_true,
      Bool.true_and, show 16 + (i - 8 - 8) = i by omega]

end Sys2Proof
end

