-- ==== Sys2Proof/Laws/Memory.lean ====
section
/-! SUPPORT. The laws of DISPLAY space: a read after a write, the canonical form, bringing any contents into it, and that canonical memories that read alike are equal. -/

namespace Sys2Proof.Machine

@[simp] theorem Memory.read_nil (a : Nat) : Memory.read [] a = unlistedByte := rfl

/-- A read below every listed address. -/
theorem Memory.read_below {m : Memory} {lo a : Nat} (h : Memory.wfFrom lo m = true) (ha : a < lo) :
    Memory.read m a = unlistedByte := by
  induction m generalizing lo with
  | nil => rfl
  | cons c rest ih =>
    obtain ⟨b, v⟩ := c
    simp only [Memory.wfFrom, Bool.and_eq_true, decide_eq_true_eq] at h
    obtain ⟨⟨⟨hlo, _⟩, _⟩, hrest⟩ := h
    have hne : a ≠ b := by omega
    simp only [Memory.read, hne, if_false]
    exact ih hrest (by omega)

/-- A looser bound is kept. -/
theorem Memory.wfFrom_mono {m : Memory} {lo lo' : Nat} (h : Memory.wfFrom lo m = true) (hl : lo' ≤ lo) :
    Memory.wfFrom lo' m = true := by
  cases m with
  | nil => rfl
  | cons c rest =>
    obtain ⟨b, v⟩ := c
    simp only [Memory.wfFrom, Bool.and_eq_true, decide_eq_true_eq] at h ⊢
    exact ⟨⟨⟨by omega, h.1.1.2⟩, h.1.2⟩, h.2⟩

theorem Memory.write_wfFrom {m : Memory} {lo a : Nat} {v : Byte} (h : Memory.wfFrom lo m = true)
    (hlo : lo ≤ a) (ha : a < 16) : Memory.wfFrom lo (Memory.write m a v) = true := by
  induction m generalizing lo with
  | nil =>
    unfold Memory.write
    split
    · rfl
    · simp_all [Memory.wfFrom]
  | cons c rest ih =>
    obtain ⟨b, w⟩ := c
    have h0 := h
    simp only [Memory.wfFrom, Bool.and_eq_true, decide_eq_true_eq] at h
    obtain ⟨⟨⟨h1, h2⟩, h3⟩, hrest⟩ := h
    unfold Memory.write
    split
    · rename_i hab
      split
      · exact h0
      · rename_i hv
        simp only [Memory.wfFrom, Bool.and_eq_true, decide_eq_true_eq]
        exact ⟨⟨⟨hlo, ha⟩, hv⟩, ⟨⟨⟨hab, h2⟩, h3⟩, hrest⟩⟩
    · split
      · rename_i hab
        subst hab
        split
        · exact Memory.wfFrom_mono hrest (by omega)
        · rename_i hv
          simp only [Memory.wfFrom, Bool.and_eq_true, decide_eq_true_eq]
          exact ⟨⟨⟨hlo, ha⟩, hv⟩, hrest⟩
      · simp only [Memory.wfFrom, Bool.and_eq_true, decide_eq_true_eq]
        exact ⟨⟨⟨h1, h2⟩, h3⟩, ih hrest (by omega)⟩

/-- A store of a byte at an address of DISPLAY space keeps the canonical form. -/
theorem Memory.write_wf {m : Memory} (h : Memory.wf m = true) (a : Addr) (v : Byte) :
    Memory.wf (Memory.write m a.toNat v) = true :=
  Memory.write_wfFrom h (Nat.zero_le _) (by omega)

/-- A read after a write, in canonical memory. -/
theorem Memory.read_write_from {m : Memory} {lo : Nat} (h : Memory.wfFrom lo m = true) (a a' : Nat) (v : Byte) :
    Memory.read (Memory.write m a v) a' = if a' = a then v else Memory.read m a' := by
  induction m generalizing lo with
  | nil =>
    unfold Memory.write
    by_cases hv : v = unlistedByte <;> simp [hv, Memory.read]
  | cons c rest ih =>
    obtain ⟨b, w⟩ := c
    have h0 := h
    simp only [Memory.wfFrom, Bool.and_eq_true, decide_eq_true_eq] at h
    obtain ⟨⟨⟨h1, h2⟩, h3⟩, hrest⟩ := h
    unfold Memory.write
    by_cases hab : a < b
    · rw [if_pos hab]
      by_cases hv : v = unlistedByte
      · rw [if_pos hv]
        by_cases ha' : a' = a
        · rw [if_pos ha', ha', hv]
          exact Memory.read_below (lo := b)
            (by simp only [Memory.wfFrom, Bool.and_eq_true, decide_eq_true_eq]; exact ⟨⟨⟨le_refl _, h2⟩, h3⟩, hrest⟩) hab
        · rw [if_neg ha']
      · rw [if_neg hv]; rfl
    · rw [if_neg hab]
      by_cases heq : a = b
      · subst heq
        rw [if_pos rfl]
        by_cases hv : v = unlistedByte
        · rw [if_pos hv]
          by_cases ha' : a' = a
          · rw [if_pos ha', ha', hv]; exact Memory.read_below hrest (by omega)
          · simp only [if_neg ha', Memory.read]
        · rw [if_neg hv]
          by_cases ha' : a' = a <;> simp [Memory.read, ha']
      · rw [if_neg heq]
        by_cases hb : a' = b
        · have hne : a' ≠ a := by omega
          simp [Memory.read, hb, Ne.symm heq]
        · simp only [Memory.read, if_neg hb, ih hrest]

/-- A read of the address just written. -/
theorem Memory.read_write_same {m : Memory} (h : Memory.wf m = true) (a : Nat) (v : Byte) :
    Memory.read (Memory.write m a v) a = v := by
  rw [Memory.read_write_from h, if_pos rfl]

/-- A read of any other address. -/
theorem Memory.read_write_other {m : Memory} (h : Memory.wf m = true) {a a' : Nat} (v : Byte) (hne : a' ≠ a) :
    Memory.read (Memory.write m a v) a' = Memory.read m a' := by
  rw [Memory.read_write_from h, if_neg hne]

/-- Canonical memories that read alike are equal. -/
theorem Memory.ext_from {m n : Memory} {lo : Nat} (hm : Memory.wfFrom lo m = true) (hn : Memory.wfFrom lo n = true)
    (h : ∀ a, Memory.read m a = Memory.read n a) : m = n := by
  induction m generalizing n lo with
  | nil =>
    cases n with
    | nil => rfl
    | cons c rest =>
      obtain ⟨b, v⟩ := c
      simp only [Memory.wfFrom, Bool.and_eq_true, decide_eq_true_eq] at hn
      have := h b
      simp only [Memory.read, if_pos] at this
      exact absurd this.symm hn.1.2
  | cons c rest ih =>
    obtain ⟨b, v⟩ := c
    cases n with
    | nil =>
      simp only [Memory.wfFrom, Bool.and_eq_true, decide_eq_true_eq] at hm
      have := h b
      simp only [Memory.read, if_pos] at this
      exact absurd this hm.1.2
    | cons d rest' =>
      obtain ⟨b', v'⟩ := d
      simp only [Memory.wfFrom, Bool.and_eq_true, decide_eq_true_eq] at hm hn
      obtain ⟨⟨⟨_, _⟩, hv⟩, hmr⟩ := hm
      obtain ⟨⟨⟨_, _⟩, hv'⟩, hnr⟩ := hn
      have hb : b = b' := by
        by_contra hne
        rcases Nat.lt_or_gt_of_ne hne with hlt | hgt
        · have := h b
          simp only [Memory.read, if_pos, if_neg hne, Memory.read_below hnr (Nat.lt_succ_of_lt hlt)] at this
          exact hv this
        · have := h b'
          simp only [Memory.read, if_pos, if_neg (Ne.symm hne), Memory.read_below hmr (Nat.lt_succ_of_lt hgt)] at this
          exact hv' this.symm
      subst hb
      have hvv : v = v' := by simpa [Memory.read] using h b
      subst hvv
      refine congrArg _ (ih hmr hnr fun a => ?_)
      by_cases ha : a = b
      · subst ha
        rw [Memory.read_below hmr (Nat.lt_succ_self _), Memory.read_below hnr (Nat.lt_succ_self _)]
      · have := h a
        simpa [Memory.read, ha] using this

theorem Memory.entriesFrom_wf (n a : Nat) (m : Memory) (h : a + n ≤ 16) :
    Memory.wfFrom a (Memory.entriesFrom n a m) = true := by
  induction n generalizing a with
  | zero => rfl
  | succ n ih =>
    have hrest := ih (a + 1) (by omega)
    unfold Memory.entriesFrom
    split
    · exact Memory.wfFrom_mono hrest (by omega)
    · rename_i hv
      simp only [Memory.wfFrom, Bool.and_eq_true, decide_eq_true_eq]
      exact ⟨⟨⟨le_refl _, by omega⟩, hv⟩, hrest⟩

/-- The canonical form of any contents is canonical. -/
theorem Memory.canonical_wf (m : Memory) : Memory.wf (Memory.canonical m) = true :=
  Memory.entriesFrom_wf 16 0 m (by omega)

theorem Memory.read_entriesFrom (n a : Nat) (m : Memory) (h : a + n ≤ 16) (b : Nat) :
    Memory.read (Memory.entriesFrom n a m) b = if a ≤ b ∧ b < a + n then Memory.read m b else unlistedByte := by
  induction n generalizing a with
  | zero => rw [if_neg (by omega)]; rfl
  | succ n ih =>
    have hrest := ih (a + 1) (by omega)
    unfold Memory.entriesFrom
    by_cases hb : b = a
    · subst hb
      have hin : b ≤ b ∧ b < b + (n + 1) := by omega
      by_cases hv : Memory.read m b = unlistedByte
      · rw [if_pos hv, if_pos hin, hrest, if_neg (by omega), hv]
      · rw [if_neg hv, if_pos hin]; simp [Memory.read]
    · have hcond : (a + 1 ≤ b ∧ b < a + 1 + n) ↔ (a ≤ b ∧ b < a + (n + 1)) := by omega
      split
      · rw [hrest]; simp only [hcond]
      · simp only [Memory.read, if_neg hb, hrest, hcond]

/-- The canonical form reads as the contents did. -/
theorem Memory.read_canonical (m : Memory) {a : Nat} (h : a < 16) :
    Memory.read (Memory.canonical m) a = Memory.read m a := by
  unfold Memory.canonical
  rw [Memory.read_entriesFrom 16 0 m (by omega), if_pos (by omega)]

theorem Memory.ext {m n : Memory} (hm : Memory.wf m = true) (hn : Memory.wf n = true)
    (h : ∀ a, Memory.read m a = Memory.read n a) : m = n := Memory.ext_from hm hn h

end Sys2Proof.Machine
end

