-- ==== Sys2Proof/Laws/Outcome.lean ====
section
/-! SUPPORT. Sequencing of outcomes, said once, so that no later proof splits `andThen`. -/

namespace Sys2Proof.Machine

@[simp] theorem andThen_next {α β : Type} (a : α) (f : α → Out β) :
    andThen (.next a : Out α) f = f a := rfl

@[simp] theorem andThen_fault {α β : Type} (r : Fault) (f : α → Out β) :
    andThen (.fault r : Out α) f = .fault r := rfl

@[simp] theorem andThen_refused {α β : Type} (r : Refusal) (f : α → Out β) :
    andThen (.refused r : Out α) f = .refused r := rfl

theorem andThen_assoc {α β γ : Type} (x : Out α) (f : α → Out β) (g : β → Out γ) :
    andThen (andThen x f) g = andThen x fun a => andThen (f a) g := by
  cases x <;> rfl

/-- A sequence ends in a next state exactly when both parts do. -/
theorem andThen_eq_next {α β : Type} {x : Out α} {f : α → Out β} {b : β} :
    andThen x f = .next b ↔ ∃ a, x = .next a ∧ f a = .next b := by
  cases x <;> simp

/-- What every next value of `x` has and `f` keeps, the sequence keeps. -/
theorem andThen_keeps {α β : Type} {x : Out α} {f : α → Out β} {P : α → Prop} {Q : β → Prop}
    (hx : ∀ a, x = .next a → P a) (hf : ∀ a b, P a → f a = .next b → Q b) :
    ∀ b, andThen x f = .next b → Q b := by
  intro b h
  obtain ⟨a, ha, hb⟩ := andThen_eq_next.mp h
  exact hf a b (hx a ha) hb

theorem whenConstructed_of_constructed {s : State} (h : s.master.constructed = true) (x : Out State) :
    whenConstructed s x = x := by simp [whenConstructed, h]

theorem whenConstructed_refused {s : State} (h : s.master.constructed = false) (x : Out State) :
    whenConstructed s x = .refused .notConstructed := by simp [whenConstructed, h]

/-- A command other than CONSTRUCT goes on only with a constructed master. -/
theorem whenConstructed_eq_next {s t : State} {x : Out State} :
    whenConstructed s x = .next t ↔ s.master.constructed = true ∧ x = .next t := by
  cases h : s.master.constructed <;> simp [whenConstructed, h]

theorem raiseValidation_eq_next {e : ValidationError} {s t : State} :
    raiseValidation e s = .next t ↔ t = s.giveResult { status := errorCode e, value := 0#32 } := by
  simp [raiseValidation, eq_comm]

theorem returnOk_eq_next {v : ScanWord} {s t : State} :
    returnOk v s = .next t ↔ t = s.giveResult { status := 0#8, value := v } := by
  simp [returnOk, eq_comm]

end Sys2Proof.Machine
end

