-- ==== Sys2Proof/Laws/State.lean ====
section
/-! SUPPORT. One lemma per field per update of State and of the peripheral's registers, true by definition, so that no later proof unfolds a record update. -/

namespace Sys2Proof.Machine

/-! ## setPer -/

@[simp] theorem State.setPer_params (s : State) (p : Periph) : (s.setPer p).params = s.params := rfl
@[simp] theorem State.setPer_master (s : State) (p : Periph) : (s.setPer p).master = s.master := rfl
@[simp] theorem State.setPer_pins (s : State) (p : Periph) : (s.setPer p).pins = s.pins := rfl
@[simp] theorem State.setPer_attached (s : State) (p : Periph) : (s.setPer p).attached = s.attached := rfl
@[simp] theorem State.setPer_per (s : State) (p : Periph) : (s.setPer p).per = p := rfl
@[simp] theorem State.setPer_harness (s : State) (p : Periph) : (s.setPer p).harness = s.harness := rfl
@[simp] theorem State.setPer_sw (s : State) (p : Periph) : (s.setPer p).sw = s.sw := rfl
@[simp] theorem State.setPer_unstable (s : State) (p : Periph) : (s.setPer p).unstable = s.unstable := rfl
@[simp] theorem State.setPer_draws (s : State) (p : Periph) : (s.setPer p).draws = s.draws := rfl
@[simp] theorem State.setPer_inputs (s : State) (p : Periph) : (s.setPer p).inputs = s.inputs := rfl
@[simp] theorem State.setPer_wire (s : State) (p : Periph) : (s.setPer p).wire = s.wire := rfl
@[simp] theorem State.setPer_results (s : State) (p : Periph) : (s.setPer p).results = s.results := rfl
@[simp] theorem State.setPer_trace (s : State) (p : Periph) : (s.setPer p).trace = s.trace := rfl

/-! ## setPins -/

@[simp] theorem State.setPins_params (s : State) (p : Pins) : (s.setPins p).params = s.params := rfl
@[simp] theorem State.setPins_master (s : State) (p : Pins) : (s.setPins p).master = s.master := rfl
@[simp] theorem State.setPins_pins (s : State) (p : Pins) : (s.setPins p).pins = p := rfl
@[simp] theorem State.setPins_attached (s : State) (p : Pins) : (s.setPins p).attached = s.attached := rfl
@[simp] theorem State.setPins_per (s : State) (p : Pins) : (s.setPins p).per = s.per := rfl
@[simp] theorem State.setPins_harness (s : State) (p : Pins) : (s.setPins p).harness = s.harness := rfl
@[simp] theorem State.setPins_sw (s : State) (p : Pins) : (s.setPins p).sw = s.sw := rfl
@[simp] theorem State.setPins_unstable (s : State) (p : Pins) : (s.setPins p).unstable = s.unstable := rfl
@[simp] theorem State.setPins_draws (s : State) (p : Pins) : (s.setPins p).draws = s.draws := rfl
@[simp] theorem State.setPins_inputs (s : State) (p : Pins) : (s.setPins p).inputs = s.inputs := rfl
@[simp] theorem State.setPins_wire (s : State) (p : Pins) : (s.setPins p).wire = s.wire := rfl
@[simp] theorem State.setPins_results (s : State) (p : Pins) : (s.setPins p).results = s.results := rfl
@[simp] theorem State.setPins_trace (s : State) (p : Pins) : (s.setPins p).trace = s.trace := rfl

/-! ## setHarness -/

@[simp] theorem State.setHarness_params (s : State) (h : Harness) : (s.setHarness h).params = s.params := rfl
@[simp] theorem State.setHarness_master (s : State) (h : Harness) : (s.setHarness h).master = s.master := rfl
@[simp] theorem State.setHarness_pins (s : State) (h : Harness) : (s.setHarness h).pins = s.pins := rfl
@[simp] theorem State.setHarness_attached (s : State) (h : Harness) : (s.setHarness h).attached = s.attached := rfl
@[simp] theorem State.setHarness_per (s : State) (h : Harness) : (s.setHarness h).per = s.per := rfl
@[simp] theorem State.setHarness_harness (s : State) (h : Harness) : (s.setHarness h).harness = h := rfl
@[simp] theorem State.setHarness_sw (s : State) (h : Harness) : (s.setHarness h).sw = s.sw := rfl
@[simp] theorem State.setHarness_unstable (s : State) (h : Harness) : (s.setHarness h).unstable = s.unstable := rfl
@[simp] theorem State.setHarness_draws (s : State) (h : Harness) : (s.setHarness h).draws = s.draws := rfl
@[simp] theorem State.setHarness_inputs (s : State) (h : Harness) : (s.setHarness h).inputs = s.inputs := rfl
@[simp] theorem State.setHarness_wire (s : State) (h : Harness) : (s.setHarness h).wire = s.wire := rfl
@[simp] theorem State.setHarness_results (s : State) (h : Harness) : (s.setHarness h).results = s.results := rfl
@[simp] theorem State.setHarness_trace (s : State) (h : Harness) : (s.setHarness h).trace = s.trace := rfl

/-! ## drew -/

@[simp] theorem State.drew_params (s : State) : s.drew.params = s.params := rfl
@[simp] theorem State.drew_master (s : State) : s.drew.master = s.master := rfl
@[simp] theorem State.drew_pins (s : State) : s.drew.pins = s.pins := rfl
@[simp] theorem State.drew_attached (s : State) : s.drew.attached = s.attached := rfl
@[simp] theorem State.drew_per (s : State) : s.drew.per = s.per := rfl
@[simp] theorem State.drew_harness (s : State) : s.drew.harness = s.harness := rfl
@[simp] theorem State.drew_sw (s : State) : s.drew.sw = s.sw := rfl
@[simp] theorem State.drew_unstable (s : State) : s.drew.unstable = s.unstable := rfl
@[simp] theorem State.drew_draws (s : State) : s.drew.draws = s.draws + 1 := rfl
@[simp] theorem State.drew_inputs (s : State) : s.drew.inputs = s.inputs := rfl
@[simp] theorem State.drew_wire (s : State) : s.drew.wire = s.wire := rfl
@[simp] theorem State.drew_results (s : State) : s.drew.results = s.results := rfl
@[simp] theorem State.drew_trace (s : State) : s.drew.trace = s.trace := rfl

/-! ## log -/

@[simp] theorem State.log_params (s : State) (e : PinEvent) : (s.log e).params = s.params := rfl
@[simp] theorem State.log_master (s : State) (e : PinEvent) : (s.log e).master = s.master := rfl
@[simp] theorem State.log_pins (s : State) (e : PinEvent) : (s.log e).pins = s.pins := rfl
@[simp] theorem State.log_attached (s : State) (e : PinEvent) : (s.log e).attached = s.attached := rfl
@[simp] theorem State.log_per (s : State) (e : PinEvent) : (s.log e).per = s.per := rfl
@[simp] theorem State.log_harness (s : State) (e : PinEvent) : (s.log e).harness = s.harness := rfl
@[simp] theorem State.log_sw (s : State) (e : PinEvent) : (s.log e).sw = s.sw := rfl
@[simp] theorem State.log_unstable (s : State) (e : PinEvent) : (s.log e).unstable = s.unstable := rfl
@[simp] theorem State.log_draws (s : State) (e : PinEvent) : (s.log e).draws = s.draws := rfl
@[simp] theorem State.log_inputs (s : State) (e : PinEvent) : (s.log e).inputs = s.inputs := rfl
@[simp] theorem State.log_wire (s : State) (e : PinEvent) : (s.log e).wire = s.wire := rfl
@[simp] theorem State.log_results (s : State) (e : PinEvent) : (s.log e).results = s.results := rfl
@[simp] theorem State.log_trace (s : State) (e : PinEvent) : (s.log e).trace = s.trace ++ [e] := rfl

/-! ## setConstructed -/

@[simp] theorem State.setConstructed_params (s : State) : s.setConstructed.params = s.params := rfl
@[simp] theorem State.setConstructed_master (s : State) : s.setConstructed.master = { s.master with constructed := true } := rfl
@[simp] theorem State.setConstructed_pins (s : State) : s.setConstructed.pins = s.pins := rfl
@[simp] theorem State.setConstructed_attached (s : State) : s.setConstructed.attached = s.attached := rfl
@[simp] theorem State.setConstructed_per (s : State) : s.setConstructed.per = s.per := rfl
@[simp] theorem State.setConstructed_harness (s : State) : s.setConstructed.harness = s.harness := rfl
@[simp] theorem State.setConstructed_sw (s : State) : s.setConstructed.sw = s.sw := rfl
@[simp] theorem State.setConstructed_unstable (s : State) : s.setConstructed.unstable = s.unstable := rfl
@[simp] theorem State.setConstructed_draws (s : State) : s.setConstructed.draws = s.draws := rfl
@[simp] theorem State.setConstructed_inputs (s : State) : s.setConstructed.inputs = s.inputs := rfl
@[simp] theorem State.setConstructed_wire (s : State) : s.setConstructed.wire = s.wire := rfl
@[simp] theorem State.setConstructed_results (s : State) : s.setConstructed.results = s.results := rfl
@[simp] theorem State.setConstructed_trace (s : State) : s.setConstructed.trace = s.trace := rfl

/-! ## giveResult -/

@[simp] theorem State.giveResult_params (s : State) (r : Result) : (s.giveResult r).params = s.params := rfl
@[simp] theorem State.giveResult_master (s : State) (r : Result) : (s.giveResult r).master = s.master := rfl
@[simp] theorem State.giveResult_pins (s : State) (r : Result) : (s.giveResult r).pins = s.pins := rfl
@[simp] theorem State.giveResult_attached (s : State) (r : Result) : (s.giveResult r).attached = s.attached := rfl
@[simp] theorem State.giveResult_per (s : State) (r : Result) : (s.giveResult r).per = s.per := rfl
@[simp] theorem State.giveResult_harness (s : State) (r : Result) : (s.giveResult r).harness = s.harness := rfl
@[simp] theorem State.giveResult_sw (s : State) (r : Result) : (s.giveResult r).sw = s.sw := rfl
@[simp] theorem State.giveResult_unstable (s : State) (r : Result) : (s.giveResult r).unstable = s.unstable := rfl
@[simp] theorem State.giveResult_draws (s : State) (r : Result) : (s.giveResult r).draws = s.draws := rfl
@[simp] theorem State.giveResult_inputs (s : State) (r : Result) : (s.giveResult r).inputs = s.inputs := rfl
@[simp] theorem State.giveResult_wire (s : State) (r : Result) : (s.giveResult r).wire = s.wire := rfl
@[simp] theorem State.giveResult_results (s : State) (r : Result) : (s.giveResult r).results = s.results ++ [r] := rfl
@[simp] theorem State.giveResult_trace (s : State) (r : Result) : (s.giveResult r).trace = s.trace := rfl

/-! ## setDisplayEnabled -/

@[simp] theorem State.setDisplayEnabled_params (s : State) (v : Bool) : (s.setDisplayEnabled v).params = s.params := rfl
@[simp] theorem State.setDisplayEnabled_master (s : State) (v : Bool) : (s.setDisplayEnabled v).master = { s.master with displayEnabled := v } := rfl
@[simp] theorem State.setDisplayEnabled_pins (s : State) (v : Bool) : (s.setDisplayEnabled v).pins = s.pins := rfl
@[simp] theorem State.setDisplayEnabled_attached (s : State) (v : Bool) : (s.setDisplayEnabled v).attached = s.attached := rfl
@[simp] theorem State.setDisplayEnabled_per (s : State) (v : Bool) : (s.setDisplayEnabled v).per = s.per := rfl
@[simp] theorem State.setDisplayEnabled_harness (s : State) (v : Bool) : (s.setDisplayEnabled v).harness = s.harness := rfl
@[simp] theorem State.setDisplayEnabled_sw (s : State) (v : Bool) : (s.setDisplayEnabled v).sw = s.sw := rfl
@[simp] theorem State.setDisplayEnabled_unstable (s : State) (v : Bool) : (s.setDisplayEnabled v).unstable = s.unstable := rfl
@[simp] theorem State.setDisplayEnabled_draws (s : State) (v : Bool) : (s.setDisplayEnabled v).draws = s.draws := rfl
@[simp] theorem State.setDisplayEnabled_inputs (s : State) (v : Bool) : (s.setDisplayEnabled v).inputs = s.inputs := rfl
@[simp] theorem State.setDisplayEnabled_wire (s : State) (v : Bool) : (s.setDisplayEnabled v).wire = s.wire := rfl
@[simp] theorem State.setDisplayEnabled_results (s : State) (v : Bool) : (s.setDisplayEnabled v).results = s.results := rfl
@[simp] theorem State.setDisplayEnabled_trace (s : State) (v : Bool) : (s.setDisplayEnabled v).trace = s.trace := rfl

/-! ## setBrightness -/

@[simp] theorem State.setBrightness_params (s : State) (l : Level) : (s.setBrightness l).params = s.params := rfl
@[simp] theorem State.setBrightness_master (s : State) (l : Level) : (s.setBrightness l).master = { s.master with brightness := l } := rfl
@[simp] theorem State.setBrightness_pins (s : State) (l : Level) : (s.setBrightness l).pins = s.pins := rfl
@[simp] theorem State.setBrightness_attached (s : State) (l : Level) : (s.setBrightness l).attached = s.attached := rfl
@[simp] theorem State.setBrightness_per (s : State) (l : Level) : (s.setBrightness l).per = s.per := rfl
@[simp] theorem State.setBrightness_harness (s : State) (l : Level) : (s.setBrightness l).harness = s.harness := rfl
@[simp] theorem State.setBrightness_sw (s : State) (l : Level) : (s.setBrightness l).sw = s.sw := rfl
@[simp] theorem State.setBrightness_unstable (s : State) (l : Level) : (s.setBrightness l).unstable = s.unstable := rfl
@[simp] theorem State.setBrightness_draws (s : State) (l : Level) : (s.setBrightness l).draws = s.draws := rfl
@[simp] theorem State.setBrightness_inputs (s : State) (l : Level) : (s.setBrightness l).inputs = s.inputs := rfl
@[simp] theorem State.setBrightness_wire (s : State) (l : Level) : (s.setBrightness l).wire = s.wire := rfl
@[simp] theorem State.setBrightness_results (s : State) (l : Level) : (s.setBrightness l).results = s.results := rfl
@[simp] theorem State.setBrightness_trace (s : State) (l : Level) : (s.setBrightness l).trace = s.trace := rfl

/-! ## Periph.latchDisplay -/

@[simp] theorem Periph.latchDisplay_mem (p : Periph) (en : Bool) (l : Level) : (p.latchDisplay en l).mem = p.mem := rfl
@[simp] theorem Periph.latchDisplay_dispEn (p : Periph) (en : Bool) (l : Level) : (p.latchDisplay en l).dispEn = en := rfl
@[simp] theorem Periph.latchDisplay_bright (p : Periph) (en : Bool) (l : Level) : (p.latchDisplay en l).bright = l := rfl
@[simp] theorem Periph.latchDisplay_mode (p : Periph) (en : Bool) (l : Level) : (p.latchDisplay en l).mode = p.mode := rfl
@[simp] theorem Periph.latchDisplay_ap (p : Periph) (en : Bool) (l : Level) : (p.latchDisplay en l).ap = p.ap := rfl
@[simp] theorem Periph.latchDisplay_phase (p : Periph) (en : Bool) (l : Level) : (p.latchDisplay en l).phase = p.phase := rfl
@[simp] theorem Periph.latchDisplay_sr (p : Periph) (en : Bool) (l : Level) : (p.latchDisplay en l).sr = p.sr := rfl
@[simp] theorem Periph.latchDisplay_bc (p : Periph) (en : Bool) (l : Level) : (p.latchDisplay en l).bc = p.bc := rfl
@[simp] theorem Periph.latchDisplay_rc (p : Periph) (en : Bool) (l : Level) : (p.latchDisplay en l).rc = p.rc := rfl
@[simp] theorem Periph.latchDisplay_drv (p : Periph) (en : Bool) (l : Level) : (p.latchDisplay en l).drv = p.drv := rfl
@[simp] theorem Periph.latchDisplay_kw (p : Periph) (en : Bool) (l : Level) : (p.latchDisplay en l).kw = p.kw := rfl

/-! ## Periph.setMode -/

@[simp] theorem Periph.setMode_mem (p : Periph) (m : Mode) : (p.setMode m).mem = p.mem := rfl
@[simp] theorem Periph.setMode_dispEn (p : Periph) (m : Mode) : (p.setMode m).dispEn = p.dispEn := rfl
@[simp] theorem Periph.setMode_bright (p : Periph) (m : Mode) : (p.setMode m).bright = p.bright := rfl
@[simp] theorem Periph.setMode_mode (p : Periph) (m : Mode) : (p.setMode m).mode = m := rfl
@[simp] theorem Periph.setMode_ap (p : Periph) (m : Mode) : (p.setMode m).ap = p.ap := rfl
@[simp] theorem Periph.setMode_phase (p : Periph) (m : Mode) : (p.setMode m).phase = p.phase := rfl
@[simp] theorem Periph.setMode_sr (p : Periph) (m : Mode) : (p.setMode m).sr = p.sr := rfl
@[simp] theorem Periph.setMode_bc (p : Periph) (m : Mode) : (p.setMode m).bc = p.bc := rfl
@[simp] theorem Periph.setMode_rc (p : Periph) (m : Mode) : (p.setMode m).rc = p.rc := rfl
@[simp] theorem Periph.setMode_drv (p : Periph) (m : Mode) : (p.setMode m).drv = p.drv := rfl
@[simp] theorem Periph.setMode_kw (p : Periph) (m : Mode) : (p.setMode m).kw = p.kw := rfl

/-! ## Periph.openWindow -/

@[simp] theorem Periph.openWindow_mem (p : Periph) : p.openWindow.mem = p.mem := rfl
@[simp] theorem Periph.openWindow_dispEn (p : Periph) : p.openWindow.dispEn = p.dispEn := rfl
@[simp] theorem Periph.openWindow_bright (p : Periph) : p.openWindow.bright = p.bright := rfl
@[simp] theorem Periph.openWindow_mode (p : Periph) : p.openWindow.mode = p.mode := rfl
@[simp] theorem Periph.openWindow_ap (p : Periph) : p.openWindow.ap = p.ap := rfl
@[simp] theorem Periph.openWindow_phase (p : Periph) : p.openWindow.phase = .cmd := rfl
@[simp] theorem Periph.openWindow_sr (p : Periph) : p.openWindow.sr = p.sr := rfl
@[simp] theorem Periph.openWindow_bc (p : Periph) : p.openWindow.bc = 0#3 := rfl
@[simp] theorem Periph.openWindow_rc (p : Periph) : p.openWindow.rc = p.rc := rfl
@[simp] theorem Periph.openWindow_drv (p : Periph) : p.openWindow.drv = .z := rfl
@[simp] theorem Periph.openWindow_kw (p : Periph) : p.openWindow.kw = p.kw := rfl

/-! ## Periph.closeWindow -/

@[simp] theorem Periph.closeWindow_mem (p : Periph) : p.closeWindow.mem = p.mem := rfl
@[simp] theorem Periph.closeWindow_dispEn (p : Periph) : p.closeWindow.dispEn = p.dispEn := rfl
@[simp] theorem Periph.closeWindow_bright (p : Periph) : p.closeWindow.bright = p.bright := rfl
@[simp] theorem Periph.closeWindow_mode (p : Periph) : p.closeWindow.mode = p.mode := rfl
@[simp] theorem Periph.closeWindow_ap (p : Periph) : p.closeWindow.ap = p.ap := rfl
@[simp] theorem Periph.closeWindow_phase (p : Periph) : p.closeWindow.phase = .idle := rfl
@[simp] theorem Periph.closeWindow_sr (p : Periph) : p.closeWindow.sr = p.sr := rfl
@[simp] theorem Periph.closeWindow_bc (p : Periph) : p.closeWindow.bc = p.bc := rfl
@[simp] theorem Periph.closeWindow_rc (p : Periph) : p.closeWindow.rc = p.rc := rfl
@[simp] theorem Periph.closeWindow_drv (p : Periph) : p.closeWindow.drv = .z := rfl
@[simp] theorem Periph.closeWindow_kw (p : Periph) : p.closeWindow.kw = p.kw := rfl

/-! ## Latching the line -/

@[simp] theorem State.afterLatch_params (s : State) : s.afterLatch.params = s.params := by
  unfold State.afterLatch; split <;> rfl
@[simp] theorem State.afterLatch_master (s : State) : s.afterLatch.master = s.master := by
  unfold State.afterLatch; split <;> rfl
@[simp] theorem State.afterLatch_pins (s : State) : s.afterLatch.pins = s.pins := by
  unfold State.afterLatch; split <;> rfl
@[simp] theorem State.afterLatch_attached (s : State) : s.afterLatch.attached = s.attached := by
  unfold State.afterLatch; split <;> rfl
@[simp] theorem State.afterLatch_per (s : State) : s.afterLatch.per = s.per := by
  unfold State.afterLatch; split <;> rfl
@[simp] theorem State.afterLatch_harness (s : State) : s.afterLatch.harness = s.harness := by
  unfold State.afterLatch; split <;> rfl
@[simp] theorem State.afterLatch_sw (s : State) : s.afterLatch.sw = s.sw := by
  unfold State.afterLatch; split <;> rfl
@[simp] theorem State.afterLatch_unstable (s : State) : s.afterLatch.unstable = s.unstable := by
  unfold State.afterLatch; split <;> rfl
@[simp] theorem State.afterLatch_inputs (s : State) : s.afterLatch.inputs = s.inputs := by
  unfold State.afterLatch; split <;> rfl
@[simp] theorem State.afterLatch_wire (s : State) : s.afterLatch.wire = s.wire := by
  unfold State.afterLatch; split <;> rfl
@[simp] theorem State.afterLatch_results (s : State) : s.afterLatch.results = s.results := by
  unfold State.afterLatch; split <;> rfl
@[simp] theorem State.afterLatch_trace (s : State) : s.afterLatch.trace = s.trace := by
  unfold State.afterLatch; split <;> rfl

end Sys2Proof.Machine
end

