-- ==== Sys2Proof/Laws/Link.lean ====
section
/-! SUPPORT. What one pin action can do, said once: the master's side of it whatever hangs on the wires, and that everything else is the device's. And that the link invariant survives every pin action. -/

namespace Sys2Proof.Machine

/-- Only the device on the wires and the free-value counter differ. -/
structure DeviceOnly (s t : State) : Prop where
  params : t.params = s.params
  master : t.master = s.master
  pins : t.pins = s.pins
  attached : t.attached = s.attached
  sw : t.sw = s.sw
  unstable : t.unstable = s.unstable
  inputs : t.inputs = s.inputs
  wire : t.wire = s.wire
  results : t.results = s.results
  trace : t.trace = s.trace

theorem DeviceOnly.refl (s : State) : DeviceOnly s s := ⟨rfl, rfl, rfl, rfl, rfl, rfl, rfl, rfl, rfl, rfl⟩

theorem DeviceOnly.trans {s t u : State} (h : DeviceOnly s t) (g : DeviceOnly t u) : DeviceOnly s u :=
  ⟨g.params.trans h.params, g.master.trans h.master, g.pins.trans h.pins, g.attached.trans h.attached,
   g.sw.trans h.sw, g.unstable.trans h.unstable, g.inputs.trans h.inputs, g.wire.trans h.wire,
   g.results.trans h.results, g.trace.trans h.trace⟩

theorem deviceOnly_setPer (s : State) (p : Periph) : DeviceOnly s (s.setPer p) :=
  ⟨rfl, rfl, rfl, rfl, rfl, rfl, rfl, rfl, rfl, rfl⟩

theorem deviceOnly_setHarness (s : State) (h : Harness) : DeviceOnly s (s.setHarness h) :=
  ⟨rfl, rfl, rfl, rfl, rfl, rfl, rfl, rfl, rfl, rfl⟩

theorem deviceOnly_drew (s : State) : DeviceOnly s s.drew :=
  ⟨rfl, rfl, rfl, rfl, rfl, rfl, rfl, rfl, rfl, rfl⟩

theorem deviceOnly_afterLatch (s : State) : DeviceOnly s s.afterLatch := by
  unfold State.afterLatch; split
  · exact deviceOnly_drew s
  · exact .refl s

/-- A wire instruction touches the peripheral only. -/
theorem execWire_deviceOnly {i : Instr} {s t : State} (h : execWire i s = .next t) : DeviceOnly s t := by
  cases i <;> simp [execWire, execDisplayCtrl, execDataWrite, execDataRead, execSetAddress] at h <;> subst h
  · exact deviceOnly_setPer _ _
  · exact deviceOnly_setPer _ _
  · exact (deviceOnly_setPer s _).trans (deviceOnly_drew _)
  · exact deviceOnly_setPer _ _

theorem byteComplete_deviceOnly {s t : State} (h : byteComplete s = .next t) : DeviceOnly s t := by
  unfold byteComplete at h
  split at h
  · simp at h; subst h; exact .refl s
  · unfold acceptInstruction at h
    split at h
    · exact execWire_deviceOnly h
    · simp at h
  · simp at h; subst h; exact deviceOnly_setPer _ _
  · simp at h; subst h; exact .refl s
  · simp at h; subst h; exact .refl s

theorem latchBit_deviceOnly {s t : State} (h : latchBit s = .next t) : DeviceOnly s t := by
  unfold latchBit at h
  dsimp only at h
  split at h
  · exact ((deviceOnly_afterLatch s).trans (deviceOnly_setPer _ _)).trans (byteComplete_deviceOnly h)
  · simp at h; subst h
    exact (deviceOnly_afterLatch s).trans (deviceOnly_setPer _ _)

/-- What a rising edge in phases CMD and DATA_IN can do: a bit is latched, or the data pin is an input and nothing happens. -/
theorem receiveBit_eq_next {s t : State} :
    receiveBit s = .next t ↔ (s.pins.dir = .output ∧ latchBit s = .next t) ∨ (s.pins.dir = .input ∧ s = t) := by
  unfold receiveBit
  cases s.pins.dir <;> simp

theorem receiveBit_deviceOnly {s t : State} (h : receiveBit s = .next t) : DeviceOnly s t := by
  obtain ⟨_, h⟩ | ⟨_, rfl⟩ := receiveBit_eq_next.mp h
  · exact latchBit_deviceOnly h
  · exact .refl s

theorem presentKeyBit_deviceOnly (s : State) : DeviceOnly s (presentKeyBit s) := by
  unfold presentKeyBit; split
  · exact deviceOnly_setPer _ _
  · exact (deviceOnly_setPer s _).trans (deviceOnly_drew _)

theorem periphClkFall_deviceOnly (s : State) : DeviceOnly s (periphClkFall s) := by
  unfold periphClkFall
  split
  · exact .refl s
  · split
    · exact .refl s
    · exact .refl s
    · exact .refl s
    · exact presentKeyBit_deviceOnly s
    · exact .refl s

theorem periphClkRise_deviceOnly {s t : State} (h : periphClkRise s = .next t) : DeviceOnly s t := by
  unfold periphClkRise at h
  split at h
  · simp at h; subst h; exact .refl s
  · split at h
    · simp at h; subst h; exact .refl s
    · exact receiveBit_deviceOnly h
    · exact receiveBit_deviceOnly h
    · split at h
      · simp at h
      · simp at h; subst h; exact deviceOnly_setPer _ _
    · simp at h

theorem loopRise_deviceOnly (s : State) : DeviceOnly s (loopRise s) := by
  unfold loopRise
  split
  · exact (deviceOnly_setHarness s _).trans (deviceOnly_afterLatch _)
  · exact .refl s

theorem loopFall_deviceOnly (s : State) : DeviceOnly s (loopFall s) := by
  unfold loopFall
  split
  · exact .refl s
  · split
    · exact deviceOnly_setHarness _ _
    · exact (deviceOnly_setHarness s _).trans (deviceOnly_drew _)

theorem stbEdge_deviceOnly (v : Bool) (s : State) : DeviceOnly s (stbEdge v s) := by
  unfold stbEdge
  split
  · exact .refl s
  · exact deviceOnly_setPer _ _
  · exact .refl s
  · exact .refl s

theorem clkEdge_deviceOnly {v : Bool} {s t : State} (h : clkEdge v s = .next t) : DeviceOnly s t := by
  unfold clkEdge at h
  split at h
  · simp at h; subst h; exact .refl s
  · exact periphClkRise_deviceOnly h
  · simp at h; subst h; exact periphClkFall_deviceOnly s
  · simp at h; subst h; exact .refl s
  · simp at h; subst h; exact loopRise_deviceOnly s
  · simp at h; subst h; exact loopFall_deviceOnly s

/-- What a pin action does to the pins (R12). -/
def PinAction.onPins : PinAction → Pins → Pins
  | .stb v, p => { p with stb := v }
  | .clk v, p => { p with clk := v }
  | .dio v, p => { p with dio := v }
  | .dirOut, p => { p with dir := .output }
  | .dirIn, p => { p with dir := .input }
  | .sample, p => p

/-- The master's side of one pin action, whatever hangs on the wires: the pins change as the action says, it is seen in the trace, and nothing of the master, the environment or the interface changes. -/
structure MasterSide (a : PinAction) (s t : State) : Prop where
  params : t.params = s.params
  master : t.master = s.master
  pins : t.pins = a.onPins s.pins
  attached : t.attached = s.attached
  sw : t.sw = s.sw
  unstable : t.unstable = s.unstable
  inputs : t.inputs = s.inputs
  wire : t.wire = s.wire
  results : t.results = s.results
  trace : ∃ e : PinEvent, e.action = a ∧ t.trace = s.trace ++ [e]

/-- A pin assignment that is seen, followed by what the device does. -/
theorem MasterSide.ofDevice {a : PinAction} {e : PinEvent} {s t : State} (he : e.action = a)
    (h : DeviceOnly ((s.setPins (a.onPins s.pins)).log e) t) : MasterSide a s t :=
  ⟨h.params, h.master, h.pins, h.attached, h.sw, h.unstable, h.inputs, h.wire, h.results, e, he, h.trace⟩

/-- Everything the master's side of a pin action can be. -/
theorem pinAction_masterSide {a : PinAction} {s t : State} (h : pinAction a s = .next t) : MasterSide a s t := by
  cases a with
  | stb v =>
    simp only [pinAction, setStb, Host.Outcome.next.injEq] at h
    subst h
    refine MasterSide.ofDevice (e := .stb v) rfl ?_
    split
    · exact .refl _
    · exact stbEdge_deviceOnly _ _
  | clk v =>
    simp only [pinAction, setClk] at h
    refine MasterSide.ofDevice (e := .clk v) rfl ?_
    split at h
    · simp only [Host.Outcome.next.injEq] at h; subst h; exact .refl _
    · exact clkEdge_deviceOnly h
  | dio v =>
    simp only [pinAction, setDio] at h
    split at h
    · simp only [Host.Outcome.next.injEq] at h
      subst h
      exact MasterSide.ofDevice (e := .dio v) rfl (.refl _)
    · simp at h
  | dirOut =>
    simp only [pinAction, setDirOut, Host.Outcome.next.injEq] at h
    subst h
    exact MasterSide.ofDevice (e := .dirOut) rfl ⟨rfl, rfl, rfl, rfl, rfl, rfl, rfl, rfl, rfl, rfl⟩
  | dirIn =>
    simp only [pinAction, setDirIn, Host.Outcome.next.injEq] at h
    subst h
    exact MasterSide.ofDevice (e := .dirIn) rfl ⟨rfl, rfl, rfl, rfl, rfl, rfl, rfl, rfl, rfl, rfl⟩
  | sample =>
    simp only [pinAction, sampleLine] at h
    split at h
    · simp at h
    · simp only [andThen_next, Host.Outcome.next.injEq] at h
      subst h
      exact MasterSide.ofDevice (e := .sampled s.line) rfl ⟨rfl, rfl, rfl, rfl, rfl, rfl, rfl, rfl, rfl, rfl⟩

/-- The master's side of pin actions in a row. -/
structure MasterSides (l : List PinAction) (s t : State) : Prop where
  params : t.params = s.params
  master : t.master = s.master
  pins : t.pins = l.foldl (fun p a => a.onPins p) s.pins
  attached : t.attached = s.attached
  sw : t.sw = s.sw
  unstable : t.unstable = s.unstable
  inputs : t.inputs = s.inputs
  wire : t.wire = s.wire
  results : t.results = s.results
  trace : ∃ es : List PinEvent, es.map PinEvent.action = l ∧ t.trace = s.trace ++ es

theorem pinActions_masterSides {l : List PinAction} {s t : State} (h : pinActions l s = .next t) : MasterSides l s t := by
  induction l generalizing s with
  | nil =>
    simp only [pinActions, Host.Outcome.next.injEq] at h
    subst h
    exact ⟨rfl, rfl, rfl, rfl, rfl, rfl, rfl, rfl, rfl, [], rfl, by simp⟩
  | cons a rest ih =>
    obtain ⟨u, hu, ht⟩ := andThen_eq_next.mp h
    have h1 := pinAction_masterSide hu
    have h2 := ih ht
    obtain ⟨e, he, htr⟩ := h1.trace
    obtain ⟨es, hes, hts⟩ := h2.trace
    exact ⟨h2.params.trans h1.params, h2.master.trans h1.master, by rw [h2.pins, h1.pins]; rfl,
      h2.attached.trans h1.attached, h2.sw.trans h1.sw, h2.unstable.trans h1.unstable, h2.inputs.trans h1.inputs,
      h2.wire.trans h1.wire, h2.results.trans h1.results, e :: es, by simp [he, hes], by simp [hts, htr]⟩

/-- With the peripheral not on the wires, a clock edge never stops the machine (R129). -/
theorem clkEdge_runs {s : State} (ha : s.attached ≠ .peripheral) (v : Bool) : ∃ t, clkEdge v s = .next t := by
  unfold clkEdge
  cases h : s.attached <;> cases v <;> simp_all

/-- With the peripheral not on the wires, a pin action used within its contract never stops the machine. -/
theorem pinAction_runs {s : State} (ha : s.attached ≠ .peripheral) (a : PinAction)
    (hdio : ∀ v, a = .dio v → s.pins.dir = .output) (hsample : a = .sample → s.pins.dir = .input) :
    ∃ t, pinAction a s = .next t := by
  cases a with
  | stb v => exact ⟨_, rfl⟩
  | clk v =>
    simp only [pinAction, setClk]
    split
    · exact ⟨_, rfl⟩
    · exact clkEdge_runs (by exact ha) v
  | dio v => simp [pinAction, setDio, hdio v rfl]
  | dirOut => exact ⟨_, rfl⟩
  | dirIn => exact ⟨_, rfl⟩
  | sample => simp [pinAction, sampleLine, hsample rfl]

/-- A store leaves DISPLAY space canonical (R218). -/
theorem storeDataByte_wf {s : State} (h : Memory.wf s.per.mem = true) : Memory.wf (storeDataByte s).per.mem = true :=
  Memory.write_wf h _ _

end Sys2Proof.Machine
end

