-- ==== Sys2Proof/Laws/Transport.lean ====
section
/-! SUPPORT. What `write_byte` and `read_byte` do, said once for each device on the wires: nothing attached, the peripheral receiving, the peripheral reading out. The state part way through a byte is written flat, as the start state with a few registers replaced, so that eight bits in a row stay small terms. -/

namespace Sys2Proof.Machine

theorem pinActions_append (l₁ l₂ : List PinAction) (s : State) :
    pinActions (l₁ ++ l₂) s = andThen (pinActions l₁ s) (pinActions l₂) := by
  induction l₁ generalizing s with
  | nil => rfl
  | cons a rest ih =>
    simp only [List.cons_append, pinActions, andThen_assoc]
    exact congrArg _ (funext fun t => ih t)

/-! ## The master's side of a byte -/

/-- What one bit of `write_byte` puts on the wires. -/
def writeBitEvents (v : Bool) : List PinEvent := [.clk false, .dio v, .clk true]

/-- What one bit of `read_byte` puts on the wires. -/
def readBitEvents (v : Bool) : List PinEvent := [.clk false, .clk true, .sampled v]

/-- `s` part way through `write_byte`, with nobody listening. -/
def State.driving (s : State) (clk dio : Bool) (es : List PinEvent) : State :=
  { s with pins := { s.pins with clk := clk, dio := dio }, trace := s.trace ++ es }

/-- The master's side after `write_byte(b)` (R121): CLK high, DIO at bit 7. -/
def State.wroteByte (s : State) (b : Byte) : State := s.driving true (b.getLsbD 7) (writeByteEvents b)

/-- The master's side after `read_byte()` has returned r (R125): CLK high, DIO as before, the pin an output again. -/
def State.readDone (s : State) (r : Byte) : State :=
  { s with pins := { s.pins with clk := true, dir := .output }, trace := s.trace ++ readByteEvents r
           harness := { s.harness with drv := .z } }

/-! ## Nothing attached -/

theorem writeBit_absent {s : State} (ha : s.attached = .nothing ∨ s.attached = .unpowered) (hd : s.pins.dir = .output) (clk dio v : Bool)
    (es : List PinEvent) :
    pinActions (writeBitActions v) (s.driving clk dio es) = .next (s.driving true v (es ++ writeBitEvents v)) := by
  rcases ha with ha | ha <;> cases clk <;>
    simp [pinActions, writeBitActions, writeBitEvents, pinAction, setClk, setDio, clkEdge, State.driving, State.log,
      State.setPins, ha, hd]

/-- A byte to an absent or unpowered chip is lost (R78, R235). -/
theorem writeByte_absent {s : State} (ha : s.attached = .nothing ∨ s.attached = .unpowered) (hd : s.pins.dir = .output) (b : Byte) :
    writeByte b s = .next (s.wroteByte b) := by
  have h0 : s = s.driving s.pins.clk s.pins.dio [] := by simp [State.driving]
  unfold writeByte writeByteActions
  simp only [pinActions_append]
  rw [h0]
  iterate 7 rw [writeBit_absent ha hd, andThen_next]
  rw [writeBit_absent ha hd]
  simp [State.driving, State.wroteByte, writeByteEvents, writeBitEvents, lsbFirst]

/-- `s` part way through `read_byte` with nobody driving. -/
def State.listening (s : State) (clk : Bool) (es : List PinEvent) : State :=
  { s with pins := { s.pins with clk := clk, dir := .input }, trace := s.trace ++ es }

theorem readBit_absent {s : State} (ha : s.attached = .nothing ∨ s.attached = .unpowered) (clk : Bool) (es : List PinEvent) (n k : Nat) (r : Byte) :
    readByteLoop (n + 1) k r (s.listening clk es) =
      readByteLoop n (k + 1) (r ||| ((BitVec.ofBool true).setWidth 8 <<< k)) (s.listening true (es ++ readBitEvents true)) := by
  rcases ha with ha | ha <;> cases clk <;>
    simp [readByteLoop, setClk, clkEdge, sampleLine, State.line, State.driver, pullLevel, State.listening, readBitEvents,
      State.log, State.setPins, ha]

/-- A read from an absent or unpowered chip returns 0xFF (R78, R124). -/
theorem readByte_absent {s : State} (ha : s.attached = .nothing ∨ s.attached = .unpowered) :
    readByte s = .next (0xFF#8, s.readDone 0xFF#8) := by
  have h0 : (s.setPins { s.pins with dir := .input }).log .dirIn = s.listening s.pins.clk [.dirIn] := rfl
  unfold readByte setDirIn
  rw [andThen_next, h0]
  iterate 8 rw [readBit_absent ha]
  simp [readByteLoop, setDirOut, State.listening, State.readDone, State.log, State.setPins, State.setHarness,
    readByteEvents, readBitEvents, lsbFirst]

/-! ## The peripheral receiving -/

/-- The peripheral is taking bits from the master (R213). -/
structure Receiving (s : State) : Prop where
  attached : s.attached = .peripheral
  stb : s.pins.stb = false
  dir : s.pins.dir = .output
  phase : s.per.phase = .cmd ∨ s.per.phase = .dataIn
  drv : s.per.drv = .z

/-- `s` part way through a byte the peripheral receives. -/
def State.taking (s : State) (clk dio : Bool) (sr : Byte) (bc : BitVec 3) (es : List PinEvent) : State :=
  (s.driving clk dio es).setPer { s.per with sr := sr, bc := bc }

/-- With the byte b complete in the shift register. -/
def State.tookByte (s : State) (b : Byte) : State :=
  s.taking true (b.getLsbD 7) b 0#3 (writeByteEvents b)

/-- R213, one bit before the last. -/
theorem writeBit_receiving {s : State} (h : Receiving s) (clk dio v : Bool) (sr : Byte) (bc : BitVec 3)
    (es : List PinEvent) (hb : bc ≠ 7#3) :
    pinActions (writeBitActions v) (s.taking clk dio sr bc es) =
      .next (s.taking true v (setBit sr bc v) (bc + 1#3) (es ++ writeBitEvents v)) := by
  obtain ⟨ha, hs, hd, hp, hz⟩ := h
  cases clk <;> rcases hp with hp | hp <;>
    simp [pinActions, writeBitActions, writeBitEvents, pinAction, setClk, setDio, clkEdge, periphClkFall, periphClkRise,
      receiveBit, latchBit, State.line, State.driver, State.afterLatch, State.contended, State.taking, State.driving, State.log,
      State.setPins, State.setPer, ha, hs, hd, hp, hz, hb]

/-- R213, the last bit: the byte is acted on at this edge (D18, D19). -/
theorem writeBit_completing {s : State} (h : Receiving s) (clk dio v : Bool) (sr : Byte) (es : List PinEvent) :
    pinActions (writeBitActions v) (s.taking clk dio sr 7#3 es) =
      byteComplete (s.taking true v (setBit sr 7#3 v) 0#3 (es ++ writeBitEvents v)) := by
  obtain ⟨ha, hs, hd, hp, hz⟩ := h
  have fin : ∀ x : Out State, andThen x (fun t => .next t) = x := fun x => by cases x <;> rfl
  cases clk <;> rcases hp with hp | hp <;>
    simp [pinActions, writeBitActions, writeBitEvents, pinAction, setClk, setDio, clkEdge, periphClkFall, periphClkRise,
      receiveBit, latchBit, State.line, State.driver, State.afterLatch, State.contended, State.taking, State.driving, State.log,
      State.setPins, State.setPer, ha, hs, hd, hp, hz] <;>
    exact fin _

/-- R213: eight bits received from the start of a byte are the byte the master wrote, and it is acted on. -/
theorem writeByte_receiving {s : State} (h : Receiving s) (hb : s.per.bc = 0#3) (b : Byte) :
    writeByte b s = byteComplete (s.tookByte b) := by
  have h0 : s = s.taking s.pins.clk s.pins.dio s.per.sr 0#3 [] := by
    rw [← hb]; simp [State.taking, State.driving, State.setPer]
  have hsr := setBit_sevenBits s.per.sr b
  unfold sevenBits at hsr
  unfold writeByte writeByteActions
  simp only [pinActions_append]
  conv_lhs => rw [h0]
  rw [writeBit_receiving h _ _ _ _ 0#3 _ (by decide), andThen_next,
    writeBit_receiving h _ _ _ _ (0#3 + 1#3) _ (by decide), andThen_next,
    writeBit_receiving h _ _ _ _ (0#3 + 1#3 + 1#3) _ (by decide), andThen_next,
    writeBit_receiving h _ _ _ _ (0#3 + 1#3 + 1#3 + 1#3) _ (by decide), andThen_next,
    writeBit_receiving h _ _ _ _ (0#3 + 1#3 + 1#3 + 1#3 + 1#3) _ (by decide), andThen_next,
    writeBit_receiving h _ _ _ _ (0#3 + 1#3 + 1#3 + 1#3 + 1#3 + 1#3) _ (by decide), andThen_next,
    writeBit_receiving h _ _ _ _ (0#3 + 1#3 + 1#3 + 1#3 + 1#3 + 1#3 + 1#3) _ (by decide), andThen_next,
    show (0#3 + 1#3 + 1#3 + 1#3 + 1#3 + 1#3 + 1#3 + 1#3 : BitVec 3) = 7#3 by decide, writeBit_completing h]
  simp only [BitVec.reduceAdd, hsr]
  rfl

/-! ## The peripheral reading out -/

/-- The peripheral is presenting key bits (R220). -/
structure ReadingOut (s : State) : Prop where
  attached : s.attached = .peripheral
  stb : s.pins.stb = false
  clk : s.pins.clk = true
  phase : s.per.phase = .readOut

/-- `s` part way through a byte the peripheral presents. -/
def State.giving (s : State) (drv : Drive) (rc : BitVec 6) (es : List PinEvent) : State :=
  (s.listening true es).setPer { s.per with drv := drv, rc := rc }

/-- R220: a sample returns the key bit the counter points at. -/
theorem readBit_readingOut {s : State} (h : ReadingOut s) (drv : Drive) (m : Nat) (hm : m ≤ 31) (es : List PinEvent)
    (n k : Nat) (r : Byte) :
    readByteLoop (n + 1) k r (s.giving drv (BitVec.ofNat 6 m) es) =
      readByteLoop n (k + 1) (r ||| ((BitVec.ofBool (s.per.kw.getLsbD m)).setWidth 8 <<< k))
        (s.giving (.level (s.per.kw.getLsbD m)) (BitVec.ofNat 6 (m + 1)) (es ++ readBitEvents (s.per.kw.getLsbD m))) := by
  obtain ⟨ha, hs, hc, hp⟩ := h
  have hr : (BitVec.ofNat 6 m).toNat = m := by simp only [BitVec.toNat_ofNat]; omega
  have hn : BitVec.ofNat 6 m ≠ 63#6 := by intro h; rw [h] at hr; simp at hr; omega
  have h1 : BitVec.ofNat 6 m + 1#6 = BitVec.ofNat 6 (m + 1) := by
    apply BitVec.eq_of_toNat_eq
    simp only [BitVec.toNat_add, BitVec.toNat_ofNat]; omega
  have hm' : m % 64 = m := by omega
  simp only [readByteLoop, setClk, clkEdge, periphClkFall, periphClkRise, presentKeyBit, nextReadCount, sampleLine,
    State.line, State.driver, State.giving, State.listening, readBitEvents, State.log, State.setPins, State.setPer, ha, hs,
    hp, hr, hm, hn, h1, andThen_next, if_true, if_false, Bool.true_eq_false, Bool.false_eq_true, List.append_assoc,
    List.cons_append, List.nil_append]

/-- The registers after key byte i has been read. -/
def Periph.gaveByte (p : Periph) (i : Nat) : Periph :=
  { p with drv := .level (p.kw.getLsbD (8 * i + 7)), rc := BitVec.ofNat 6 (8 * i + 8) }

/-- Bit k of key byte i. -/
theorem getLsbD_keyByte (w : ScanWord) (i k : Nat) (hk : k < 8) : (keyByte w i).getLsbD k = w.getLsbD (8 * i + k) := by
  simp [keyByte, hk]

/-- R220: the i-th `read_byte` of the window returns `K[i]`, for i in [0, 3]. -/
theorem readByte_readingOut {s : State} (h : ReadingOut s) (i : Nat) (hi : i < 4)
    (hr : s.per.rc = BitVec.ofNat 6 (8 * i)) :
    readByte s = .next (keyByte s.per.kw i,
      (s.readDone (keyByte s.per.kw i)).setPer (s.per.gaveByte i)) := by
  have h0 : (s.setPins { s.pins with dir := .input }).log .dirIn = s.giving s.per.drv (BitVec.ofNat 6 (8 * i)) [.dirIn] := by
    simp [State.giving, State.listening, State.setPins, State.log, State.setPer, ← hr, ← h.clk]
  have bits := fun k hk => getLsbD_keyByte s.per.kw i k hk
  have hor := orSamples_eq (keyByte s.per.kw i)
  have hev : readByteEvents (keyByte s.per.kw i) = .dirIn :: ([s.per.kw.getLsbD (8 * i), s.per.kw.getLsbD (8 * i + 1),
      s.per.kw.getLsbD (8 * i + 2), s.per.kw.getLsbD (8 * i + 3), s.per.kw.getLsbD (8 * i + 4), s.per.kw.getLsbD (8 * i + 5),
      s.per.kw.getLsbD (8 * i + 6), s.per.kw.getLsbD (8 * i + 7)].flatMap readBitEvents) ++ [.dirOut] := by
    simp only [readByteEvents, lsbFirst, bits 0 (by omega), bits 1 (by omega), bits 2 (by omega), bits 3 (by omega),
      bits 4 (by omega), bits 5 (by omega), bits 6 (by omega), bits 7 (by omega), Nat.add_zero]
    rfl
  simp only [orSamples, bits 0 (by omega), bits 1 (by omega), bits 2 (by omega), bits 3 (by omega), bits 4 (by omega),
    bits 5 (by omega), bits 6 (by omega), bits 7 (by omega), Nat.add_zero] at hor
  unfold readByte setDirIn
  rw [andThen_next, h0, readBit_readingOut h _ _ (by omega), readBit_readingOut h _ _ (by omega),
    readBit_readingOut h _ _ (by omega), readBit_readingOut h _ _ (by omega), readBit_readingOut h _ _ (by omega),
    readBit_readingOut h _ _ (by omega), readBit_readingOut h _ _ (by omega), readBit_readingOut h _ _ (by omega)]
  simp only [readByteLoop, andThen_next, setDirOut, Nat.add_assoc, Nat.reduceAdd]
  rw [hor]
  simp [State.giving, State.listening, State.readDone, State.log, State.setPins, State.setHarness, State.setPer,
    Periph.gaveByte, hev]

end Sys2Proof.Machine
end

