-- ==== Sys2Proof/Laws/Framing.lean ====
section
/-! SUPPORT. What a strobe window does, with the peripheral on the wires and with nothing on them: opening, the instruction byte, data bytes, key bytes, closing. -/

namespace Sys2Proof.Machine

/-! ## Opening and closing -/

/-- The window has opened (R211). -/
def State.opened (s : State) : State :=
  { s with pins := { s.pins with stb := false }, per := s.per.openWindow, trace := s.trace ++ [.stb false] }

/-- The window has closed (R211). -/
def State.closed (s : State) : State :=
  { s with pins := { s.pins with stb := true }, per := s.per.closeWindow, trace := s.trace ++ [.stb true] }

/-- STB at `v` with nobody listening. -/
def State.strobed (s : State) (v : Bool) : State :=
  { s with pins := { s.pins with stb := v }, trace := s.trace ++ [.stb v] }

theorem setStb_open {s : State} (ha : s.attached = .peripheral) (hs : s.pins.stb = true) :
    setStb false s = .next s.opened := by
  simp [setStb, stbEdge, State.opened, State.log, State.setPins, State.setPer, ha, hs]

theorem setStb_close {s : State} (ha : s.attached = .peripheral) (hs : s.pins.stb = false) :
    setStb true s = .next s.closed := by
  simp [setStb, stbEdge, State.closed, State.log, State.setPins, State.setPer, ha, hs]

theorem setStb_absent {s : State} (ha : s.attached = .nothing ∨ s.attached = .unpowered) (v : Bool) : setStb v s = .next (s.strobed v) := by
  unfold setStb stbEdge State.strobed State.log State.setPins
  rcases ha with ha | ha <;> simp [ha]

theorem receiving_opened {s : State} (ha : s.attached = .peripheral) (hd : s.pins.dir = .output) :
    Receiving s.opened := ⟨ha, rfl, hd, .inl rfl, rfl⟩

/-! ## The instruction byte -/

/-- The first byte of a window is in and about to be decoded. -/
def State.received (s : State) (c : Byte) : State := s.opened.tookByte c

/-- The first byte of a window is decoded as it stands (R212, R213). -/
theorem window_firstByte {s : State} (ha : s.attached = .peripheral) (hs : s.pins.stb = true)
    (hd : s.pins.dir = .output) (c : Byte) (rest : State → Out State) :
    window (fun s1 => andThen (writeByte c s1) rest) s =
      andThen (andThen (acceptInstruction (s.received c)) rest) (setStb true) := by
  unfold window
  rw [setStb_open ha hs, andThen_next]
  beta_reduce
  rw [writeByte_receiving (receiving_opened ha hd) rfl]
  rfl

/-- `push_instruction(code)` (R142) with the peripheral on the wires. -/
theorem pushInstruction_peripheral {s : State} (ha : s.attached = .peripheral) (hs : s.pins.stb = true)
    (hd : s.pins.dir = .output) (c : Byte) :
    pushInstruction c s = andThen (acceptInstruction (s.received c)) (setStb true) := by
  unfold pushInstruction window
  rw [setStb_open ha hs, andThen_next, writeByte_receiving (receiving_opened ha hd) rfl]
  rfl

/-- `push_instruction(code)` with nothing on the wires. -/
theorem pushInstruction_absent {s : State} (ha : s.attached = .nothing ∨ s.attached = .unpowered) (hd : s.pins.dir = .output) (c : Byte) :
    pushInstruction c s = .next (((s.strobed false).wroteByte c).strobed true) := by
  unfold pushInstruction window
  rw [setStb_absent ha, andThen_next, writeByte_absent (s := s.strobed false) ha hd, andThen_next,
    setStb_absent (s := (s.strobed false).wroteByte c) ha]

/-- A decoded byte is executed. -/
theorem acceptInstruction_ok {s : State} {i : Instr} (h : decodeWire s.params s.per.sr = .ok i) :
    acceptInstruction s = execWire i s := by
  unfold acceptInstruction; rw [h]

/-- A byte that is no instruction is refused (R221). -/
theorem acceptInstruction_error {s : State} {r : Reject} (h : decodeWire s.params s.per.sr = .error r) :
    acceptInstruction s = .refused .reservedFirstByte := by
  unfold acceptInstruction; rw [h]

/-! ## Data bytes -/

theorem Memory.burst_wf {m : Memory} (h : Memory.wf m = true) (a : Addr) (ds : List Byte) :
    Memory.wf (Memory.burst m a ds) = true := by
  induction ds generalizing m a with
  | nil => exact h
  | cons d rest ih => exact ih (Memory.write_wf h a d) (a + 1#4)

/-- The state after data bytes in phase DATA_IN. -/
def State.tookData (s : State) : List Byte → State
  | [] => s
  | d :: rest => State.tookData (storeDataByte (s.tookByte d)) rest

/-- R218: each data byte written in DATA_IN is stored, in order. -/
theorem writeBytes_dataIn {s : State} (h : Receiving s) (hp : s.per.phase = .dataIn) (hb : s.per.bc = 0#3)
    (ds : List Byte) : writeBytes ds s = .next (s.tookData ds) := by
  induction ds generalizing s with
  | nil => rfl
  | cons d rest ih =>
    have hc : byteComplete (s.tookByte d) = .next (storeDataByte (s.tookByte d)) := by
      have : (s.tookByte d).per.phase = .dataIn := hp
      unfold byteComplete; rw [this]
    simp only [writeBytes, writeByte_receiving h hb, hc, andThen_next]
    exact ih ⟨h.attached, h.stb, h.dir, .inr hp, h.drv⟩ hp rfl

/-- What the data bytes of a burst have done, register by register. -/
structure TookData (s t : State) (ds : List Byte) : Prop where
  mem : t.per.mem = Memory.burst s.per.mem s.per.ap ds
  ap : t.per.ap = s.per.ap + BitVec.ofNat 4 ds.length
  regs : t.per = { s.per with mem := t.per.mem, ap := t.per.ap, sr := t.per.sr, bc := t.per.bc }
  lastByte : t.per.sr = ds.getLastD s.per.sr
  pins : t.pins = { s.pins with clk := t.pins.clk, dio := t.pins.dio }
  clk : t.pins.clk = (s.pins.clk || !ds.isEmpty)
  dio : t.pins.dio = (ds.map fun d : Byte => d.getLsbD 7).getLastD s.pins.dio
  count : t.per.bc = if ds.isEmpty then s.per.bc else 0#3
  trace : t.trace = s.trace ++ ds.flatMap writeByteEvents
  rest : t = { s with per := t.per, pins := t.pins, trace := t.trace }

theorem tookData_spec (s : State) (ds : List Byte) : TookData s (s.tookData ds) ds := by
  induction ds generalizing s with
  | nil => constructor <;> simp [State.tookData, Memory.burst]
  | cons d rest ih =>
    have := ih (storeDataByte (s.tookByte d))
    have hlen : s.per.ap + 1#4 + BitVec.ofNat 4 rest.length = s.per.ap + BitVec.ofNat 4 (rest.length + 1) := by
      apply BitVec.eq_of_toNat_eq
      simp only [BitVec.toNat_add, BitVec.toNat_ofNat]; omega
    refine ⟨this.mem, ?_, ?_, ?_, ?_, ?_, ?_, ?_, ?_, ?_⟩
    · exact this.ap.trans hlen
    · exact this.regs
    · rw [State.tookData, this.lastByte, List.getLastD_cons]; rfl
    · exact this.pins
    · have h := this.clk
      simpa [State.tookData, storeDataByte, State.tookByte, State.taking, State.driving, State.setPer] using h
    · rw [State.tookData, this.dio, List.map_cons, List.getLastD_cons]; rfl
    · have h := this.count
      rw [State.tookData, h]; split <;> rfl
    · rw [State.tookData, this.trace, List.flatMap_cons]
      simp [storeDataByte, State.tookByte, State.taking, State.driving, State.setPer]
    · exact this.rest

/-! ## Key bytes -/

/-- The state after key byte `i` of a window, with `es` seen since the first of them. -/
def State.keyed (s : State) (i : Nat) (es : List PinEvent) : State :=
  { s with
    pins := { s.pins with clk := true, dir := .output }
    per := s.per.gaveByte i
    harness := { s.harness with drv := .z }
    trace := s.trace ++ es }

/-- The state after the four key bytes of a window (R190, R220). -/
def State.gaveKeys (s : State) : State :=
  s.keyed 3 (readByteEvents (keyByte s.per.kw 0) ++ readByteEvents (keyByte s.per.kw 1) ++
    readByteEvents (keyByte s.per.kw 2) ++ readByteEvents (keyByte s.per.kw 3))

theorem readByte_first {s : State} (h : ReadingOut s) (hr : s.per.rc = 0#6) :
    readByte s = .next (keyByte s.per.kw 0, s.keyed 0 (readByteEvents (keyByte s.per.kw 0))) := by
  rw [readByte_readingOut h 0 (by omega) hr]; rfl

theorem readByte_keyed {s : State} (h : ReadingOut s) (i : Nat) (hi : i < 3) (es : List PinEvent) :
    readByte (s.keyed i es) =
      .next (keyByte s.per.kw (i + 1), s.keyed (i + 1) (es ++ readByteEvents (keyByte s.per.kw (i + 1)))) := by
  rw [readByte_readingOut (s := s.keyed i es) ⟨h.attached, h.stb, rfl, h.phase⟩ (i + 1) (by omega) rfl]
  simp [State.keyed, State.readDone, State.setPer, Periph.gaveByte]

/-- R190, R191: the four `read_byte` calls of a scan return the key word. -/
theorem readBytes_readingOut {s : State} (h : ReadingOut s) (hr : s.per.rc = 0#6) :
    readBytes 4 0 0#32 s = .next (s.per.kw, s.gaveKeys) := by
  simp only [readBytes, readByte_first h hr, andThen_next, readByte_keyed h _ (show 0 < 3 by omega),
    readByte_keyed h _ (show 0 + 1 < 3 by omega), readByte_keyed h _ (show 0 + 1 + 1 < 3 by omega), Nat.reduceAdd,
    placeKeyBytes s.per.kw]
  rfl

/-- The four `read_byte` calls with nothing on the wires (R78). -/
theorem readBytes_absent {s : State} (ha : s.attached = .nothing ∨ s.attached = .unpowered) :
    readBytes 4 0 0#32 s =
      .next (0xFFFFFFFF#32, (((s.readDone 0xFF#8).readDone 0xFF#8).readDone 0xFF#8).readDone 0xFF#8) := by
  have hw : placeKeyByte (placeKeyByte (placeKeyByte (placeKeyByte 0#32 0 0xFF#8) 1 0xFF#8) 2 0xFF#8) 3 0xFF#8 =
      0xFFFFFFFF#32 := by decide
  simp only [readBytes]
  rw [readByte_absent ha, andThen_next, readByte_absent (s := s.readDone _) ha, andThen_next,
    readByte_absent (s := (s.readDone _).readDone _) ha, andThen_next,
    readByte_absent (s := ((s.readDone _).readDone _).readDone _) ha, andThen_next]
  simp only [Nat.reduceAdd, hw]

end Sys2Proof.Machine
end

