-- ==== Sys2Proof/Laws/Invariant.lean ====
section
/-! SUPPORT. The link invariant (Safety.lean) survives every pin action, and so every byte and every window. -/

namespace Sys2Proof.Machine

theorem linkInv_of_eq {s t : State} (h : s.linkInv) (hper : t.per = s.per) (hpins : t.pins = s.pins)
    (hat : t.attached = s.attached) (hh : t.harness = s.harness) : t.linkInv := by
  unfold State.linkInv at *
  rw [hper, hpins, hat, hh]
  exact h

/-- An instruction that completes inside an open window keeps the invariant. -/
theorem execWire_linkInv {i : Instr} {s t : State} (h : s.linkInv) (hp : s.per.phase = .cmd)
    (he : execWire i s = .next t) : t.linkInv := by
  obtain ⟨hm, hper, hh⟩ := h
  cases i <;> simp [execWire, execDisplayCtrl, execDataWrite, execDataRead, execSetAddress] at he <;> subst he <;>
    refine ⟨hm, ?_, hh⟩ <;> intro ha <;> obtain ⟨h1, h2, h3, h4⟩ := hper ha <;>
    simp_all [State.setPer, State.drew]
  cases s.per.mode <;> simp [phaseAfterAddress]

theorem byteComplete_linkInv {s t : State} (h : s.linkInv) (he : byteComplete s = .next t) : t.linkInv := by
  unfold byteComplete at he
  split at he
  · simp at he; subst he; exact h
  · rename_i hp
    unfold acceptInstruction at he
    split at he
    · exact execWire_linkInv h hp he
    · simp at he
  · rename_i hp
    simp at he; subst he
    exact ⟨storeDataByte_wf h.1, h.2.1, h.2.2⟩
  · simp at he; subst he; exact h
  · simp at he; subst he; exact h

theorem afterLatch_linkInv {s : State} (h : s.linkInv) : s.afterLatch.linkInv :=
  linkInv_of_eq h (by simp) (by simp) (by simp) (by simp)

theorem latchBit_linkInv {s t : State} (h : s.linkInv) (he : latchBit s = .next t) : t.linkInv := by
  have hl := afterLatch_linkInv h
  have hl' : ∀ sr bc, (s.afterLatch.setPer { s.per with sr := sr, bc := bc }).linkInv := by
    intro sr bc
    have hp : s.afterLatch.per = s.per := by simp
    rw [← hp]
    exact ⟨hl.1, hl.2.1, hl.2.2⟩
  unfold latchBit at he
  dsimp only at he
  split at he
  · exact byteComplete_linkInv (hl' _ _) he
  · simp at he; subst he; exact hl' _ _

theorem receiveBit_linkInv {s t : State} (h : s.linkInv) (he : receiveBit s = .next t) : t.linkInv := by
  obtain ⟨_, he⟩ | ⟨_, rfl⟩ := receiveBit_eq_next.mp he
  · exact latchBit_linkInv h he
  · exact h

theorem presentKeyBit_linkInv {s : State} (h : s.linkInv) (hp : s.per.phase = .readOut) : (presentKeyBit s).linkInv := by
  obtain ⟨hm, hper, hh⟩ := h
  unfold presentKeyBit
  split <;> refine ⟨hm, ?_, hh⟩ <;> intro ha <;> obtain ⟨h1, h2, h3, h4⟩ := hper ha <;>
    simp_all [State.setPer, State.drew]

theorem clkEdge_linkInv {v : Bool} {s t : State} (h : s.linkInv) (he : clkEdge v s = .next t) : t.linkInv := by
  unfold clkEdge at he
  split at he
  · simp at he; subst he; exact h
  · unfold periphClkRise at he
    split at he
    · simp at he; subst he; exact h
    · split at he
      · simp at he; subst he; exact h
      · exact receiveBit_linkInv h he
      · exact receiveBit_linkInv h he
      · split at he
        · simp at he
        · simp at he; subst he; exact ⟨h.1, h.2.1, h.2.2⟩
      · simp at he
  · simp at he; subst he
    unfold periphClkFall
    split
    · exact h
    · split
      · exact h
      · exact h
      · exact h
      · rename_i hp; exact presentKeyBit_linkInv h hp
      · exact h
  · simp at he; subst he; exact h
  · simp at he; subst he
    unfold loopRise
    split
    · exact afterLatch_linkInv ⟨h.1, h.2.1, h.2.2⟩
    · exact h
  · simp at he; subst he
    unfold loopFall
    split
    · exact h
    · rename_i hd
      split <;> exact ⟨h.1, h.2.1, fun hd' => by simp_all [State.setHarness, State.drew]⟩

/-- Every pin action keeps the link invariant. -/
theorem pinAction_linkInv {a : PinAction} {s t : State} (h : s.linkInv) (he : pinAction a s = .next t) : t.linkInv := by
  cases a with
  | stb v =>
    simp only [pinAction, setStb, Host.Outcome.next.injEq] at he
    subst he
    obtain ⟨hm, hper, hh⟩ := h
    by_cases hv : s.pins.stb = v
    · rw [if_pos hv]
      refine ⟨hm, ?_, hh⟩
      intro ha
      obtain ⟨h1, h2, h3, h4⟩ := hper ha
      exact ⟨by subst hv; exact h1, h2, h3, h4⟩
    · rw [if_neg hv]
      cases ha : s.attached
      · exact ⟨by simpa [stbEdge, ha] using hm, by simp [stbEdge, ha], by simpa [stbEdge, ha] using hh⟩
      · cases v <;>
          exact ⟨by simpa [stbEdge, ha] using hm, by simp [stbEdge, ha], by simpa [stbEdge, ha] using hh⟩
      · exact ⟨by simpa [stbEdge, ha] using hm, by simp [stbEdge, ha], by simpa [stbEdge, ha] using hh⟩
      · exact ⟨by simpa [stbEdge, ha] using hm, by simp [stbEdge, ha], by simpa [stbEdge, ha] using hh⟩
  | clk v =>
    simp only [pinAction, setClk] at he
    have h' : ((s.setPins { s.pins with clk := v }).log (.clk v)).linkInv := ⟨h.1, h.2.1, h.2.2⟩
    split at he
    · simp at he; subst he; exact h'
    · exact clkEdge_linkInv h' he
  | dio v =>
    simp only [pinAction, setDio] at he
    split at he
    · simp at he; subst he; exact ⟨h.1, h.2.1, h.2.2⟩
    · simp at he
  | dirOut =>
    simp only [pinAction, setDirOut, Host.Outcome.next.injEq] at he
    subst he
    exact ⟨h.1, h.2.1, fun _ => rfl⟩
  | dirIn =>
    simp only [pinAction, setDirIn, Host.Outcome.next.injEq] at he
    subst he
    exact ⟨h.1, h.2.1, fun hd => by simp [State.setPins, State.log] at hd⟩
  | sample =>
    simp only [pinAction, sampleLine] at he
    split at he
    · simp at he
    · simp only [andThen_next, Host.Outcome.next.injEq] at he
      subst he
      exact ⟨h.1, h.2.1, h.2.2⟩

theorem pinActions_linkInv {l : List PinAction} {s t : State} (h : s.linkInv) (he : pinActions l s = .next t) :
    t.linkInv := by
  induction l generalizing s with
  | nil => simp only [pinActions, Host.Outcome.next.injEq] at he; subst he; exact h
  | cons a rest ih =>
    obtain ⟨u, hu, ht⟩ := andThen_eq_next.mp he
    exact ih (pinAction_linkInv h hu) ht

theorem writeBytes_linkInv {ds : List Byte} {s t : State} (h : s.linkInv) (he : writeBytes ds s = .next t) :
    t.linkInv := by
  induction ds generalizing s with
  | nil => simp only [writeBytes, Host.Outcome.next.injEq] at he; subst he; exact h
  | cons d rest ih =>
    obtain ⟨u, hu, ht⟩ := andThen_eq_next.mp he
    exact ih (pinActions_linkInv h hu) ht

theorem readByteLoop_linkInv {n k : Nat} {r : Byte} {s : State} {x : Byte × State} (h : s.linkInv)
    (he : readByteLoop n k r s = .next x) : x.2.linkInv := by
  induction n generalizing s k r with
  | zero => simp only [readByteLoop, Host.Outcome.next.injEq] at he; subst he; exact h
  | succ n ih =>
    obtain ⟨u, hu, h1⟩ := andThen_eq_next.mp he
    obtain ⟨v, hv, h2⟩ := andThen_eq_next.mp h1
    obtain ⟨w, hw, h3⟩ := andThen_eq_next.mp h2
    have hv' := pinAction_linkInv (a := .clk true) (pinAction_linkInv (a := .clk false) h hu) hv
    have hw' := pinAction_linkInv (a := .sample) (s := v) (t := w.2) hv' (by simp [pinAction, hw])
    exact ih hw' h3

theorem readByte_linkInv {s : State} {x : Byte × State} (h : s.linkInv) (he : readByte s = .next x) : x.2.linkInv := by
  obtain ⟨u, hu, h1⟩ := andThen_eq_next.mp he
  obtain ⟨v, hv, h2⟩ := andThen_eq_next.mp h1
  obtain ⟨w, hw, h3⟩ := andThen_eq_next.mp h2
  simp only [Host.Outcome.next.injEq] at h3
  subst h3
  exact pinAction_linkInv (a := .dirOut) (readByteLoop_linkInv (pinAction_linkInv (a := .dirIn) h hu) hv) hw

theorem readBytes_linkInv {n i : Nat} {w : ScanWord} {s : State} {x : ScanWord × State} (h : s.linkInv)
    (he : readBytes n i w s = .next x) : x.2.linkInv := by
  induction n generalizing s i w with
  | zero => simp only [readBytes, Host.Outcome.next.injEq] at he; subst he; exact h
  | succ n ih =>
    obtain ⟨u, hu, h1⟩ := andThen_eq_next.mp he
    exact ih (readByte_linkInv h hu) h1

theorem window_linkInv {body : State → Out State} {s t : State}
    (hb : ∀ s t, s.linkInv → body s = .next t → t.linkInv) (h : s.linkInv) (he : window body s = .next t) :
    t.linkInv := by
  obtain ⟨u, hu, h1⟩ := andThen_eq_next.mp he
  obtain ⟨v, hv, h2⟩ := andThen_eq_next.mp h1
  exact pinAction_linkInv (a := .stb true) (hb _ _ (pinAction_linkInv (a := .stb false) h hu) hv) h2

theorem pushInstruction_linkInv {c : Byte} {s t : State} (h : s.linkInv) (he : pushInstruction c s = .next t) :
    t.linkInv := window_linkInv (fun _ _ hs hw => pinActions_linkInv hs hw) h he

theorem openWriteTransaction_linkInv {a : Addr} {ds : List Byte} {s t : State} (h : s.linkInv)
    (he : openWriteTransaction a ds s = .next t) : t.linkInv := by
  obtain ⟨u, hu, h1⟩ := andThen_eq_next.mp he
  exact window_linkInv (fun _ _ hs hw => writeBytes_linkInv hs hw) (pushInstruction_linkInv h hu) h1

theorem readTransaction_linkInv {s : State} {x : ScanWord × State} (h : s.linkInv)
    (he : readTransaction s = .next x) : x.2.linkInv := by
  obtain ⟨u, hu, h1⟩ := andThen_eq_next.mp he
  obtain ⟨v, hv, h2⟩ := andThen_eq_next.mp h1
  obtain ⟨w, hw, h3⟩ := andThen_eq_next.mp h2
  obtain ⟨x', hx', h4⟩ := andThen_eq_next.mp h3
  simp only [Host.Outcome.next.injEq] at h4
  subst h4
  exact pinAction_linkInv (a := .stb true)
    (readBytes_linkInv (pinActions_linkInv (pinAction_linkInv (a := .stb false) h hu) hv) hw) hx'

end Sys2Proof.Machine
end

