-- ==== Sys2Proof/Laws/PerInstr.lean ====
section
/-! SUPPORT. Facts about every instruction as syntax, one lemma per constructor (LAWS.json). FormatWidth: a wire instruction is one byte and a command one 24-bit word (30_encoding.md R104). -/

namespace Sys2Proof.Laws

namespace FormatWidth

/-- The width of an instruction's encoding, under every assignment of the opcode constants. -/
def Statement (i : Instr) : Prop :=
  ∀ p : Params, (encode p i).tableWord.1 = if i.isWire then 8 else 24

theorem displayCtrl (en : Bool) (bright : Level) : Statement (.displayCtrl en bright) := fun _ => rfl
theorem dataWrite : Statement .dataWrite := fun _ => rfl
theorem dataRead : Statement .dataRead := fun _ => rfl
theorem setAddress (addr : Addr) : Statement (.setAddress addr) := fun _ => rfl
theorem construct : Statement .construct := fun _ => rfl
theorem displayOn : Statement .displayOn := fun _ => rfl
theorem displayOff : Statement .displayOff := fun _ => rfl
theorem setBrightness (level : Byte) : Statement (.setBrightness level) := fun _ => rfl
theorem setSegmentValue (position pattern : Byte) : Statement (.setSegmentValue position pattern) := fun _ => rfl
theorem setLedState (position state : Byte) : Statement (.setLedState position state) := fun _ => rfl
theorem scanKeys : Statement .scanKeys := fun _ => rfl
theorem defPressedKeys : Statement .defPressedKeys := fun _ => rfl
theorem cleanup : Statement .cleanup := fun _ => rfl
theorem write (address byte : Byte) : Statement (.write address byte) := fun _ => rfl

end FormatWidth

end Sys2Proof.Laws
end

