-- ==== Sys2Proof/Laws/Power.lean ====
section
/-! SUPPORT. What a change of the peripheral's power can do, and pin actions with such changes in between: the master's side, and the link invariant. -/

namespace Sys2Proof.Machine

/-! ## powerMove -/

@[simp] theorem State.powerMove_params (m : PowerMove) (s : State) : (s.powerMove m).params = s.params := by
  unfold State.powerMove; split <;> rfl
@[simp] theorem State.powerMove_master (m : PowerMove) (s : State) : (s.powerMove m).master = s.master := by
  unfold State.powerMove; split <;> rfl
@[simp] theorem State.powerMove_pins (m : PowerMove) (s : State) : (s.powerMove m).pins = s.pins := by
  unfold State.powerMove; split <;> rfl
@[simp] theorem State.powerMove_harness (m : PowerMove) (s : State) : (s.powerMove m).harness = s.harness := by
  unfold State.powerMove; split <;> rfl
@[simp] theorem State.powerMove_sw (m : PowerMove) (s : State) : (s.powerMove m).sw = s.sw := by
  unfold State.powerMove; split <;> rfl
@[simp] theorem State.powerMove_unstable (m : PowerMove) (s : State) : (s.powerMove m).unstable = s.unstable := by
  unfold State.powerMove; split <;> rfl
@[simp] theorem State.powerMove_draws (m : PowerMove) (s : State) : (s.powerMove m).draws = s.draws := by
  unfold State.powerMove; split <;> rfl
@[simp] theorem State.powerMove_inputs (m : PowerMove) (s : State) : (s.powerMove m).inputs = s.inputs := by
  unfold State.powerMove; split <;> rfl
@[simp] theorem State.powerMove_wire (m : PowerMove) (s : State) : (s.powerMove m).wire = s.wire := by
  unfold State.powerMove; split <;> rfl
@[simp] theorem State.powerMove_results (m : PowerMove) (s : State) : (s.powerMove m).results = s.results := by
  unfold State.powerMove; split <;> rfl
@[simp] theorem State.powerMove_trace (m : PowerMove) (s : State) : (s.powerMove m).trace = s.trace := by
  unfold State.powerMove; split <;> rfl

/-- Power moves nothing but the peripheral: a wire with no peripheral, or with the harness, stays so. -/
abbrev Attached.sameDevice (a b : Attached) : Prop :=
  (a = .nothing ↔ b = .nothing) ∧ (a = .loopback ↔ b = .loopback)

theorem State.powerMove_attached (m : PowerMove) (s : State) : Attached.sameDevice s.attached (s.powerMove m).attached := by
  unfold State.powerMove; split <;> rename_i h <;> simp [h, Attached.sameDevice]

theorem State.powerMove_lost_attached (s : State) : (s.powerMove .lost).attached ≠ .peripheral := by
  cases h : s.attached <;> simp [State.powerMove, h]

/-! ## poweredUp -/

theorem Periph.poweredUp_wf (p : Periph) (stb : Bool) : Memory.wf (p.poweredUp stb).mem = true := Memory.canonical_wf _

theorem Periph.poweredUp_idle (p : Periph) (stb : Bool) : stb = true ↔ (p.poweredUp stb).phase = .idle := by
  cases stb <;> cases h : p.phase <;> simp [Periph.poweredUp, Phase.inOpenWindow, h]

theorem Periph.poweredUp_drv (p : Periph) (stb : Bool) (h : (p.poweredUp stb).phase ≠ .readOut) :
    (p.poweredUp stb).drv = .z := by
  simp only [Periph.poweredUp] at h ⊢; exact if_neg h

theorem Periph.poweredUp_mode_write (p : Periph) (stb : Bool) (h : (p.poweredUp stb).phase = .dataIn) :
    (p.poweredUp stb).mode = .write := by
  simp only [Periph.poweredUp] at h ⊢; rw [h]; rfl

theorem Periph.poweredUp_mode_read (p : Periph) (stb : Bool) (h : (p.poweredUp stb).phase = .readOut) :
    (p.poweredUp stb).mode = .read := by
  simp only [Periph.poweredUp] at h ⊢; rw [h]; rfl

/-- A change of power keeps the link invariant. -/
theorem State.powerMove_linkInv {s : State} (h : s.linkInv) (m : PowerMove) : (s.powerMove m).linkInv := by
  have back : ∀ (p : Periph) (a : Attached),
      ({ s with attached := a, per := p.poweredUp s.pins.stb } : State).linkInv := fun p a =>
    ⟨p.poweredUp_wf _, fun _ => ⟨p.poweredUp_idle _, p.poweredUp_drv _, p.poweredUp_mode_write _, p.poweredUp_mode_read _⟩, h.2.2⟩
  unfold State.powerMove
  split
  · exact h
  · exact h
  · exact ⟨h.1, fun ha => by simp at ha, h.2.2⟩
  · exact h
  · exact back _ _
  · exact back _ _

/-! ## pinActionsAmid -/

theorem pinActionsAmid_linkInv {moves : List (Nat × PowerMove)} {l : List PinAction} {s t : State} (h : s.linkInv)
    (he : pinActionsAmid moves l s = .next t) : t.linkInv := by
  induction moves generalizing l s with
  | nil => exact pinActions_linkInv h he
  | cons x rest ih =>
    obtain ⟨u, hu, ht⟩ := andThen_eq_next.mp he
    exact ih (State.powerMove_linkInv (pinActions_linkInv h hu) x.2) ht

/-- The master's side of pin actions with changes of power in between: that of the pin actions alone, but for what hangs on the wires. -/
structure MasterSidesAmid (l : List PinAction) (s t : State) : Prop where
  params : t.params = s.params
  master : t.master = s.master
  pins : t.pins = l.foldl (fun p a => a.onPins p) s.pins
  attached : Attached.sameDevice s.attached t.attached
  sw : t.sw = s.sw
  unstable : t.unstable = s.unstable
  inputs : t.inputs = s.inputs
  wire : t.wire = s.wire
  results : t.results = s.results
  trace : ∃ es : List PinEvent, es.map PinEvent.action = l ∧ t.trace = s.trace ++ es

theorem MasterSides.amid {l : List PinAction} {s t : State} (h : MasterSides l s t) : MasterSidesAmid l s t :=
  ⟨h.params, h.master, h.pins, by simp [Attached.sameDevice, h.attached], h.sw, h.unstable, h.inputs, h.wire, h.results, h.trace⟩

/-- Everything the master's side of pin actions can be when the power changes in between. -/
theorem pinActionsAmid_masterSides {moves : List (Nat × PowerMove)} {l : List PinAction} {s t : State}
    (h : pinActionsAmid moves l s = .next t) : MasterSidesAmid l s t := by
  induction moves generalizing l s with
  | nil => exact (pinActions_masterSides h).amid
  | cons x rest ih =>
    obtain ⟨u, hu, ht⟩ := andThen_eq_next.mp h
    have h1 := pinActions_masterSides hu
    have h2 := ih ht
    have ha := u.powerMove_attached x.2
    obtain ⟨es, hes, htr⟩ := h1.trace
    obtain ⟨fs, hfs, hts⟩ := h2.trace
    rw [h1.attached] at ha
    refine ⟨by simpa using h2.params.trans (by simpa using h1.params), by simpa using h2.master.trans (by simpa using h1.master),
      ?_, ⟨ha.1.trans h2.attached.1, ha.2.trans h2.attached.2⟩, by simpa using h2.sw.trans (by simpa using h1.sw),
      by simpa using h2.unstable.trans (by simpa using h1.unstable), by simpa using h2.inputs.trans (by simpa using h1.inputs),
      by simpa using h2.wire.trans (by simpa using h1.wire), by simpa using h2.results.trans (by simpa using h1.results),
      es ++ fs, by simp [hes, hfs], by simp [hts, htr]⟩
    rw [h2.pins, State.powerMove_pins, h1.pins, ← List.foldl_append, List.take_append_drop]

end Sys2Proof.Machine
end

