-- ==== Sys2Proof/Tests/Slice0.lean ====
section
/-! SUPPORT. Tests: expected values from the worked examples and vectors of 95_test_vectors.md and from the encodings of 30_encoding.md; then, for every obligation with hypotheses, a concrete state that meets them. -/

namespace Sys2Proof.Tests

open Sys2Proof.Machine

/-! ## Helpers -/

/-- The next state, if there is one. -/
def nextOf {α : Type} : Out α → Option α
  | .next a => some a
  | .fault _ => none
  | .refused _ => none

/-- Why the machine refused. -/
def refusalOf {α : Type} : Out α → Option Refusal
  | .next _ => none
  | .fault _ => none
  | .refused r => some r

theorem exists_next {α : Type} {x : Out α} (h : (nextOf x).isSome = true) : ∃ t, x = .next t := by
  cases x with
  | next a => exact ⟨a, rfl⟩
  | fault r => simp [nextOf] at h
  | refused r => simp [nextOf] at h

/-- A constructed master at rest with the peripheral on the wires, after display mode 1, brightness 7. -/
def ready : State :=
  { State.reset with
    master := { constructed := true, displayEnabled := true, brightness := 7#3 }
    pins := { stb := true, clk := true, dir := .output, dio := false }
    per := { State.reset.per with dispEn := true, bright := 7#3 } }

/-- The same with something stored: digit 0 shows 0x3F, LED 7 is lit. -/
def showing : State := { ready with per := { ready.per with mem := [(0, 0x3F#8), (15, 0x01#8)] } }

/-- `ready` with the display off. -/
def dark : State :=
  { ready with
    master := { ready.master with displayEnabled := false }
    per := { ready.per with dispEn := false } }

/-- `ready` with nothing on the wires. -/
def alone : State := { ready with attached := .nothing }

/-- An open window at the start of a byte, in the given phase. -/
def inWindow (ph : Phase) (clk : Bool) (dir : Dir) : State :=
  { ready with
    pins := { stb := false, clk := clk, dir := dir, dio := false }
    per := { ready.per with phase := ph } }

/-! ## Well-formedness (R106): one ill-formed term for each check -/

theorem test_wellFormed_level : (Instr.setBrightness 8#8).wellFormed = false ∧ (Instr.setBrightness 7#8).wellFormed = true := by
  decide

theorem test_wellFormed_digit : (Instr.setSegmentValue 8#8 0x3F#8).wellFormed = false ∧
    (Instr.setSegmentValue 7#8 0xFF#8).wellFormed = true := by decide

theorem test_wellFormed_led : (Instr.setLedState 255#8 1#8).wellFormed = false ∧
    (Instr.setLedState 0#8 0xFF#8).wellFormed = true := by decide

theorem test_wellFormed_address : (Instr.write 16#8 0#8).wellFormed = false ∧
    (Instr.write 15#8 0xAA#8).wellFormed = true := by decide

/-! ## Decoding: words written out bit by bit from R93 to R95 and R102 (default constants) -/

theorem test_decode_displayCtrl : decodeTableWord 8 0b10001111 = some (.displayCtrl true 7#3) ∧
    decodeTableWord 8 0b10000010 = some (.displayCtrl false 2#3) := by decide

theorem test_decode_dataWrite : decodeTableWord 8 0b01000000 = some .dataWrite := by decide

theorem test_decode_dataRead : decodeTableWord 8 0b01000010 = some .dataRead := by decide

theorem test_decode_setAddress : decodeTableWord 8 0b11000101 = some (.setAddress 5#4) ∧
    decodeTableWord 8 0b11001111 = some (.setAddress 15#4) := by decide

theorem test_decode_construct : decodeTableWord 24 0b000000000000000000000000 = some .construct := by decide

theorem test_decode_displayOn : decodeTableWord 24 0b000000010000000000000000 = some .displayOn := by decide

theorem test_decode_displayOff : decodeTableWord 24 0b000000100000000000000000 = some .displayOff := by decide

theorem test_decode_setBrightness : decodeTableWord 24 0b000000110000001000000000 = some (.setBrightness 2#8) := by decide

theorem test_decode_setSegmentValue :
    decodeTableWord 24 0b000001000000001101001111 = some (.setSegmentValue 3#8 0x4F#8) := by decide

theorem test_decode_setLedState : decodeTableWord 24 0b000001010000001000000001 = some (.setLedState 2#8 1#8) := by decide

theorem test_decode_scanKeys : decodeTableWord 24 0b000001100000000000000000 = some .scanKeys := by decide

theorem test_decode_defPressedKeys : decodeTableWord 24 0b000001110000000000000000 = some .defPressedKeys := by decide

theorem test_decode_cleanup : decodeTableWord 24 0b000010000000000000000000 = some .cleanup := by decide

theorem test_decode_write : decodeTableWord 24 0b000010010000111110101010 = some (.write 15#8 0xAA#8) := by decide

/-- Section 2.5: reserved first bytes. -/
theorem test_decode_reservedBytes : ∀ c ∈ [0x00, 0x41, 0x44, 0x90, 0xD0, 0xFF], decodeTableWord 8 c = none := by decide

/-- Section 2.6: reserved command words. -/
theorem test_decode_reservedWords : ∀ w ∈ [0x0A0000, 0xFF0000, 0x010001, 0x030701], decodeTableWord 24 w = none := by decide

theorem test_params_default_legal : Params.default.valid = true := by decide

/-- Property S2: the address opcodes of digit 5 and LED 5. -/
theorem test_encode_addresses : addressCode Params.default (addressField (segmentAddress 5#8)) = 0xCA#8 ∧
    addressCode Params.default (addressField (ledAddress 5#8)) = 0xCB#8 := by decide

/-- Property S3 at k = 2. -/
theorem test_encode_brightness : displayCtrlCode Params.default true 2#3 = 0x8A#8 ∧
    displayCtrlCode Params.default false 2#3 = 0x82#8 := by decide

/-! ## Wire instructions (section 2.5) -/

theorem test_step_displayCtrl :
    (nextOf (step (State.reset.withFetchWord 8 0x82))).map (fun t => (t.per.dispEn, t.per.bright, t.per.phase)) =
      some (false, 2#3, .done) := by decide

theorem test_step_dataWrite :
    (nextOf (step ({ State.reset with per := { State.reset.per with mode := .read } }.withFetchWord 8 0x40))).map
      (fun t => t.per.mode) = some .write := by decide

theorem test_step_dataRead :
    (nextOf (step (State.reset.withFetchWord 8 0x42))).map (fun t => (t.per.mode, t.per.phase, t.per.rc, t.draws)) =
      some (.read, .readOut, 0#6, 1) := by decide

theorem test_step_setAddress :
    (nextOf (step (State.reset.withFetchWord 8 0xC6))).map (fun t => (t.per.ap, t.per.phase, t.per.mem)) =
      some (6#4, .dataIn, []) := by decide

/-- `[C6, 4F]` in read mode: no data byte is accepted (U12). -/
theorem test_setAddress_readMode :
    (nextOf (exec (.setAddress 6#4) { State.reset with per := { State.reset.per with mode := .read } })).map
      (fun t => t.per.phase) = some .done := by decide

theorem test_step_reservedByte : refusalOf (step (State.reset.withFetchWord 8 0x44)) = some .reservedFirstByte := by decide

/-! ## Commands (sections 2.3, 2.4 and 2.6, program P1, properties S5 and S8) -/

/-- Program P1: the peripheral after CONSTRUCT, as the first step after power-on. -/
theorem test_construct :
    (nextOf (step (State.reset.withFetchWord 24 0x000000))).map
      (fun t => (t.per.dispEn, t.per.bright, t.per.mode, t.per.ap)) = some (true, 7#3, .write, 0#4) := by decide +kernel

/-- Program P1: 466 pin actions. -/
theorem test_construct_trace :
    (nextOf (step (State.reset.withFetchWord 24 0x000000))).map (fun t => (t.pins, t.trace.length)) =
      some ({ stb := true, clk := true, dir := .output, dio := false }, 466) := by decide +kernel

theorem test_construct_twice : refusalOf (exec .construct ready) = some .alreadyConstructed := by decide

theorem test_displayOff :
    (nextOf (exec .displayOff showing)).map (fun t => (t.per.dispEn, t.per.mem, t.trace)) =
      some (false, [(0, 0x3F#8), (15, 0x01#8)], instructionEvents 0x87#8) := by decide +kernel

theorem test_displayOn :
    (nextOf (exec .displayOn dark)).map (fun t => (t.master.displayEnabled, t.per.dispEn, t.trace)) =
      some (true, true, instructionEvents 0x8F#8) := by decide +kernel

theorem test_setBrightness_whileOff :
    (nextOf (exec (.setBrightness 2#8) dark)).map (fun t => (t.master.brightness, t.per.dispEn, t.trace)) =
      some (2#3, false, instructionEvents 0x82#8) := by decide +kernel

theorem test_setBrightness_outOfRange :
    (nextOf (exec (.setBrightness 8#8) ready)).map (fun t => (t.results, t.trace, t.master.brightness)) =
      some ([{ status := 1#8, value := 0#32 }], [], 7#3) := by decide

theorem test_setSegmentValue :
    (nextOf (exec (.setSegmentValue 3#8 0x4F#8) ready)).map (fun t => (t.per.mem, t.per.ap)) =
      some ([(6, 0x4F#8)], 7#4) := by decide +kernel

theorem test_setSegmentValue_outOfRange :
    (nextOf (exec (.setSegmentValue 255#8 0#8) ready)).map (fun t => (t.results, t.trace)) =
      some ([{ status := 2#8, value := 0#32 }], []) := by decide

/-- `set_led_state(3, 2)` stores 0x02 and the LED stays dark. -/
theorem test_setLedState :
    (nextOf (exec (.setLedState 3#8 2#8) ready)).map (fun t => (t.per.mem, t.led 3#3)) =
      some ([(7, 0x02#8)], false) := by decide +kernel

theorem test_setLedState_outOfRange :
    (nextOf (exec (.setLedState 8#8 1#8) ready)).map (fun t => (t.results, t.trace)) =
      some ([{ status := 3#8, value := 0#32 }], []) := by decide

/-- The pointer wraps after a store to 15 (D6). -/
theorem test_write :
    (nextOf (exec (.write 15#8 0xAA#8) ready)).map (fun t => (t.per.mem, t.per.ap, t.trace.length)) =
      some ([(15, 0xAA#8)], 0#4, 76) := by decide +kernel

theorem test_write_outOfRange :
    (nextOf (exec (.write 16#8 0#8) ready)).map (fun t => (t.results, t.trace)) =
      some ([{ status := 4#8, value := 0#32 }], []) := by decide

theorem test_cleanup :
    (nextOf (exec .cleanup showing)).map (fun t => (t.per.mem, t.per.dispEn, t.per.ap, t.trace.length)) =
      some ([], true, 0#4, 436) := by decide +kernel

theorem test_scanKeys :
    (nextOf (exec .scanKeys showing)).map (fun t => (t.per.mode, t.pins.dir, t.per.mem, t.trace.length)) =
      some (.read, .output, [(0, 0x3F#8), (15, 0x01#8)], 130) := by decide +kernel

/-- Program P5: with no peripheral the scan reads the pull-up. -/
theorem test_scanKeys_absent :
    (nextOf (exec .scanKeys alone)).map (fun t => t.results) =
      some [{ status := 0#8, value := 0xFFFFFFFF#32 }] := by decide +kernel

theorem test_defPressedKeys_absent :
    (nextOf (exec .defPressedKeys alone)).map (fun t => t.results) =
      some [{ status := 0#8, value := 0xFF#32 }] := by decide +kernel

/-- Property S5, and two rows of section 2.4: switches 0 and 4; switches 0, 4 and 7 with every unused bit 1. -/
theorem test_pressedKeys : pressedKeys 0x00000011#32 = 0x11#32 ∧ pressedKeys 0xFEEEEEFF#32 = 0x91#32 ∧
    pressedKeys 0x10011001#32 = 0xA5#32 := by decide

/-- Property S9 and a row of section 2.4. -/
theorem test_keyWord : keyWord 0x91#8 0#32 = 0x10000011#32 ∧ keyWord 0x91#8 0xFFFFFFFF#32 = 0xFEEEEEFF#32 := by decide

theorem test_unknownCommand :
    (nextOf (step (ready.withFetchWord 24 0x0A0000))).map (fun t => (t.results, t.trace)) =
      some ([{ status := 5#8, value := 0#32 }], []) := by decide

/-- Section 2.1: `write_byte(0xA5)` ends with DIO at bit 7 and CLK high. -/
theorem test_writeByte : (nextOf (writeByte 0xA5#8 alone)).map (fun t => (t.pins.dio, t.pins.clk, t.trace.length)) =
    some (true, true, 24) := by decide +kernel

/-- Program P6: the loopback harness returns the byte. -/
theorem test_loopback :
    ((nextOf (writeByte 0xA5#8 { ready with attached := .loopback })).bind fun t =>
      (nextOf (readByte t)).map fun r => (r.1, r.2.harness.fifo)) = some (0xA5#8, []) := by decide +kernel

/-- Section 2.2: `open_write_transaction(14, [0x12, 0x34])`. -/
theorem test_burst :
    (nextOf (openWriteTransaction 14#4 [0x12#8, 0x34#8] ready)).map (fun t => (t.per.mem, t.per.ap, t.trace.length)) =
      some ([(14, 0x12#8), (15, 0x34#8)], 0#4, 100) := by decide +kernel

theorem test_reset_memory_canonical : Memory.wf State.reset.per.mem = true := by decide

theorem test_write_of_the_unlisted_value_removes :
    Memory.write [(0, 0x3F#8), (15, 0x01#8)] 0 0#8 = [(15, 0x01#8)] := by decide

/-! ## Witnesses: the hypotheses of each obligation, met together -/

/-- A legal assignment of the constants other than the default one: the bits of on and off exchanged. -/
def otherParams : Params := { Params.default with displayOn := 0x00#8, displayOff := 0x08#8 }

theorem witness_EncodedInstructionsDecode : Params.default.valid = true ∧ otherParams.valid = true := by decide

theorem witness_DecodedBitsAreTheEncoding :
    decode Params.default (.wire 0x8F#8) = .ok (.displayCtrl true 7#3) ∧
    decode Params.default (.command 0x090FAA#24) = .ok (.write 15#8 0xAA#8) := ⟨rfl, rfl⟩

theorem witness_PositionsGiveAddresses : (0#8).toNat ≤ 7 ∧ (7#8).toNat ≤ 7 := by decide

theorem witness_KeyBytesArePlaced : ∃ x, readBytes 4 0 0#32 alone = .next x := exists_next (by decide +kernel)

theorem witness_StepRunsTheIssuedCommand :
    ({ ready with inputs := [.command 0x010000#24] } : State).wire = [] ∧ decodeCommand 0x010000#24 = .ok .displayOn ∧
    ({ ready with inputs := [.command 0x010000#24] } : State).atRest = true := ⟨rfl, rfl, rfl⟩

/-- CONSTRUCT, with STB low. -/
theorem witness_StepRunsTheIssuedCommand_construct :
    (inWindow .idle true .output).wire = [] ∧ decodeCommand 0x000000#24 = .ok .construct ∧
    (inWindow .idle true .output).atRest = false := ⟨rfl, rfl, rfl⟩

theorem witness_StepRunsTheIssuedCommand_amid :
    ({ ready with inputs := [.commandAmid 0x080000#24 [(40, .lost)]] } : State).wire = [] ∧
    decodeCommand 0x080000#24 = .ok .cleanup ∧
    ({ ready with inputs := [.commandAmid 0x080000#24 [(40, .lost)]] } : State).atRest = true := ⟨rfl, rfl, rfl⟩

/-- Seven bits of 0x8F are in, bit 7 is on the line, the rising edge is pending. -/
def lastBit : State :=
  { inWindow .cmd false .output with
    wire := [.clk true]
    pins := { stb := false, clk := false, dir := .output, dio := true }
    per := { ready.per with phase := .cmd, sr := 0x0F#8, bc := 7#3 } }

theorem witness_StepRunsTheCompletedWireInstruction :
    lastBit.wire = [.clk true] ∧ lastBit.attached = .peripheral ∧ lastBit.pins.stb = false ∧ lastBit.pins.clk = false ∧
    lastBit.pins.dir = .output ∧ lastBit.per.phase = .cmd ∧ lastBit.per.bc = 7#3 ∧ lastBit.per.drv = .z ∧
    decodeWire lastBit.params (setBit lastBit.per.sr 7#3 lastBit.pins.dio) = .ok (.displayCtrl true 7#3) :=
  ⟨rfl, rfl, rfl, rfl, rfl, rfl, rfl, rfl, rfl⟩

theorem witness_OtherSteps_reserved :
    ready.wire = [] ∧ decodeCommand 0x0A0000#24 = .error .reservedOp ∧
    decodeCommand 0x010001#24 = .error .nonzeroUnusedOperand := ⟨rfl, rfl, rfl⟩

theorem witness_OtherSteps_notAtRest :
    (inWindow .idle true .output).wire = [] ∧ decodeCommand 0x080000#24 = .ok .cleanup ∧
    Instr.cleanup ≠ .construct ∧ (inWindow .idle true .output).atRest = false := ⟨rfl, rfl, by decide, rfl⟩

theorem witness_OtherSteps_switches :
    ({ ready with inputs := [.switches 0x91#8 0x00#8] } : State).wire = [] ∧ ready.inputs = [] := ⟨rfl, rfl⟩

/-- A peripheral coming back from a power loss with other registers than it had. -/
def revived : Periph :=
  { State.reset.per with mem := [(3, 0x99#8)], bright := 2#3, mode := .read, phase := .readOut, drv := .level true }

/-- `showing` with the peripheral unpowered. -/
def unpowered : State := { showing with attached := .unpowered }

theorem witness_OtherSteps_power :
    ({ showing with inputs := [.power .lost] } : State).wire = [] ∧ showing.attached = .peripheral ∧
    ({ unpowered with inputs := [.power (.back revived)] } : State).wire = [] ∧ unpowered.pins.stb = true ∧
    (nextOf (step { unpowered with inputs := [.power (.back revived)] })).map
      (fun t => (t.attached, t.per.mem, t.per.dispEn, t.per.phase)) = some (.peripheral, [(3, 0x99#8)], false, .idle) := by
  decide +kernel

/-- Power comes back inside a window, and where there is no peripheral. -/
theorem witness_OtherSteps_power_stb_low :
    (inWindow .cmd true .output).wire = [] ∧ (inWindow .cmd true .output).pins.stb = false ∧ revived.phase ≠ .idle ∧
    alone.wire = [] ∧ alone.attached = .nothing := by decide

/-- R284: the power is lost after 50 of the 76 pin actions of a store and comes back after the command: the store is lost, the mirror keeps its values, and the host gets Ok. -/
theorem test_power_lost_in_a_store :
    (nextOf (step { showing with inputs := [.commandAmid 0x0900FF#24 [(50, .lost), (100, .back revived)]] })).map
      (fun t => (t.per.mem, t.per.dispEn, t.master, t.results, t.pins.stb)) =
    some ([(3, 0x99#8)], false, showing.master, [{ status := 0#8, value := 0#32 }], true) := by decide +kernel

/-- R284 with R37: the power is lost once the read instruction is sent; the four bytes read as ones. -/
theorem test_power_lost_in_a_scan :
    (nextOf (step { ready with inputs := [.commandAmid 0x060000#24 [(26, .lost)]] })).map
      (fun t => t.results) = some [{ status := 0#8, value := 0xFFFFFFFF#32 }] := by decide +kernel

/-- The registers of a returned peripheral are put in canonical form. -/
theorem test_canonical : Memory.canonical [(20, 1#8), (3, 0x99#8), (0, 0#8), (3, 0x11#8), (1, 2#8)] = [(1, 2#8), (3, 0x99#8)] := by
  decide

theorem witness_PlacedInstructionRunsNext : State.reset.params.valid = true := by decide

theorem witness_BytesAreReceivedLsbFirst :
    (inWindow .cmd true .output).pins.clk = true ∧ (inWindow .cmd true .output).attached = .peripheral ∧
    (inWindow .cmd true .output).pins.stb = false ∧ (inWindow .cmd true .output).per.bc = 0#3 ∧
    (inWindow .cmd true .output).per.drv = .z ∧ (inWindow .dataIn false .output).per.phase = .dataIn ∧
    (inWindow .dataIn false .output).pins.clk = false ∧ (inWindow .dataIn false .output).contended = false ∧
    (inWindow .dataIn false .output).pins.dir = .output ∧ (inWindow .dataIn false .output).per.bc ≠ 7#3 := by decide

/-- R37: with the data pin an input a rising edge latches nothing, here at the edge that would have completed a data byte. -/
theorem test_nothing_latched_while_listening :
    (nextOf (setClk true { inWindow .dataIn false .input with per := { ready.per with phase := .dataIn, sr := 0x55#8, bc := 7#3 } })).map
      (fun t => (t.per.mem, t.per.sr, t.per.bc)) = some ([], 0x55#8, 7#3) := by decide +kernel

theorem witness_BytesAreReceivedLsbFirst_listening :
    (inWindow .cmd false .input).attached = .peripheral ∧ (inWindow .cmd false .input).pins.stb = false ∧
    (inWindow .cmd false .input).per.phase = .cmd ∧ (inWindow .cmd false .input).pins.clk = false ∧
    (inWindow .cmd false .input).pins.dir = .input := by decide

theorem witness_BytesAreReceivedLsbFirst_last :
    lastBit.attached = .peripheral ∧ lastBit.pins.stb = false ∧ lastBit.per.phase = .cmd ∧ lastBit.pins.clk = false ∧
    lastBit.pins.dir = .output ∧ lastBit.contended = false ∧ lastBit.per.bc = 7#3 := by decide

theorem witness_WrittenOpcodeRunsItsInstruction :
    (inWindow .cmd true .output).params.valid = true ∧
    encode (inWindow .cmd true .output).params (.setAddress 15#4) = .wire 0xCF#8 ∧
    (inWindow .cmd true .output).attached = .peripheral ∧ (inWindow .cmd true .output).pins.stb = false ∧
    (inWindow .cmd true .output).pins.dir = .output ∧ (inWindow .cmd true .output).per.phase = .cmd ∧
    (inWindow .cmd true .output).per.bc = 0#3 ∧ (inWindow .cmd true .output).per.drv = .z := by decide

/-- The pointer at 15, where it wraps. -/
def atLast : State :=
  { inWindow .dataIn true .output with per := { ready.per with phase := .dataIn, ap := 15#4 } }

theorem witness_DataByteIsStoredAtThePointer :
    atLast.attached = .peripheral ∧ atLast.pins.stb = false ∧ atLast.pins.dir = .output ∧ atLast.per.phase = .dataIn ∧
    atLast.per.bc = 0#3 ∧ atLast.per.drv = .z ∧ Memory.wf atLast.per.mem = true ∧ atLast.per.ap = 15#4 := by decide

/-- In read-out after `n` key bits. -/
def readingOut (n : BitVec 6) (clk : Bool) : State :=
  { inWindow .readOut clk .input with per := { ready.per with phase := .readOut, mode := .read, rc := n } }

theorem witness_KeyBitsAreReadOut :
    (readingOut 31#6 true).attached = .peripheral ∧ (readingOut 31#6 true).pins.stb = false ∧
    (readingOut 31#6 true).per.phase = .readOut ∧ (readingOut 31#6 true).pins.clk = true ∧
    (readingOut 31#6 true).per.rc.toNat ≤ 31 ∧ (readingOut 32#6 true).pins.clk = true ∧
    (readingOut 32#6 true).per.rc.toNat ≥ 32 ∧ (readingOut 32#6 false).pins.clk = false ∧
    (readingOut 32#6 false).pins.dir = .input ∧ (readingOut 32#6 false).per.rc.toNat ≤ 32 := by decide

theorem witness_StrobeBoundsTheWindow :
    ready.attached = .peripheral ∧ ready.pins.stb = true ∧ (inWindow .cmd true .output).attached = .peripheral ∧
    (inWindow .cmd true .output).pins.stb = false := by decide

theorem witness_PartialByteIsDropped :
    [true, false, true, true, false, true, true].length < 8 ∧ (inWindow .cmd true .output).attached = .peripheral ∧
    (inWindow .cmd true .output).pins.stb = false ∧ (inWindow .cmd true .output).pins.dir = .output ∧
    (inWindow .cmd true .output).per.phase = .cmd ∧ (inWindow .cmd true .output).per.bc = 0#3 ∧
    (inWindow .cmd true .output).per.drv = .z := by decide

theorem witness_UncoveredInputIsRefused :
    decodeWire (inWindow .cmd true .output).params 0x44#8 = .error .reservedFirstByte ∧
    (inWindow .cmd true .output).attached = .peripheral ∧ (inWindow .cmd true .output).pins.stb = false ∧
    (inWindow .cmd true .output).pins.dir = .output ∧ (inWindow .cmd true .output).per.phase = .cmd ∧
    (inWindow .cmd true .output).per.bc = 0#3 ∧ (inWindow .cmd true .output).per.drv = .z :=
  ⟨rfl, rfl, rfl, rfl, rfl, rfl, rfl⟩

theorem witness_UncoveredInputIsRefused_later :
    (inWindow .done false .output).attached = .peripheral ∧ (inWindow .done false .output).pins.stb = false ∧
    (inWindow .done false .output).pins.clk = false ∧ (inWindow .done false .output).per.phase = .done ∧
    (inWindow .readOut true .output).per.phase = .readOut ∧ (inWindow .readOut true .output).pins.dir = .output := by decide

theorem witness_UncoveredInputIsRefused_pins : (readingOut 0#6 true).pins.dir = .input ∧ ready.pins.dir = .output := by decide

theorem witness_WriteByteDrivesEightBits : alone.pins.dir = .output ∧ alone.attached ≠ .peripheral ∧
    (inWindow .cmd true .output).pins.dir = .output ∧ ∃ t, writeByte 0xC5#8 (inWindow .cmd true .output) = .next t :=
  ⟨rfl, by decide, rfl, exists_next (by decide +kernel)⟩

theorem witness_ReadByteSamplesEightBits : alone.attached = .nothing ∧ ∃ x, readByte (readingOut 0#6 true) = .next x :=
  ⟨rfl, exists_next (by decide +kernel)⟩

theorem witness_PushInstructionIsOneWindow : ready.pins.stb = true ∧ ready.pins.dir = .output ∧
    alone.attached ≠ .peripheral ∧ ∃ t, pushInstruction 0x8F#8 ready = .next t :=
  ⟨rfl, rfl, by decide, exists_next (by decide +kernel)⟩

theorem witness_WriteTransactionStoresABurst :
    showing.params.valid = true ∧ showing.attached = .peripheral ∧ showing.pins.stb = true ∧
    showing.pins.dir = .output ∧ Memory.wf showing.per.mem = true ∧ List.replicate 16 0x55#8 ≠ [] ∧
    (List.replicate 16 0x55#8).length ≤ 16 := by decide

theorem witness_LoopbackReproducesEveryByte :
    ({ ready with attached := .loopback } : State).attached = .loopback ∧ ready.pins.dir = .output ∧
    ready.harness = { fifo := [], drv := .z } := by decide

/-- For DisplayPowerCommands, CleanupClearsEveryRegister, ScanKeysReturnsTheSnapshot, DefPressedKeysCommand, DisplayOffKeepsTheContent and DisplayOffTwiceIsTheSame. -/
theorem witness_readyWithPeripheral : ready.readyWithPeripheral ∧ dark.readyWithPeripheral ∧ showing.readyWithPeripheral ∧
    Memory.wf showing.per.mem = true := by decide

theorem witness_SetBrightnessCommand : dark.readyWithPeripheral ∧ (7#8).toNat ≤ 7 := by decide

theorem witness_StoreCommands : showing.readyWithPeripheral ∧ (15#8).toNat ≤ 15 ∧ (7#8).toNat ≤ 7 := by decide

theorem witness_StoreCommandsTouchOneRegister : showing.readyWithPeripheral ∧ Memory.wf showing.per.mem = true ∧
    (15#8).toNat ≤ 15 ∧ (7#8).toNat ≤ 7 ∧ (∃ t, exec (.write 15#8 0xAA#8) showing = .next t) ∧
    (∃ t, exec (.setSegmentValue 7#8 0xFF#8) showing = .next t) ∧ ∃ t, exec (.setLedState 7#8 1#8) showing = .next t :=
  ⟨by decide, by decide, by decide, by decide, exists_next (by decide +kernel), exists_next (by decide +kernel),
   exists_next (by decide +kernel)⟩

theorem witness_DefPressedKeysDecodesOneScan : (∃ t, exec .scanKeys ready = .next t) ∧
    ∃ t, exec .defPressedKeys alone = .next t :=
  ⟨exists_next (by decide +kernel), exists_next (by decide +kernel)⟩

theorem witness_SteadySwitchesAreSeen : ({ ready with sw := 0x91#8, unstable := 0x02#8 } : State).unstable.getLsbD 0 = false ∧
    ({ ready with sw := 0x91#8, unstable := 0x02#8 } : State).unstable.getLsbD 7 = false := by decide

/-- Power-on with every pin the other way round and an instruction window half open. -/
def messy : State :=
  { State.reset with
    pins := { stb := false, clk := true, dir := .input, dio := true }
    per := { State.reset.per with mem := [(3, 0x99#8)], mode := .read, phase := .readOut, drv := .level true, bc := 5#3 } }

theorem witness_ConstructFromAnyPowerOn : messy.master.constructed = false ∧ messy.params.valid = true ∧
    messy.attached = .peripheral ∧ Memory.wf messy.per.mem = true := by decide

theorem witness_ConstructSetsTheDefaults : State.reset.master.constructed = false ∧ State.reset.params.valid = true := by
  decide

theorem witness_OutOfRangeOperandsAreRejected : ready.master.constructed = true ∧ (8#8).toNat > 7 ∧ (255#8).toNat > 7 ∧
    (16#8).toNat > 15 := by decide

theorem witness_CommandsNeedOneConstruct : Instr.cleanup.isWire = false ∧ Instr.cleanup ≠ .construct ∧
    State.reset.master.constructed = false ∧ ready.master.constructed = true := by decide

theorem witness_OnlyTheseCommandsWriteTheMirror : (∃ t, exec (.setBrightness 8#8) ready = .next t) ∧
    (∃ t, exec (.setAddress 3#4) ready = .next t) ∧ ∃ t, exec .displayOff ready = .next t :=
  ⟨exists_next (by decide +kernel), exists_next (by decide +kernel), exists_next (by decide +kernel)⟩

/-- For EveryCommandHasItsTrace and WireLevelAgreesWithCommandLevel. -/
theorem witness_accepts : State.reset.accepts .construct ∧ messy.accepts .construct ∧ ready.accepts .scanKeys ∧
    alone.accepts (.write 16#8 0#8) ∧ Instr.scanKeys.isWire = false ∧ (Instr.write 16#8 0#8).isWire = false := by decide

theorem witness_DisplayControlIsAlwaysSent : (7#8).toNat ≤ 7 ∧ alone.ready ∧ dark.ready ∧
    State.reset.accepts .construct := by decide

theorem witness_DisplayRegistersAreWriteOnly : showing.readyWithPeripheral ∧ (∃ t, exec .displayOff showing = .next t) ∧
    (∀ x v, Instr.displayOff ≠ .write x v) ∧ (∀ x v, Instr.displayOff ≠ .setSegmentValue x v) ∧
    (∀ x v, Instr.displayOff ≠ .setLedState x v) ∧ Instr.displayOff ≠ .cleanup ∧ showing.accepts .cleanup ∧
    showing.attached = .peripheral ∧ Instr.cleanup.isWire = false :=
  ⟨by decide, exists_next (by decide +kernel), by simp, by simp, by simp, by decide, by decide, rfl, rfl⟩

/-- Seven bits of the data byte 0x80 are in; the pin action to come completes it. -/
def lastDataBit : State := { lastBit with per := { lastBit.per with phase := .dataIn, ap := 15#4, sr := 0x00#8 } }

theorem witness_DisplayRegistersAreWriteOnly_store :
    (nextOf (pinAction (.clk true) lastDataBit)).map (fun t => t.per.mem) = some [(15, 0x80#8)] ∧
    lastDataBit.per.mem = [] := by decide

/-- The byte 0xC5 completes in phase CMD. -/
theorem witness_DisplayRegistersAreWriteOnly_address :
    (nextOf (pinAction (.clk true) { lastBit with per := { lastBit.per with sr := 0x45#8 } })).map (fun t => t.per.phase) =
      some .dataIn ∧ lastBit.per.phase ≠ .dataIn := by decide

theorem witness_EveryCommandCompletes : alone.accepts .defPressedKeys ∧ Instr.defPressedKeys.isWire = false ∧
    ready.accepts (.setBrightness 8#8) ∧ (Instr.setBrightness 8#8).wellFormed = false := by decide

theorem witness_EveryCommandReturnsOneResult : Instr.scanKeys.isWire = false ∧ (∃ t, exec .scanKeys ready = .next t) ∧
    Instr.cleanup ≠ .scanKeys ∧ Instr.cleanup ≠ .defPressedKeys ∧ ∃ t, exec .cleanup ready = .next t :=
  ⟨rfl, exists_next (by decide +kernel), by decide, by decide, exists_next (by decide +kernel)⟩

theorem witness_EveryTraceIsFramed_construct : ∃ t, exec .construct State.reset = .next t :=
  exists_next (by decide +kernel)

theorem witness_EveryTraceIsFramed : Instr.scanKeys.isWire = false ∧ Instr.scanKeys ≠ .construct ∧ showing.ready ∧
    ∃ t, exec .scanKeys showing = .next t :=
  ⟨rfl, by decide, by decide, exists_next (by decide +kernel)⟩

theorem witness_AbsentChipCannotBeDetected : Instr.construct.isWire = false ∧ Instr.construct ≠ .scanKeys ∧
    Instr.construct ≠ .defPressedKeys ∧ State.reset.accepts .construct ∧ State.reset.attached = .peripheral := by decide

theorem witness_AbsentChipCannotBeDetected_lost : showing.accepts .scanKeys ∧ showing.accepts (.write 15#8 0xAA#8) ∧
    State.reset.accepts .construct ∧ showing.attached = .peripheral := by decide

theorem witness_AbsentChipReadsAllOnes : alone.ready ∧ alone.attached = .nothing ∧ unpowered.ready ∧
    unpowered.attached = .unpowered := by decide

theorem witness_StepsOnlyAddToWhatIsSeen : ready.master.constructed = true ∧ ∃ t, step (ready.withFetchWord 24 0x060000) = .next t :=
  ⟨rfl, exists_next (by decide +kernel)⟩

theorem witness_LinkInvariantIsKept : showing.linkInv ∧ (readingOut 31#6 true).linkInv ∧
    ∃ t, step (showing.withFetchWord 8 0x42) = .next t :=
  ⟨by decide, by decide, exists_next (by decide +kernel)⟩

theorem witness_RestInvariantIsKept : showing.restInv ∧ ({ showing with inputs := [.command 0x090FAA#24] } : State).restInv ∧
    (∀ x rest, ({ showing with inputs := [.command 0x090FAA#24] } : State).inputs = x :: rest → x.bringsPowerBack = false) ∧
    ∃ t, step { showing with inputs := [.command 0x090FAA#24] } = .next t :=
  ⟨by decide, by decide, by simp [Input.bringsPowerBack], exists_next (by decide +kernel)⟩

/-- Also when the power is lost in the course of the command, and, for the weaker invariant, when it comes back. -/
theorem witness_RestInvariantIsKept_power :
    (Input.commandAmid 0x090FAA#24 [(3, .lost)]).bringsPowerBack = false ∧
    ({ showing with inputs := [.power (.back revived)] } : State).restPins ∧
    ∃ t, step { showing with inputs := [.power (.back revived)] } = .next t :=
  ⟨rfl, by decide, exists_next (by decide +kernel)⟩

theorem witness_PeripheralIsRestored : ({ showing with per := revived.poweredUp true } : State).readyWithPeripheral ∧
    Memory.wf (revived.poweredUp true).mem = true ∧ unpowered.ready ∧ unpowered.attached = .unpowered := by decide

theorem witness_LightsFollowTheirCommands : showing.readyWithPeripheral ∧ Memory.wf showing.per.mem = true ∧
    (0#8).toNat ≤ 7 ∧ (7#8).toNat ≤ 7 := by decide

theorem witness_StoreAfterScanSucceeds : showing.readyWithPeripheral ∧ (7#8).toNat ≤ 7 := by decide

end Sys2Proof.Tests
end

section
/-! The wire decoder on the codes the master sends (30_encoding.md R92 to R97): each comes back as its own instruction. -/

namespace Sys2Proof

theorem clearLow4_clearLow3 (c : Byte) : clearLow4 (clearLow3 c) = clearLow4 c := by
  apply byte_bits <;> simp [clearLow3, clearLow4]

/-- R92 (d): no display class lies in the set AD. -/
theorem Params.Constraints.class_ne_address {p : Params} (h : p.Constraints) (en : Bool) :
    clearLow4 (displayClass p en) ≠ p.setAddress := by
  cases en
  · exact h.offAddress
  · exact h.onAddress

/-- A display-control opcode is in the set of its own class only. -/
theorem inDC_displayCtrlCode {p : Params} (h : p.Constraints) (en en' : Bool) (bright : Level) :
    inDC p en' (displayCtrlCode p en bright) = (displayClass p en == displayClass p en') := by
  rw [inDC, displayCtrlCode, clearLow3_or, clearLow3_field, BitVec.or_zero, h.class_clear]

/-- The upper nibble of an address opcode is the constant SET_ADDRESS. -/
theorem clearLow4_addressCode {p : Params} (h : p.Constraints) (a : Addr) :
    clearLow4 (addressCode p a) = p.setAddress := by
  rw [addressCode, clearLow4_or, clearLow4_field4, BitVec.or_zero, h.address]

/-- An address opcode is in neither set DC: the upper nibbles differ. -/
theorem inDC_addressCode {p : Params} (h : p.Constraints) (en : Bool) (a : Addr) :
    inDC p en (addressCode p a) = false := by
  have hne : clearLow3 (addressCode p a) ≠ displayClass p en := fun he =>
    h.class_ne_address en (by rw [← he, clearLow4_clearLow3, clearLow4_addressCode h])
  simpa [inDC] using hne

theorem decodeWire_displayCtrlCode {p : Params} (h : p.Constraints) (en : Bool) (bright : Level) :
    decodeWire p (displayCtrlCode p en bright) = .ok (.displayCtrl en bright) := by
  have hf : (displayCtrlCode p en bright).setWidth 3 = bright := field3_of_or (h.class_clear en) bright
  cases en with
  | true => simp [decodeWire, inDC_displayCtrlCode h, hf]
  | false => simp [decodeWire, inDC_displayCtrlCode h, hf, h.onOff.symm]

theorem decodeWire_addressCode {p : Params} (h : p.Constraints) (a : Addr) :
    decodeWire p (addressCode p a) = .ok (.setAddress a) := by
  have hf : (addressCode p a).setWidth 4 = a := field4_of_or h.address a
  simp [decodeWire, inDC_addressCode h, inAD, clearLow4_addressCode h, hf]

theorem decodeWire_dataWriteCode {p : Params} (h : p.Constraints) :
    decodeWire p (dataWriteCode p) = .ok .dataWrite := by
  simp [decodeWire, h.writeOn, h.writeOff, h.writeAddress]

theorem decodeWire_dataReadCode {p : Params} (h : p.Constraints) :
    decodeWire p (dataReadCode p) = .ok .dataRead := by
  simp [decodeWire, h.readOn, h.readOff, h.readAddress, h.readWrite]

end Sys2Proof
end

section
/-! The transactions of 41_framing.md with the peripheral on the wires, each in exactly the state CommandLevel.lean describes. -/

namespace Sys2Proof.Machine

/-- A window can be opened: opcode constants that meet R92, the peripheral on the wires, and the pins as R150 has them between windows. -/
structure AtWindow (s : State) : Prop where
  constraints : s.params.Constraints
  attached : s.attached = .peripheral
  stb : s.pins.stb = true
  dir : s.pins.dir = .output

/-- The state after the window `< W c >` of an instruction that has left the peripheral's registers at `p`. -/
def State.afterInstruction (s : State) (c : Byte) (p : Periph) : State :=
  { s with
    pins := { s.pins with clk := true, dio := c.getLsbD 7 }
    per := p.closeWindow
    trace := s.trace ++ instructionEvents c }

theorem AtWindow.afterInstruction {s : State} (h : AtWindow s) (c : Byte) (p : Periph) :
    AtWindow (s.afterInstruction c p) := ⟨h.constraints, h.attached, h.stb, h.dir⟩

/-- The window of an instruction closes (R142). -/
theorem setStb_received {s : State} (h : AtWindow s) (c : Byte) (p : Periph) :
    setStb true ((s.received c).setPer p) = .next (s.afterInstruction c p) := by
  rw [setStb_close (s := (s.received c).setPer p) h.attached rfl]
  simp [State.received, State.opened, State.closed, State.tookByte, State.taking, State.driving, State.setPer,
    State.afterInstruction, instructionEvents, windowEvents, h.stb]

/-- The first byte of a window is executed as what it decodes to (R212). -/
theorem acceptInstruction_received {s : State} {c : Byte} {i : Instr} (hc : decodeWire s.params c = .ok i) :
    acceptInstruction (s.received c) = execWire i (s.received c) := acceptInstruction_ok (s := s.received c) hc

/-- `push_instruction(code)` is the window of the wire instruction the code decodes to. -/
theorem pushInstruction_decoded {s : State} {c : Byte} {i : Instr} (h : AtWindow s)
    (hc : decodeWire s.params c = .ok i) :
    pushInstruction c s = andThen (execWire i (s.received c)) (setStb true) := by
  rw [pushInstruction_peripheral h.attached h.stb h.dir, acceptInstruction_received hc]

/-- `push_display_ctrl_instr()` (R144) with the peripheral on the wires. -/
theorem pushDisplayCtrlInstr_peripheral {s : State} (h : AtWindow s) :
    pushDisplayCtrlInstr s = .next (s.afterDisplayControl s.master.displayEnabled s.master.brightness) := by
  rw [pushDisplayCtrlInstr, mirrorCode, pushInstruction_decoded h (decodeWire_displayCtrlCode h.constraints _ _)]
  exact setStb_received h _ _

/-- `push_data_write_instr()` (R143) with the peripheral on the wires. -/
theorem pushDataWriteInstr_peripheral {s : State} (h : AtWindow s) :
    pushDataWriteInstr s = .next (s.afterInstruction (dataWriteCode s.params)
      { (s.received (dataWriteCode s.params)).per with mode := .write, phase := .done }) := by
  rw [pushDataWriteInstr, pushInstruction_decoded h (decodeWire_dataWriteCode h.constraints)]
  exact setStb_received h _ _

/-- The state after a non-empty burst of data bytes, written flat. -/
theorem tookData_eq (s : State) {ds : List Byte} (hds : ds ≠ []) :
    s.tookData ds =
      { s with
        pins := { s.pins with clk := true, dio := (ds.getLastD 0#8).getLsbD 7 }
        per := { s.per with
          mem := Memory.burst s.per.mem s.per.ap ds, ap := s.per.ap + BitVec.ofNat 4 ds.length
          sr := ds.getLastD 0#8, bc := 0#3 }
        trace := s.trace ++ ds.flatMap writeByteEvents } := by
  obtain ⟨d, rest, rfl⟩ := List.exists_cons_of_ne_nil hds
  have h := tookData_spec s (d :: rest)
  have hdio : (rest.map fun b : Byte => b.getLsbD 7).getLastD (d.getLsbD 7) = (rest.getLastD d).getLsbD 7 :=
    List.getLastD_map (f := fun b : Byte => b.getLsbD 7)
  rw [h.rest, h.regs, h.pins, h.mem, h.ap, h.lastByte, h.count, h.clk, h.dio, h.trace, List.map_cons,
    List.getLastD_cons, List.getLastD_cons, List.getLastD_cons, hdio]
  simp only [List.isEmpty_cons, Bool.not_false, Bool.or_true, Bool.false_eq_true, if_false]

/-- An address instruction is in as the first byte of a window, in write mode (R217). -/
def State.addressed (s : State) (a : Addr) : State :=
  let c := addressCode s.params a
  (s.received c).setPer { (s.received c).per with ap := a, phase := .dataIn }

theorem acceptInstruction_address {s : State} (h : AtWindow s) (hw : s.per.mode = .write) (a : Addr) :
    acceptInstruction (s.received (addressCode s.params a)) = .next (s.addressed a) := by
  have hmode : (s.received (addressCode s.params a)).per.mode = .write := hw
  rw [acceptInstruction_received (decodeWire_addressCode h.constraints a), execWire, execSetAddress, hmode]
  rfl

/-- A burst window (R146) on a peripheral in write mode. -/
theorem burstWindow_peripheral {s : State} (h : AtWindow s) (hw : s.per.mode = .write) (a : Addr) {ds : List Byte}
    (hds : ds ≠ []) :
    window (writeBytes (addressCode s.params a :: ds)) s = .next
      { s with
        pins := { s.pins with clk := true, dio := (ds.getLastD 0#8).getLsbD 7 }
        per := { s.per with
          mem := Memory.burst s.per.mem a ds, ap := a + BitVec.ofNat 4 ds.length, phase := .idle
          sr := ds.getLastD 0#8, bc := 0#3, drv := .z }
        trace := s.trace ++ windowEvents ((addressCode s.params a :: ds).flatMap writeByteEvents) } := by
  have hu : Receiving (s.addressed a) := ⟨h.attached, rfl, h.dir, .inr rfl, rfl⟩
  have hfirst := window_firstByte h.attached h.stb h.dir (addressCode s.params a) (writeBytes ds)
  rw [acceptInstruction_address h hw, andThen_next, writeBytes_dataIn hu rfl rfl, andThen_next,
    setStb_close (s := (s.addressed a).tookData ds) (by rw [tookData_eq _ hds]; exact h.attached)
      (by rw [tookData_eq _ hds]; rfl), tookData_eq _ hds] at hfirst
  refine hfirst.trans ?_
  simp [State.addressed, State.received, State.opened, State.closed, State.tookByte, State.taking, State.driving,
    State.setPer, Periph.openWindow, Periph.closeWindow, windowEvents, h.stb]

/-- `open_write_transaction(address, payload)` (R146) with the peripheral on the wires, for a payload of at least one byte. -/
theorem openWriteTransaction_peripheral {s : State} (h : AtWindow s) (a : Addr) {ds : List Byte} (hds : ds ≠ []) :
    openWriteTransaction a ds s = .next (s.afterBurst a ds) := by
  rw [openWriteTransaction, pushDataWriteInstr_peripheral h, andThen_next]
  refine (burstWindow_peripheral (h.afterInstruction _ _) rfl a hds).trans ?_
  simp [State.afterInstruction, State.afterBurst, State.received, State.opened, State.tookByte, State.taking,
    State.driving, State.setPer, Periph.openWindow, Periph.closeWindow, writeTransactionEvents]

/-- The instruction of a read transaction is in and the key snapshot taken (R216). -/
def State.scanning (s : State) : State :=
  let u := s.received (dataReadCode s.params)
  (u.setPer { u.per with mode := .read, kw := s.keySnapshot, rc := 0#6, phase := .readOut }).drew

theorem writeByte_dataRead {s : State} (h : AtWindow s) :
    writeByte (dataReadCode s.opened.params) s.opened = .next s.scanning := by
  rw [writeByte_receiving (receiving_opened h.attached h.dir) rfl]
  exact acceptInstruction_received (decodeWire_dataReadCode h.constraints)

/-- The read transaction (R147, R190) with the peripheral on the wires: the word read is the key snapshot (R216). -/
theorem readTransaction_peripheral {s : State} (h : AtWindow s) :
    readTransaction s = .next (s.keySnapshot, s.afterScan s.keySnapshot) := by
  have hu : ReadingOut s.scanning := ⟨h.attached, rfl, rfl, rfl⟩
  rw [readTransaction, setStb_open h.attached h.stb, andThen_next, writeByte_dataRead h, andThen_next,
    readBytes_readingOut hu rfl, andThen_next, setStb_close (s := s.scanning.gaveKeys) h.attached rfl, andThen_next]
  simp [State.scanning, State.received, State.opened, State.closed, State.tookByte, State.taking, State.driving,
    State.setPer, State.drew, State.gaveKeys, State.keyed, State.afterScan, Periph.gaveByte, Periph.openWindow,
    Periph.closeWindow, scanEvents, windowEvents, h.stb, h.dir]

end Sys2Proof.Machine
end

section
/-! The commands with the peripheral on the wires: rejected with an illegal operand, and otherwise the effect of CommandLevel.lean (R14). -/

namespace Sys2Proof.Machine

theorem decide_gt_eq_not_decide_le (n k : Nat) : decide (n > k) = !decide (n ≤ k) := by
  rw [← decide_not, decide_eq_decide]
  exact Nat.not_le.symm

/-- The range checks of R251 to R254 are R106's legal ranges. -/
theorem levelTooBig_eq (level : Byte) : levelTooBig level = !(Instr.setBrightness level).wellFormed :=
  decide_gt_eq_not_decide_le _ _

theorem positionTooBig_eq_segment (x v : Byte) : positionTooBig x = !(Instr.setSegmentValue x v).wellFormed :=
  decide_gt_eq_not_decide_le _ _

theorem positionTooBig_eq_led (x v : Byte) : positionTooBig x = !(Instr.setLedState x v).wellFormed :=
  decide_gt_eq_not_decide_le _ _

theorem addressTooBig_eq (x v : Byte) : addressTooBig x = !(Instr.write x v).wellFormed :=
  decide_gt_eq_not_decide_le _ _

/-- The low four bits of the computed segment address are `2 * position` (R99). -/
theorem addressField_segmentAddress (x : Byte) : addressField (segmentAddress x) = BitVec.ofNat 4 (2 * x.toNat) := by
  apply BitVec.eq_of_toNat_eq
  simp only [addressField, segmentAddress, BitVec.toNat_setWidth, BitVec.toNat_shiftLeft, BitVec.toNat_ofNat,
    Nat.shiftLeft_eq]
  omega

/-- The LED address follows the segment address (R99): its bit 0 is free. -/
theorem ledAddress_eq_add (x : Byte) : ledAddress x = segmentAddress x + 1#8 := by
  have hfree : segmentAddress x &&& 1#8 = 0#8 := by
    apply BitVec.eq_of_getLsbD_eq
    intro i hi
    cases i <;> simp [segmentAddress, BitVec.getLsbD_one]
  exact (BitVec.add_eq_or_of_and_eq_zero _ _ hfree).symm

/-- The low four bits of the computed LED address are `2 * position + 1` (R99). -/
theorem addressField_ledAddress (x : Byte) : addressField (ledAddress x) = BitVec.ofNat 4 (2 * x.toNat + 1) := by
  apply BitVec.eq_of_toNat_eq
  simp only [addressField, ledAddress_eq_add, segmentAddress, BitVec.toNat_setWidth, BitVec.toNat_add,
    BitVec.toNat_shiftLeft, BitVec.toNat_ofNat, Nat.shiftLeft_eq]
  omega

/-- A command with an illegal operand is rejected by the same error in every state (R251 to R254, R260). -/
theorem exec_rejected {i : Instr} (hi : i.wellFormed = false) :
    ∃ e, ∀ s : State, s.master.constructed = true → exec i s = raiseValidation e s := by
  cases i with
  | setBrightness level =>
    exact ⟨.brightnessRange, fun s hc => by
      simp [exec, execSetBrightness, whenConstructed_of_constructed hc, levelTooBig_eq, hi]⟩
  | setSegmentValue x v =>
    exact ⟨.segmentPositionRange, fun s hc => by
      simp [exec, execSetSegmentValue, whenConstructed_of_constructed hc, positionTooBig_eq_segment x v, hi]⟩
  | setLedState x v =>
    exact ⟨.ledPositionRange, fun s hc => by
      simp [exec, execSetLedState, whenConstructed_of_constructed hc, positionTooBig_eq_led x v, hi]⟩
  | write x v =>
    exact ⟨.addressRange, fun s hc => by
      simp [exec, execWrite, whenConstructed_of_constructed hc, addressTooBig_eq x v, hi]⟩
  | _ => nomatch hi

/-- CONSTRUCT's four pin actions with the peripheral on the wires, from any pin levels (R280, R281). -/
theorem initPins_peripheral {s : State} (ha : s.attached = .peripheral) : initPins s = .next s.afterInitPins := by
  cases hs : s.pins.stb <;> cases hc : s.pins.clk <;>
    simp [initPins, pinActions, pinAction, setStb, stbEdge, setClk, clkEdge, periphClkFall, setDirOut, setDio,
      State.afterInitPins, State.setPins, State.setPer, State.setHarness, State.log, Periph.closeWindow, ha, hs, hc]

/-- The body of a legal store with the peripheral on the wires. -/
theorem storeRegister_peripheral {s : State} (h : AtWindow s) (x v : Byte) :
    storeRegister x v s = .next ((s.afterBurst (addressField x) [v]).ok 0#32) := by
  rw [storeRegister, openWriteTransaction_peripheral h _ (List.cons_ne_nil v []), andThen_next]
  rfl

theorem clearRegisters_peripheral {s : State} (h : AtWindow s) :
    clearRegisters s = .next (s.afterBurst 0#4 cleanupPayload) :=
  openWriteTransaction_peripheral h 0#4 (List.cons_ne_nil _ _)

theorem AtWindow.ofReady {s : State} (h : s.readyWithPeripheral) : AtWindow s := by
  obtain ⟨⟨_, hv, hs, hd⟩, ha⟩ := h
  exact ⟨Params.constraints hv, ha, hs, hd⟩

theorem AtWindow.afterDisplayControl {s : State} (h : AtWindow s) (en : Bool) (bright : Level) :
    AtWindow (s.afterDisplayControl en bright) := ⟨h.constraints, h.attached, h.stb, h.dir⟩

/-- CONSTRUCT has its effect (R280). -/
theorem exec_construct {s : State} (hc : s.master.constructed = false) (hv : s.params.valid = true)
    (ha : s.attached = .peripheral) : exec .construct s = .next (commandEffect .construct s) := by
  have hw : AtWindow ((s.afterInitPins.setDisplayEnabled true).setBrightness 7#3).setConstructed :=
    ⟨Params.constraints hv, ha, rfl, rfl⟩
  simp only [exec, execConstruct, hc, Bool.false_eq_true, if_false, initPins_peripheral ha, andThen_next,
    pushDisplayCtrlInstr_peripheral hw, clearRegisters_peripheral (hw.afterDisplayControl _ _)]
  rfl

/-- Every command with legal operands has its effect (R14), with the peripheral on the wires. -/
theorem exec_eq_commandEffect {i : Instr} {s : State} (hw : i.isWire = false) (hi : i.wellFormed = true)
    (hc : s.accepts i) (ha : s.attached = .peripheral) : exec i s = .next (commandEffect i s) := by
  obtain ⟨hv, hfirst, hother⟩ := hc
  by_cases hcon : i = .construct
  · subst hcon
    exact exec_construct (hfirst rfl) hv ha
  obtain ⟨hm, hs, hd⟩ := hother hcon
  have h : AtWindow s := ⟨Params.constraints hv, ha, hs, hd⟩
  cases i with
  | construct => exact absurd rfl hcon
  | displayOn =>
    rw [exec, execDisplayOn, whenConstructed_of_constructed hm,
      pushDisplayCtrlInstr_peripheral (s := s.setDisplayEnabled true) ⟨h.constraints, ha, hs, hd⟩]
    rfl
  | displayOff =>
    rw [exec, execDisplayOff, whenConstructed_of_constructed hm,
      pushDisplayCtrlInstr_peripheral (s := s.setDisplayEnabled false) ⟨h.constraints, ha, hs, hd⟩]
    rfl
  | setBrightness level =>
    rw [exec, execSetBrightness, whenConstructed_of_constructed hm, levelTooBig_eq, hi,
      pushDisplayCtrlInstr_peripheral (s := s.setBrightness (levelField level)) ⟨h.constraints, ha, hs, hd⟩]
    rfl
  | setSegmentValue x v =>
    rw [exec, execSetSegmentValue, whenConstructed_of_constructed hm, positionTooBig_eq_segment x v, hi,
      storeRegister_peripheral h, addressField_segmentAddress]
    rfl
  | setLedState x v =>
    rw [exec, execSetLedState, whenConstructed_of_constructed hm, positionTooBig_eq_led x v, hi,
      storeRegister_peripheral h, addressField_ledAddress]
    rfl
  | scanKeys => rw [exec, execScanKeys, whenConstructed_of_constructed hm, readTransaction_peripheral h]; rfl
  | defPressedKeys => rw [exec, execDefPressedKeys, whenConstructed_of_constructed hm, readTransaction_peripheral h]; rfl
  | cleanup => rw [exec, execCleanup, whenConstructed_of_constructed hm, clearRegisters_peripheral h]; rfl
  | write x v =>
    rw [exec, execWrite, whenConstructed_of_constructed hm, addressTooBig_eq x v, hi, storeRegister_peripheral h]
    rfl
  | _ => nomatch hw

end Sys2Proof.Machine
end

section
/-! The display registers are written only by data bytes and read by no command and no wire instruction (10_state.md R23). -/

namespace Sys2Proof.Machine

/-! ## Which commands change the registers, and that none reads them -/

/-- DISPLAY space replaced by `m`, everything else as before. -/
def State.withRegisters (s : State) (m : Memory) : State := s.setPer { s.per with mem := m }

/-- A wire instruction goes on, leaves the registers as they are and commutes with replacing them. -/
theorem exec_wire_ignores_registers {i : Instr} (hi : i.isWire = true) (s : State) (m : Memory) :
    ∃ t, exec i s = .next t ∧ t.per.mem = s.per.mem ∧
      exec i (s.withRegisters m) = .next (t.withRegisters m) := by
  cases i with
  | displayCtrl en bright => exact ⟨_, rfl, rfl, rfl⟩
  | dataWrite => exact ⟨_, rfl, rfl, rfl⟩
  | dataRead => exact ⟨_, rfl, rfl, rfl⟩
  | setAddress addr => exact ⟨_, rfl, rfl, rfl⟩
  | _ => nomatch hi

/-- The commands that store to the display registers (R23). -/
def storesRegisters : Instr → Bool
  | .construct => true
  | .setSegmentValue _ _ => true
  | .setLedState _ _ => true
  | .cleanup => true
  | .write _ _ => true
  | _ => false

/-- The effect of any other command leaves them as they are. -/
theorem commandEffect_mem {i : Instr} (hi : storesRegisters i = false) (s : State) :
    (commandEffect i s).per.mem = s.per.mem := by
  cases i with
  | construct | setSegmentValue | setLedState | cleanup | write => nomatch hi
  | _ => rfl

theorem afterInitPins_withRegisters (s : State) (m : Memory) :
    (s.withRegisters m).afterInitPins = s.afterInitPins.withRegisters m := by
  cases hs : s.pins.stb <;> simp [State.afterInitPins, State.withRegisters, State.setPer, hs]

/-- With other registers a command has the same effect on everything but the registers. -/
theorem commandEffect_withRegisters (i : Instr) (s : State) (m : Memory) :
    ∃ m', commandEffect i (s.withRegisters m) = (commandEffect i s).withRegisters m' := by
  cases i with
  | construct =>
    simp only [commandEffect, afterInitPins_withRegisters]
    exact ⟨_, rfl⟩
  | _ => exact ⟨_, rfl⟩

theorem sameMasterSide_withRegisters (s : State) (m : Memory) : s.sameMasterSide (s.withRegisters m) :=
  ⟨rfl, rfl, rfl, rfl, rfl⟩

/-- CONSTRUCT has no illegal operand, so a command with one runs on a constructed master. -/
theorem constructed_of_accepts {i : Instr} {s : State} (hi : i.wellFormed = false) (hc : s.accepts i) :
    s.master.constructed = true :=
  (hc.2.2 fun h => by rw [h] at hi; nomatch hi).1

/-- Every accepted command completes and shows the same whatever the registers hold. -/
theorem exec_command_ignores_registers {i : Instr} {s : State} (hc : s.accepts i) (ha : s.attached = .peripheral)
    (hw : i.isWire = false) (m : Memory) :
    ∃ t u, exec i s = .next t ∧ exec i (s.withRegisters m) = .next u ∧ t.sameMasterSide u := by
  cases hi : i.wellFormed with
  | true =>
    obtain ⟨m', hm'⟩ := commandEffect_withRegisters i s m
    refine ⟨_, _, exec_eq_commandEffect hw hi hc ha, exec_eq_commandEffect (s := s.withRegisters m) hw hi hc ha, ?_⟩
    rw [hm']
    exact sameMasterSide_withRegisters _ m'
  | false =>
    obtain ⟨e, he⟩ := exec_rejected hi
    have hm := constructed_of_accepts hi hc
    exact ⟨_, _, he s hm, he (s.withRegisters m) hm, rfl, rfl, rfl, rfl, rfl⟩

/-- An instruction that is none of the storing commands leaves the registers as they are. -/
theorem exec_mem_of_not_storesRegisters {i : Instr} {s t : State} (hr : s.readyWithPeripheral) (hi : storesRegisters i = false)
    (he : exec i s = .next t) : t.per.mem = s.per.mem := by
  obtain ⟨⟨hm, hv, hs, hd⟩, ha⟩ := hr
  have hcon : i ≠ .construct := fun h => by rw [h] at hi; nomatch hi
  cases hw : i.isWire with
  | true =>
    obtain ⟨u, hu, hmem, _⟩ := exec_wire_ignores_registers hw s []
    cases hu.symm.trans he
    exact hmem
  | false =>
    cases hwf : i.wellFormed with
    | true =>
      have hc : s.accepts i := ⟨hv, fun h => absurd h hcon, fun _ => ⟨hm, hs, hd⟩⟩
      cases (exec_eq_commandEffect hw hwf hc ha).symm.trans he
      exact commandEffect_mem hi s
    | false =>
      obtain ⟨e, hrej⟩ := exec_rejected hwf
      cases (hrej s hm).symm.trans he
      rfl

/-! ## Which pin action changes the registers, and which one lets data bytes in -/

/-- The registers are as before, and data bytes are accepted only if they were before. -/
structure KeepsRegisters (s t : State) : Prop where
  mem : t.per.mem = s.per.mem
  phase : t.per.phase = .dataIn → s.per.phase = .dataIn

theorem KeepsRegisters.ofPer {s t : State} (h : t.per = s.per) : KeepsRegisters s t :=
  ⟨by rw [h], fun hp => by rwa [h] at hp⟩

/-- The last bit of a byte arrives in `s`, and the peripheral acts on the byte in `u` (R213). -/
structure LastBit (s u : State) : Prop where
  attached : s.attached = .peripheral
  stb : s.pins.stb = false
  count : s.per.bc = 7#3
  mem : u.per.mem = s.per.mem
  phase : u.per.phase = s.per.phase

/-- A wire instruction stores nothing, and only an address instruction lets data bytes in (R217). -/
theorem execWire_dataIn {i : Instr} {s t : State} (h : execWire i s = .next t) :
    t.per.mem = s.per.mem ∧ (t.per.phase = .dataIn → i = .setAddress t.per.ap ∧ t.per.sr = s.per.sr) := by
  cases i with
  | displayCtrl | dataWrite | dataRead =>
    cases h
    exact ⟨rfl, fun hp => nomatch hp⟩
  | setAddress addr =>
    cases h
    exact ⟨rfl, fun _ => ⟨rfl, rfl⟩⟩
  | _ => nomatch h

/-- A completed byte is stored only in phase DATA_IN (R218). -/
theorem byteComplete_mem {s t : State} (h : byteComplete s = .next t) (hm : t.per.mem ≠ s.per.mem) :
    s.per.phase = .dataIn := by
  unfold byteComplete at h
  split at h
  case h_2 hp =>
    unfold acceptInstruction at h
    split at h
    · exact absurd (execWire_dataIn h).1 hm
    · nomatch h
  case h_3 hp => exact hp
  all_goals cases h; exact absurd rfl hm

/-- A completed byte lets data bytes in only as an address instruction in phase CMD (R217). -/
theorem byteComplete_dataIn {s t : State} (h : byteComplete s = .next t) (ht : t.per.phase = .dataIn)
    (hs : s.per.phase ≠ .dataIn) :
    s.per.phase = .cmd ∧ decodeWire t.params t.per.sr = .ok (.setAddress t.per.ap) := by
  have hparams := (byteComplete_deviceOnly h).params
  unfold byteComplete at h
  split at h
  case h_2 hp =>
    unfold acceptInstruction at h
    split at h
    case h_1 i hi =>
      obtain ⟨rfl, hsr⟩ := (execWire_dataIn h).2 ht
      exact ⟨hp, by rw [hparams, hsr, hi]⟩
    · nomatch h
  case h_3 hp => exact absurd hp hs
  all_goals cases h; exact absurd ht hs

/-- What a bit taken from the line can do: the last one completes the byte, any other changes no register. -/
theorem latchBit_cases {s t : State} (ha : s.attached = .peripheral) (hs : s.pins.stb = false)
    (h : latchBit s = .next t) : KeepsRegisters s t ∨ ∃ u, LastBit s u ∧ byteComplete u = .next t := by
  unfold latchBit at h
  dsimp only at h
  split at h
  case isTrue hb => refine .inr ⟨_, ?_, h⟩; exact ⟨ha, hs, hb, rfl, rfl⟩
  case isFalse => cases h; exact .inl ⟨rfl, id⟩

theorem receiveBit_cases {s t : State} (ha : s.attached = .peripheral) (hs : s.pins.stb = false)
    (h : receiveBit s = .next t) : KeepsRegisters s t ∨ ∃ u, LastBit s u ∧ byteComplete u = .next t := by
  obtain ⟨_, h⟩ | ⟨_, rfl⟩ := receiveBit_eq_next.mp h
  · exact latchBit_cases ha hs h
  · exact .inl ⟨rfl, id⟩

theorem periphClkRise_cases {s t : State} (ha : s.attached = .peripheral) (h : periphClkRise s = .next t) :
    KeepsRegisters s t ∨ ∃ u, LastBit s u ∧ byteComplete u = .next t := by
  unfold periphClkRise at h
  split at h
  case isTrue => cases h; exact .inl ⟨rfl, id⟩
  case isFalse hs =>
    have hs : s.pins.stb = false := by simpa using hs
    split at h
    · cases h; exact .inl ⟨rfl, id⟩
    · exact receiveBit_cases ha hs h
    · exact receiveBit_cases ha hs h
    · split at h
      · nomatch h
      · cases h; exact .inl ⟨rfl, id⟩
    · nomatch h

theorem periphClkFall_keeps (s : State) : KeepsRegisters s (periphClkFall s) := by
  unfold periphClkFall presentKeyBit
  split
  · exact ⟨rfl, id⟩
  · split
    case h_4 => split <;> exact ⟨rfl, id⟩
    all_goals exact ⟨rfl, id⟩

theorem loopRise_per (s : State) : (loopRise s).per = s.per := by
  unfold loopRise
  split <;> simp

theorem loopFall_per (s : State) : (loopFall s).per = s.per := by
  unfold loopFall
  split
  · rfl
  · split <;> rfl

/-- What a change of CLK can do to the registers, whatever hangs on the wires. -/
theorem clkEdge_cases {v : Bool} {s t : State} (h : clkEdge v s = .next t) :
    KeepsRegisters s t ∨ v = true ∧ ∃ u, LastBit s u ∧ byteComplete u = .next t := by
  unfold clkEdge at h
  split at h
  case h_2 ha => exact (periphClkRise_cases ha h).imp id fun hu => ⟨rfl, hu⟩
  case h_3 => cases h; exact .inl (periphClkFall_keeps s)
  case h_5 => cases h; exact .inl (.ofPer (loopRise_per s))
  case h_6 => cases h; exact .inl (.ofPer (loopFall_per s))
  all_goals cases h; exact .inl ⟨rfl, id⟩

/-- A change of STB opens or closes a window: no register changes and no data byte is let in (R211). -/
theorem stbEdge_keeps (v : Bool) (s : State) : KeepsRegisters s (stbEdge v s) := by
  unfold stbEdge
  split
  case h_2 => cases v <;> exact ⟨rfl, fun hp => nomatch hp⟩
  all_goals exact ⟨rfl, id⟩

/-- What a pin action can do to the registers: nothing, unless it is the rising CLK edge of the last bit of a byte. -/
theorem pinAction_cases {a : PinAction} {s t : State} (h : pinAction a s = .next t) :
    KeepsRegisters s t ∨
      a = .clk true ∧ s.pins.clk = false ∧ ∃ u, LastBit s u ∧ byteComplete u = .next t := by
  cases a with
  | stb v =>
    simp only [pinAction, setStb, Host.Outcome.next.injEq] at h
    subst h
    refine .inl ?_
    split
    · exact ⟨rfl, id⟩
    · exact ⟨(stbEdge_keeps v _).mem, (stbEdge_keeps v _).phase⟩
  | clk v =>
    simp only [pinAction, setClk] at h
    split at h
    case isTrue => cases h; exact .inl ⟨rfl, id⟩
    case isFalse hne =>
      obtain hk | ⟨rfl, u, hu, ht⟩ := clkEdge_cases h
      · exact .inl ⟨hk.mem, hk.phase⟩
      · exact .inr ⟨rfl, by simpa using hne, u, ⟨hu.attached, hu.stb, hu.count, hu.mem, hu.phase⟩, ht⟩
  | dio v =>
    simp only [pinAction, setDio] at h
    split at h
    · cases h; exact .inl ⟨rfl, id⟩
    · nomatch h
  | dirOut => cases h; exact .inl ⟨rfl, id⟩
  | dirIn => cases h; exact .inl ⟨rfl, id⟩
  | sample =>
    simp only [pinAction, sampleLine] at h
    split at h
    · nomatch h
    · cases h; exact .inl ⟨rfl, id⟩

/-- A pin action that changes a register is the rising CLK edge that completes a byte in phase DATA_IN (R23). -/
theorem pinAction_mem {a : PinAction} {s t : State} (h : pinAction a s = .next t) (hm : t.per.mem ≠ s.per.mem) :
    a = .clk true ∧ s.attached = .peripheral ∧ s.pins.stb = false ∧ s.pins.clk = false ∧
      s.per.phase = .dataIn ∧ s.per.bc = 7#3 := by
  obtain hk | ⟨ha, hclk, u, hu, ht⟩ := pinAction_cases h
  · exact absurd hk.mem hm
  · have hp := byteComplete_mem ht (by rwa [hu.mem])
    exact ⟨ha, hu.attached, hu.stb, hclk, hu.phase ▸ hp, hu.count⟩

/-- Phase DATA_IN is reached only from phase CMD of an open window, by an address instruction (R23, R217). -/
theorem pinAction_reaches_dataIn {a : PinAction} {s t : State} (h : pinAction a s = .next t)
    (ht : t.per.phase = .dataIn) (hs : s.per.phase ≠ .dataIn) :
    s.pins.stb = false ∧ s.per.phase = .cmd ∧ decodeWire t.params t.per.sr = .ok (.setAddress t.per.ap) := by
  obtain hk | ⟨_, _, u, hu, hc⟩ := pinAction_cases h
  · exact absurd (hk.phase ht) hs
  · obtain ⟨hp, hdec⟩ := byteComplete_dataIn hc ht (by rwa [hu.phase])
    exact ⟨hu.stb, hu.phase ▸ hp, hdec⟩

/-- Settles O43. With the peripheral on the wires every command has the effect of its description (`exec_eq_commandEffect`), whose master side names no register and which stores only for the five storing commands; at the pins, one inversion of the pin action says when a byte completes. -/
theorem displayRegistersAreWriteOnly : Obligations.DisplayRegistersAreWriteOnly := by
  refine ⟨?_, ?_, ?_, ?_, ?_⟩
  · intro i s t hr he hwrite hsegment hled hcleanup
    cases i with
    | construct =>
      obtain ⟨⟨hm, _⟩, _⟩ := hr
      simp [exec, execConstruct, hm] at he
    | write x v => exact absurd rfl (hwrite x v)
    | setSegmentValue x v => exact absurd rfl (hsegment x v)
    | setLedState x v => exact absurd rfl (hled x v)
    | cleanup => exact absurd rfl hcleanup
    | _ => exact exec_mem_of_not_storesRegisters hr rfl he
  · exact fun i s m hc ha hw => exec_command_ignores_registers hc ha hw m
  · exact fun i s m hw => exec_wire_ignores_registers hw s m
  · exact fun a s t h hm => pinAction_mem h hm
  · exact fun a s t h ht hs => pinAction_reaches_dataIn h ht hs

end Sys2Proof.Machine
end

section
/-! Positions and register addresses (30_encoding.md R99): no address computed from a legal position overflows, and the two commands with a position are WRITE at the computed address. -/

namespace Sys2Proof.Machine

/-- R99: the shift loses no bit of a legal position. -/
theorem toNat_segmentAddress {p : Byte} (hp : p.toNat ≤ 7) : (segmentAddress p).toNat = 2 * p.toNat := by
  rw [segmentAddress, BitVec.toNat_shiftLeft, Nat.shiftLeft_eq]
  omega

/-- R99: the increment after the shift does not wrap. -/
theorem toNat_ledAddress {p : Byte} (hp : p.toNat ≤ 7) : (ledAddress p).toNat = 2 * p.toNat + 1 := by
  rw [ledAddress_eq_add, BitVec.toNat_add, toNat_segmentAddress hp, BitVec.toNat_ofNat]
  omega

/-- The 4-bit field of a legal operand of WRITE loses nothing (R160). -/
theorem toNat_addressField {a : Byte} (ha : a.toNat ≤ 15) : (addressField a).toNat = a.toNat := by
  rw [addressField, BitVec.toNat_setWidth]
  omega

theorem positionTooBig_eq_false {p : Byte} (hp : p.toNat ≤ 7) : positionTooBig p = false :=
  decide_eq_false (Nat.not_lt.mpr hp)

theorem addressTooBig_eq_false {a : Byte} (ha : a.toNat ≤ 15) : addressTooBig a = false :=
  decide_eq_false (Nat.not_lt.mpr ha)

/-- WRITE with a legal address is the store, in a constructed master (R160). -/
theorem exec_write_of_le {a : Byte} (ha : a.toNat ≤ 15) (v : Byte) (s : State) :
    exec (.write a v) s = whenConstructed s (storeRegister a v s) := by
  simp only [exec, execWrite, addressTooBig_eq_false ha, Bool.false_eq_true, if_false]

/-- SET_SEGMENT_VALUE with a legal position stores at the digit's address (R161). -/
theorem exec_setSegmentValue_of_le {p : Byte} (hp : p.toNat ≤ 7) (v : Byte) (s : State) :
    exec (.setSegmentValue p v) s = whenConstructed s (storeRegister (segmentAddress p) v s) := by
  simp only [exec, execSetSegmentValue, positionTooBig_eq_false hp, Bool.false_eq_true, if_false]

/-- SET_LED_STATE with a legal position stores at the LED's address (R162). -/
theorem exec_setLedState_of_le {p : Byte} (hp : p.toNat ≤ 7) (v : Byte) (s : State) :
    exec (.setLedState p v) s = whenConstructed s (storeRegister (ledAddress p) v s) := by
  simp only [exec, execSetLedState, positionTooBig_eq_false hp, Bool.false_eq_true, if_false]

/-- Settles O7. The computed addresses are `2 * p` and `2 * p + 1`, so they pass WRITE's own range check, and the three commands store by the same operation. -/
theorem positionsGiveAddresses : Obligations.PositionsGiveAddresses := by
  intro p hp
  have hseg := toNat_segmentAddress hp
  have hled := toNat_ledAddress hp
  have hseg14 : (segmentAddress p).toNat ≤ 14 := by omega
  have hseg15 : (segmentAddress p).toNat ≤ 15 := by omega
  have hled15 : (ledAddress p).toNat ≤ 15 := by omega
  refine ⟨hseg, hseg14, hled, hled15, (toNat_addressField hseg15).trans hseg,
    (toNat_addressField hled15).trans hled, fun v s => ⟨?_, ?_⟩⟩
  · rw [exec_setSegmentValue_of_le hp, exec_write_of_le hseg15]
  · rw [exec_setLedState_of_le hp, exec_write_of_le hled15]

end Sys2Proof.Machine
end

section
/-! The bytes of 40_transport.md (R120, R124) whatever hangs on the wires: `write_byte` and `read_byte` change the pins and the trace as `State.wroteByte` and `State.readDone` say, and for the rest only the device. -/

namespace Sys2Proof.Machine

/-! ## What a sequence of pin actions shows and that it completes -/

/-- Only for a sample does the action leave open what is seen. -/
theorem PinEvent.eq_of_action_eq {e f : PinEvent} (h : e.action = f.action) (hs : f.action ≠ .sample) : e = f := by
  cases f with
  | sampled v => exact absurd rfl hs
  | _ =>
    cases e <;> cases h
    rfl

theorem PinEvent.eq_of_map_action_eq {es fs : List PinEvent} (h : es.map PinEvent.action = fs.map PinEvent.action)
    (hs : .sample ∉ fs.map PinEvent.action) : es = fs := by
  induction fs generalizing es with
  | nil => exact List.map_eq_nil_iff.mp h
  | cons f fs ih =>
    obtain ⟨e, es, rfl, he, hes⟩ := List.map_eq_cons_iff.mp h
    obtain ⟨hf, hfs⟩ := not_or.mp (mt List.mem_cons.mpr hs)
    rw [PinEvent.eq_of_action_eq he (Ne.symm hf), ih hes hfs]

/-- Only `DIR <- IN` makes an output an input. -/
theorem PinAction.onPins_output {a : PinAction} {p : Pins} (ha : a ≠ .dirIn) (hd : p.dir = .output) :
    (a.onPins p).dir = .output := by
  cases a with
  | dirIn => exact absurd rfl ha
  | dirOut => rfl
  | _ => exact hd

/-- With the peripheral not on the wires, pin actions of an output that stays one complete (R129). -/
theorem pinActions_output_runs {l : List PinAction} {s : State} (ha : s.attached ≠ .peripheral)
    (hd : s.pins.dir = .output) (hl : ∀ a ∈ l, a ≠ .sample ∧ a ≠ .dirIn) : ∃ t, pinActions l s = .next t := by
  induction l generalizing s with
  | nil => exact ⟨s, rfl⟩
  | cons a rest ih =>
    obtain ⟨⟨hsample, hin⟩, hrest⟩ := List.forall_mem_cons.mp hl
    obtain ⟨u, hu⟩ := pinAction_runs ha a (fun _ _ => hd) (fun h => absurd h hsample)
    have hm := pinAction_masterSide hu
    rw [pinActions, hu, andThen_next]
    exact ih (hm.attached ▸ ha) (hm.pins ▸ PinAction.onPins_output hin hd) hrest

/-! ## `write_byte` -/

theorem map_action_writeByteEvents (b : Byte) : (writeByteEvents b).map PinEvent.action = writeByteActions b := rfl

theorem writeByteActions_eq_flatMap (b : Byte) : writeByteActions b = (lsbFirst b).flatMap writeBitActions := rfl

/-- `write_byte` neither samples nor turns the pin round. -/
theorem writeByteActions_output {b : Byte} : ∀ a ∈ writeByteActions b, a ≠ .sample ∧ a ≠ .dirIn := by
  intro a ha
  rw [writeByteActions_eq_flatMap] at ha
  obtain ⟨v, _, hv⟩ := List.mem_flatMap.mp ha
  have hbit : ∀ a ∈ writeBitActions v, a ≠ .sample ∧ a ≠ .dirIn := by simp [writeBitActions]
  exact hbit a hv

theorem foldl_onPins_writeByteActions (b : Byte) (p : Pins) :
    (writeByteActions b).foldl (fun p a => a.onPins p) p = { p with clk := true, dio := b.getLsbD 7 } := by
  simp only [writeByteActions, writeBitActions, List.foldl_append, List.foldl_cons, List.foldl_nil, PinAction.onPins]

/-- R120, R121: the master's side of `write_byte(b)`. -/
theorem writeByte_deviceOnly {b : Byte} {s t : State} (h : writeByte b s = .next t) : DeviceOnly (s.wroteByte b) t := by
  have hm := pinActions_masterSides h
  obtain ⟨es, hes, htrace⟩ := hm.trace
  have hseen : es = writeByteEvents b := PinEvent.eq_of_map_action_eq (hes.trans (map_action_writeByteEvents b).symm)
    fun hmem => (writeByteActions_output _ hmem).1 rfl
  exact ⟨hm.params, hm.master, hm.pins.trans (foldl_onPins_writeByteActions b _), hm.attached, hm.sw,
    hm.unstable, hm.inputs, hm.wire, hm.results, htrace.trans (congrArg (s.trace ++ ·) hseen)⟩

theorem writeByte_runs {s : State} (ha : s.attached ≠ .peripheral) (hd : s.pins.dir = .output) (b : Byte) :
    ∃ t, writeByte b s = .next t := pinActions_output_runs ha hd writeByteActions_output

/-- Settles O23. The 24 actions hold no sample, so they determine the trace, and no `DIR <- IN`, so none is used against the contract of the pin. -/
theorem writeByteDrivesEightBits : Obligations.WriteByteDrivesEightBits := by
  intro b s hd
  refine ⟨fun ha => writeByte_runs ha hd b, fun t ht => ?_⟩
  have h := writeByte_deviceOnly ht
  exact ⟨h.trace, h.pins, h.master, h.params, h.results, h.inputs⟩

/-! ## `read_byte` -/

/-- One bit of `read_byte`: clock low, clock high, sample (R124). -/
def readBit (s : State) : Out (Bool × State) :=
  andThen (setClk false s) fun s1 => andThen (setClk true s1) sampleLine

/-- The loop of `read_byte` is one bit, ORed into the result at its index, and the rest. -/
theorem readByteLoop_succ (n k : Nat) (r : Byte) (s : State) :
    readByteLoop (n + 1) k r s =
      andThen (readBit s) fun v => readByteLoop n (k + 1) (r ||| ((BitVec.ofBool v.1).setWidth 8 <<< k)) v.2 := by
  simp only [readByteLoop, readBit, andThen_assoc]

/-- The master's side after one bit of `read_byte` that was sampled at `v`. -/
def State.heard (s : State) (v : Bool) : State :=
  { s with pins := { s.pins with clk := true }, trace := s.trace ++ readBitEvents v }

theorem DeviceOnly.log {s t : State} (h : DeviceOnly s t) (e : PinEvent) : DeviceOnly (s.log e) (t.log e) :=
  ⟨h.params, h.master, h.pins, h.attached, h.sw, h.unstable, h.inputs, h.wire, h.results, by simp [h.trace]⟩

theorem DeviceOnly.setPins {s t : State} (h : DeviceOnly s t) (p : Pins) : DeviceOnly (s.setPins p) (t.setPins p) :=
  ⟨h.params, h.master, rfl, h.attached, h.sw, h.unstable, h.inputs, h.wire, h.results, h.trace⟩

theorem DeviceOnly.foldl_heard {s t : State} (h : DeviceOnly s t) (vs : List Bool) :
    DeviceOnly (vs.foldl State.heard s) (vs.foldl State.heard t) := by
  induction vs generalizing s t with
  | nil => exact h
  | cons v vs ih =>
    exact ih ⟨h.params, h.master, by simp [State.heard, h.pins], h.attached, h.sw, h.unstable, h.inputs, h.wire,
      h.results, by simp [State.heard, h.trace]⟩

theorem foldl_heard (s : State) (v : Bool) (vs : List Bool) :
    (v :: vs).foldl State.heard s =
      { s with pins := { s.pins with clk := true }, trace := s.trace ++ (v :: vs).flatMap readBitEvents } := by
  induction vs generalizing s v with
  | nil => simp [State.heard]
  | cons w vs ih =>
    rw [List.foldl_cons, ih]
    simp [State.heard]

/-- An assignment of CLK, after what has so far concerned the device only. -/
theorem DeviceOnly.setClk {s t u : State} {v : Bool} (hs : DeviceOnly s t) (h : setClk v t = .next u) :
    DeviceOnly ((s.setPins { s.pins with clk := v }).log (.clk v)) u := by
  refine .trans ((hs.setPins _).log _) ?_
  rw [← hs.pins]
  unfold Machine.setClk at h
  dsimp only at h
  split at h
  · cases h; exact .refl _
  · exact clkEdge_deviceOnly h

/-- A sample is taken of an input only, and it alone is seen. -/
theorem sampleLine_eq_next {s : State} {x : Bool × State} :
    sampleLine s = .next x ↔ s.pins.dir = .input ∧ x = (s.line, s.log (.sampled s.line)) := by
  unfold sampleLine
  cases s.pins.dir <;> simp [eq_comm]

theorem readBit_deviceOnly {s : State} {x : Bool × State} (h : readBit s = .next x) : DeviceOnly (s.heard x.1) x.2 := by
  obtain ⟨u, hlow, h⟩ := andThen_eq_next.mp h
  obtain ⟨w, hhigh, h⟩ := andThen_eq_next.mp h
  obtain ⟨_, rfl⟩ := sampleLine_eq_next.mp h
  have hclk := ((DeviceOnly.refl s).setClk hlow).setClk hhigh
  simpa [State.heard, State.setPins, State.log, readBitEvents] using hclk.log (.sampled w.line)

theorem readBit_runs {s : State} (ha : s.attached ≠ .peripheral) (hd : s.pins.dir = .input) :
    ∃ x, readBit s = .next x := by
  have hclk (t : State) (ht : t.attached ≠ .peripheral) (v : Bool) : ∃ u, setClk v t = .next u :=
    pinAction_runs ht (.clk v) (fun _ h => nomatch h) (fun h => nomatch h)
  obtain ⟨u, hlow⟩ := hclk s ha false
  have hu := (DeviceOnly.refl s).setClk hlow
  obtain ⟨w, hhigh⟩ := hclk u (hu.attached ▸ ha) true
  have hw : w.pins.dir = .input := by rw [(hu.setClk hhigh).pins]; exact hd
  exact ⟨_, by rw [readBit, hlow, andThen_next, hhigh, andThen_next]; exact sampleLine_eq_next.mpr ⟨hw, rfl⟩⟩

/-- The levels `vs` ORed into `r` from index `k` on (R124). -/
def placeSamples : Nat → Byte → List Bool → Byte
  | _, r, [] => r
  | k, r, v :: vs => placeSamples (k + 1) (r ||| ((BitVec.ofBool v).setWidth 8 <<< k)) vs

/-- Eight levels placed in a zero byte are its bits. -/
theorem lsbFirst_placeSamples {vs : List Bool} (h : vs.length = 8) : lsbFirst (placeSamples 0 0#8 vs) = vs := by
  match vs, h with
  | [v0, v1, v2, v3, v4, v5, v6, v7], _ => simp [placeSamples, lsbFirst]

/-- The loop of `read_byte` collects one level a bit in its result, and each is seen. -/
theorem readByteLoop_deviceOnly {n k : Nat} {r : Byte} {s : State} {x : Byte × State}
    (h : readByteLoop n k r s = .next x) :
    ∃ vs : List Bool, vs.length = n ∧ x.1 = placeSamples k r vs ∧ DeviceOnly (vs.foldl State.heard s) x.2 := by
  induction n generalizing k r s with
  | zero => cases h; exact ⟨[], rfl, rfl, .refl s⟩
  | succ n ih =>
    rw [readByteLoop_succ] at h
    obtain ⟨⟨v, u⟩, hbit, h⟩ := andThen_eq_next.mp h
    obtain ⟨vs, hlen, hval, hdev⟩ := ih h
    exact ⟨v :: vs, congrArg (· + 1) hlen, hval, .trans ((readBit_deviceOnly hbit).foldl_heard vs) hdev⟩

theorem readByteLoop_runs {s : State} (ha : s.attached ≠ .peripheral) (hd : s.pins.dir = .input) (n k : Nat) (r : Byte) :
    ∃ x, readByteLoop n k r s = .next x := by
  induction n generalizing s k r with
  | zero => exact ⟨_, rfl⟩
  | succ n ih =>
    obtain ⟨x, hx⟩ := readBit_runs ha hd
    have h := readBit_deviceOnly hx
    rw [readByteLoop_succ, hx, andThen_next]
    exact ih (h.attached ▸ ha) (h.pins ▸ hd) _ _

/-- R125: the eight levels seen are the bits of the result. -/
theorem readByteLoop_eight_deviceOnly {s : State} {x : Byte × State} (h : readByteLoop 8 0 0#8 s = .next x) :
    DeviceOnly { s with pins := { s.pins with clk := true }
                        trace := s.trace ++ (lsbFirst x.1).flatMap readBitEvents } x.2 := by
  obtain ⟨vs, hlen, hval, hdev⟩ := readByteLoop_deviceOnly h
  have hvs : vs = lsbFirst x.1 := by rw [hval, lsbFirst_placeSamples hlen]
  rwa [hvs, lsbFirst, foldl_heard] at hdev

/-- `DIR <- OUT`, after what has so far concerned the device only. -/
theorem DeviceOnly.setDirOut {s t u : State} (hs : DeviceOnly s t) (h : setDirOut t = .next u) :
    DeviceOnly ((s.setPins { s.pins with dir := .output }).log .dirOut) u := by
  cases h
  rw [hs.pins]
  exact ((hs.setPins _).trans (deviceOnly_setHarness _ _)).log _

theorem readByteEvents_eq_flatMap (r : Byte) :
    readByteEvents r = .dirIn :: (lsbFirst r).flatMap readBitEvents ++ [.dirOut] := rfl

/-- R124, R125: the master's side of `read_byte()` that has returned `r`. -/
theorem readByte_deviceOnly {s t : State} {r : Byte} (h : readByte s = .next (r, t)) : DeviceOnly (s.readDone r) t := by
  rw [readByte, setDirIn, andThen_next] at h
  obtain ⟨⟨r', w⟩, hloop, h⟩ := andThen_eq_next.mp h
  obtain ⟨u, hout, h⟩ := andThen_eq_next.mp h
  cases h
  have hdone := (readByteLoop_eight_deviceOnly hloop).setDirOut hout
  exact ⟨hdone.params, hdone.master, hdone.pins, hdone.attached, hdone.sw, hdone.unstable, hdone.inputs, hdone.wire,
    hdone.results, hdone.trace.trans (by simp [State.readDone, readByteEvents_eq_flatMap])⟩

theorem readByte_runs {s : State} (ha : s.attached ≠ .peripheral) : ∃ x, readByte s = .next x := by
  obtain ⟨x, hx⟩ := readByteLoop_runs (s := (s.setPins { s.pins with dir := .input }).log .dirIn) ha rfl 8 0 0#8
  exact ⟨_, by rw [readByte, setDirIn, andThen_next, hx]; rfl⟩

/-- Settles O24. Each of the eight rounds adds one sampled level to the trace and to the result, and for the rest only the device changes; the pin is an input all the while, so every sample keeps its contract. -/
theorem readByteSamplesEightBits : Obligations.ReadByteSamplesEightBits := by
  refine fun s => ⟨readByte_runs, fun r t ht => ?_⟩
  have h := readByte_deviceOnly ht
  exact ⟨h.trace, h.pins, h.master, h.params, h.results, h.inputs⟩

end Sys2Proof.Machine
end

section
/-! Framing (41_framing.md R142, R145, R146) whatever hangs on the wires: a window is a row of pin actions, so what the master shows of a transaction is the row's, and the rest is the device's. -/

namespace Sys2Proof.Machine

/-! ## Rows of pin actions that hold no sample -/

/-- The master's side of `s` after the events `es`. -/
def State.showed (s : State) (es : List PinEvent) : State :=
  { s with pins := (es.map PinEvent.action).foldl (fun p a => a.onPins p) s.pins, trace := s.trace ++ es }

/-- Without a sample the pin actions determine all that is seen. -/
theorem pinActions_deviceOnly {es : List PinEvent} {s t : State} (hes : .sample ∉ es.map PinEvent.action)
    (h : pinActions (es.map PinEvent.action) s = .next t) : DeviceOnly (s.showed es) t := by
  have hm := pinActions_masterSides h
  obtain ⟨fs, hfs, htrace⟩ := hm.trace
  rw [PinEvent.eq_of_map_action_eq hfs hes] at htrace
  exact ⟨hm.params, hm.master, hm.pins, hm.attached, hm.sw, hm.unstable, hm.inputs, hm.wire, hm.results, htrace⟩

theorem pinActions_singleton (a : PinAction) (s : State) : pinActions [a] s = pinAction a s := by
  simp only [pinActions]
  cases pinAction a s <;> rfl

/-- Events of pin actions that neither sample nor turn the pin round. -/
def OutputOnly (es : List PinEvent) : Prop := ∀ a ∈ es.map PinEvent.action, a ≠ .sample ∧ a ≠ .dirIn

theorem OutputOnly.no_sample {es : List PinEvent} (h : OutputOnly es) : .sample ∉ es.map PinEvent.action :=
  fun hmem => (h _ hmem).1 rfl

theorem OutputOnly.append {es fs : List PinEvent} (he : OutputOnly es) (hf : OutputOnly fs) : OutputOnly (es ++ fs) := by
  rw [OutputOnly, List.map_append, List.forall_mem_append]
  exact ⟨he, hf⟩

theorem OutputOnly.window {es : List PinEvent} (h : OutputOnly es) : OutputOnly (windowEvents es) := by
  have hstb (v : Bool) : OutputOnly [.stb v] := by simp [OutputOnly, PinEvent.action]
  exact ((hstb false).append h).append (hstb true)

theorem outputOnly_writeByteEvents (b : Byte) : OutputOnly (writeByteEvents b) := writeByteActions_output

theorem outputOnly_flatMap_writeByteEvents (ds : List Byte) : OutputOnly (ds.flatMap writeByteEvents) := by
  induction ds with
  | nil => exact List.forall_mem_nil _
  | cons d rest ih => exact (outputOnly_writeByteEvents d).append ih

theorem outputOnly_instructionEvents (c : Byte) : OutputOnly (instructionEvents c) :=
  (outputOnly_writeByteEvents c).window

theorem outputOnly_writeTransactionEvents (p : Params) (a : Addr) (ds : List Byte) :
    OutputOnly (writeTransactionEvents p a ds) :=
  (outputOnly_instructionEvents _).append (outputOnly_flatMap_writeByteEvents _).window

/-! ## Transactions as rows of pin actions -/

theorem window_eq_pinActions (es : List PinEvent) (s : State) :
    window (pinActions (es.map PinEvent.action)) s = pinActions ((windowEvents es).map PinEvent.action) s := by
  rw [windowEvents, List.map_append, List.map_cons, List.cons_append, pinActions, window]
  refine congrArg (andThen (setStb false s)) (funext fun u => ?_)
  rw [pinActions_append]
  exact congrArg _ (funext fun v => (pinActions_singleton (.stb true) v).symm)

theorem pushInstruction_eq_pinActions (c : Byte) (s : State) :
    pushInstruction c s = pinActions ((instructionEvents c).map PinEvent.action) s :=
  window_eq_pinActions (writeByteEvents c) s

theorem writeBytes_eq_pinActions (ds : List Byte) (s : State) :
    writeBytes ds s = pinActions ((ds.flatMap writeByteEvents).map PinEvent.action) s := by
  induction ds generalizing s with
  | nil => rfl
  | cons d rest ih =>
    rw [List.flatMap_cons, List.map_append, pinActions_append, map_action_writeByteEvents, writeBytes, writeByte]
    exact congrArg _ (funext ih)

/-- The second window is built from the same opcode constants as the first: no pin action changes them. -/
theorem openWriteTransaction_eq_pinActions (a : Addr) (ds : List Byte) (s : State) :
    openWriteTransaction a ds s = pinActions ((writeTransactionEvents s.params a ds).map PinEvent.action) s := by
  rw [writeTransactionEvents, List.map_append, pinActions_append, openWriteTransaction, pushDataWriteInstr,
    pushInstruction_eq_pinActions]
  cases h : pinActions ((instructionEvents (dataWriteCode s.params)).map PinEvent.action) s with
  | next u =>
    rw [andThen_next, andThen_next, (pinActions_masterSides h).params, ← window_eq_pinActions]
    exact congrArg (window · u) (funext (writeBytes_eq_pinActions _))
  | fault => rfl
  | refused => rfl

/-! ## `push_instruction` -/

theorem pushInstruction_deviceOnly {c : Byte} {s t : State} (h : pushInstruction c s = .next t) :
    DeviceOnly (s.showed (instructionEvents c)) t :=
  pinActions_deviceOnly (outputOnly_instructionEvents c).no_sample (pushInstruction_eq_pinActions c s ▸ h)

theorem pushInstruction_runs {s : State} (ha : s.attached ≠ .peripheral) (hd : s.pins.dir = .output) (c : Byte) :
    ∃ t, pushInstruction c s = .next t := by
  rw [pushInstruction_eq_pinActions]
  exact pinActions_output_runs ha hd (outputOnly_instructionEvents c)

theorem showed_instructionEvents_pins (s : State) (c : Byte) :
    (s.showed (instructionEvents c)).pins = { s.pins with stb := true, clk := true, dio := c.getLsbD 7 } := rfl

theorem length_instructionEvents (c : Byte) : (instructionEvents c).length = 26 := rfl

/-- Settles O25. The window is 26 pin actions of an output; they hold no sample, so they determine the trace and the pins. -/
theorem pushInstructionIsOneWindow : Obligations.PushInstructionIsOneWindow := by
  intro c s _ hd
  refine ⟨fun ha => pushInstruction_runs ha hd c, fun t ht => ?_⟩
  have h := pushInstruction_deviceOnly ht
  have htrace : t.trace = s.trace ++ instructionEvents c := h.trace
  refine ⟨?_, ?_, ?_, h.master, h.params, h.results, h.inputs⟩
  · rw [htrace, instructionEvents, windowEvents]
    simp only [List.append_assoc, List.cons_append, List.nil_append]
  · rw [htrace, List.length_append, length_instructionEvents]
  · rw [h.pins, showed_instructionEvents_pins, ← hd]

/-! ## The display-control instruction and the other transactions of its callers -/

/-- `push_display_ctrl_instr()` always sends its instruction (R144, R145): the peripheral accepts it, and nothing else on the wires stops it. -/
theorem pushDisplayCtrlInstr_sends {s : State} (hv : s.params.valid = true) (hs : s.pins.stb = true)
    (hd : s.pins.dir = .output) :
    ∃ t, pushDisplayCtrlInstr s = .next t ∧ DeviceOnly (s.showed (instructionEvents (mirrorCode s))) t := by
  have hruns : ∃ t, pushDisplayCtrlInstr s = .next t := by
    by_cases ha : s.attached = .peripheral
    · exact ⟨_, pushDisplayCtrlInstr_peripheral ⟨Params.constraints hv, ha, hs, hd⟩⟩
    · exact pushInstruction_runs ha hd _
  obtain ⟨t, ht⟩ := hruns
  exact ⟨t, ht, pushInstruction_deviceOnly ht⟩

/-- A write transaction of one or more bytes always goes through (R146). -/
theorem openWriteTransaction_sends {s : State} (hv : s.params.valid = true) (hs : s.pins.stb = true)
    (hd : s.pins.dir = .output) (a : Addr) {ds : List Byte} (hds : ds ≠ []) :
    ∃ t, openWriteTransaction a ds s = .next t ∧ DeviceOnly (s.showed (writeTransactionEvents s.params a ds)) t := by
  have hout := outputOnly_writeTransactionEvents s.params a ds
  have hruns : ∃ t, openWriteTransaction a ds s = .next t := by
    by_cases ha : s.attached = .peripheral
    · exact ⟨_, openWriteTransaction_peripheral ⟨Params.constraints hv, ha, hs, hd⟩ a hds⟩
    · rw [openWriteTransaction_eq_pinActions]
      exact pinActions_output_runs ha hd hout
  obtain ⟨t, ht⟩ := hruns
  exact ⟨t, ht, pinActions_deviceOnly hout.no_sample (openWriteTransaction_eq_pinActions a ds s ▸ ht)⟩

/-- CONSTRUCT's four pin actions complete from any pin levels (R280): the pin is an output before DIO is driven. -/
theorem initPins_runs (s : State) : ∃ t, initPins s = .next t := by
  by_cases ha : s.attached = .peripheral
  · exact ⟨_, initPins_peripheral ha⟩
  · obtain ⟨u, hu⟩ := pinAction_runs ha (.stb true) (fun _ h => nomatch h) (fun h => nomatch h)
    have hua : u.attached ≠ .peripheral := (pinAction_masterSide hu).attached ▸ ha
    obtain ⟨w, hw⟩ := pinAction_runs hua (.clk false) (fun _ h => nomatch h) (fun h => nomatch h)
    exact ⟨_, by rw [initPins, pinActions, hu, andThen_next, pinActions, hw, andThen_next]; rfl⟩

theorem initPins_sends (s : State) :
    ∃ t, initPins s = .next t ∧ DeviceOnly (s.showed [.stb true, .clk false, .dirOut, .dio false]) t := by
  obtain ⟨t, ht⟩ := initPins_runs s
  exact ⟨t, ht, pinActions_deviceOnly (by decide) ht⟩

/-- CONSTRUCT is the pin actions, the display-control instruction with on and 7, and the transactions of CLEANUP (R280). -/
theorem exec_construct_eq {s : State} (hc : s.master.constructed = false) :
    exec .construct s =
      andThen (initPins s) fun s1 =>
      andThen (pushDisplayCtrlInstr ((s1.setDisplayEnabled true).setBrightness 7#3).setConstructed) fun s2 =>
      andThen (clearRegisters s2) (returnOk 0#32) := by
  rw [exec, execConstruct, hc]
  rfl

/-- CONSTRUCT goes through from any pin levels, and all it puts on the wires (R110, R280). -/
theorem exec_construct_sends {s : State} (hc : s.master.constructed = false) (hv : s.params.valid = true) :
    ∃ t, exec .construct s = .next t ∧
      t.trace = s.trace ++ [.stb true, .clk false, .dirOut, .dio false] ++
        instructionEvents (displayCtrlCode s.params true 7#3) ++ cleanupEvents s.params := by
  obtain ⟨s1, hrun1, h1⟩ := initPins_sends s
  have hpar1 : s1.params = s.params := h1.params
  have hpins1 : s1.pins = { stb := true, clk := false, dir := .output, dio := false } := h1.pins
  obtain ⟨s2, hrun2, h2⟩ := pushDisplayCtrlInstr_sends
    (s := ((s1.setDisplayEnabled true).setBrightness 7#3).setConstructed) (hpar1 ▸ hv)
    (congrArg Pins.stb hpins1) (congrArg Pins.dir hpins1)
  have hpar2 : s2.params = s.params := h2.params.trans hpar1
  have hdir2 : s2.pins.dir = .output := (congrArg Pins.dir h2.pins).trans (congrArg Pins.dir hpins1)
  obtain ⟨s3, hrun3, h3⟩ := openWriteTransaction_sends (hpar2 ▸ hv) (congrArg Pins.stb h2.pins) hdir2 0#4
    (ds := cleanupPayload) (List.cons_ne_nil _ _)
  rw [exec_construct_eq hc, hrun1, andThen_next, hrun2, andThen_next, clearRegisters, hrun3, andThen_next]
  refine ⟨_, rfl, ?_⟩
  have htrace1 : s1.trace = s.trace ++ [.stb true, .clk false, .dirOut, .dio false] := h1.trace
  have htrace2 : s2.trace = s1.trace ++ instructionEvents (displayCtrlCode s1.params true 7#3) := h2.trace
  have htrace3 : s3.trace = s2.trace ++ cleanupEvents s2.params := h3.trace
  rw [State.giveResult_trace, htrace3, htrace2, htrace1, hpar2, hpar1]

/-- DISPLAY_ON, DISPLAY_OFF and a legal SET_BRIGHTNESS write the mirror and send it, without a look at its old value (R145). -/
theorem exec_displayControl {i : Instr} {s : State}
    (hi : i = .displayOn ∨ i = .displayOff ∨ ∃ l : Byte, l.toNat ≤ 7 ∧ i = .setBrightness l)
    (hc : s.master.constructed = true) :
    ∃ m : Master, exec i s = andThen (pushDisplayCtrlInstr { s with master := m }) (returnOk 0#32) := by
  obtain rfl | rfl | ⟨l, hl, rfl⟩ := hi
  · exact ⟨{ s.master with displayEnabled := true }, whenConstructed_of_constructed hc _⟩
  · exact ⟨{ s.master with displayEnabled := false }, whenConstructed_of_constructed hc _⟩
  · have hlevel : levelTooBig l = false := decide_eq_false (Nat.not_lt.mpr hl)
    refine ⟨{ s.master with brightness := levelField l }, ?_⟩
    rw [exec, execSetBrightness, whenConstructed_of_constructed hc, hlevel]
    rfl

/-- Settles O42. Each caller comes to `push_display_ctrl_instr` by no test of the mirror, and that puts its one window on the wires whatever hangs there; the master written before it is the one the command leaves. -/
theorem displayControlIsAlwaysSent : Obligations.DisplayControlIsAlwaysSent := by
  refine ⟨fun i s hi ⟨hc, hv, hs, hd⟩ => ?_, fun s ⟨hv, hfirst, _⟩ => ?_⟩
  · obtain ⟨m, hexec⟩ := exec_displayControl hi hc
    obtain ⟨t, ht, h⟩ := pushDisplayCtrlInstr_sends (s := { s with master := m }) hv hs hd
    rw [hexec, ht, andThen_next]
    refine ⟨_, rfl, ?_⟩
    rw [State.giveResult_trace, State.giveResult_master, h.trace, h.master]
    rfl
  · obtain ⟨t, ht, htrace⟩ := exec_construct_sends (hfirst rfl) hv
    exact ⟨t, cleanupEvents s.params, ht, htrace⟩

end Sys2Proof.Machine
end

section
/-! The loop of a scan (43_key_scan.md R191): the word of four bytes has them as its key bytes, so the accumulator, which places byte i as byte i, ends at that word. -/

namespace Sys2Proof.Machine

/-- The bytes of an append of four, counted from the least significant. -/
theorem keyByte_append (k0 k1 k2 k3 : Byte) :
    keyByte (k3 ++ k2 ++ k1 ++ k0) 0 = k0 ∧ keyByte (k3 ++ k2 ++ k1 ++ k0) 1 = k1 ∧
    keyByte (k3 ++ k2 ++ k1 ++ k0) 2 = k2 ∧ keyByte (k3 ++ k2 ++ k1 ++ k0) 3 = k3 := by
  refine ⟨?_, ?_, ?_, ?_⟩
  · exact BitVec.extractLsb'_append_eq_right
  · rw [keyByte, BitVec.extractLsb'_append_eq_of_le (by decide)]
    exact BitVec.extractLsb'_append_eq_right
  · rw [keyByte, BitVec.extractLsb'_append_eq_of_le (by decide), BitVec.extractLsb'_append_eq_of_le (by decide)]
    exact BitVec.extractLsb'_append_eq_right
  · rw [keyByte, BitVec.extractLsb'_append_eq_of_le (by decide), BitVec.extractLsb'_append_eq_of_le (by decide)]
    exact BitVec.extractLsb'_append_eq_left

/-- Four bytes placed at offsets 0, 8, 16 and 24 of the zero word are their append, the last one placed on top (R191). -/
theorem placeKeyByte_four (k0 k1 k2 k3 : Byte) :
    placeKeyByte (placeKeyByte (placeKeyByte (placeKeyByte 0#32 0 k0) 1 k1) 2 k2) 3 k3 = k3 ++ k2 ++ k1 ++ k0 := by
  obtain ⟨h0, h1, h2, h3⟩ := keyByte_append k0 k1 k2 k3
  have h := placeKeyBytes (k3 ++ k2 ++ k1 ++ k0)
  rwa [h0, h1, h2, h3] at h

/-- One turn of the loop, when the byte is read. -/
theorem readBytes_succ {s t : State} {b : Byte} (h : readByte s = .next (b, t)) (n i : Nat) (w : ScanWord) :
    readBytes (n + 1) i w s = readBytes n (i + 1) (placeKeyByte w i b) t := by
  rw [readBytes, h, andThen_next]

/-- The four turns of the loop of a scan. -/
theorem readBytes_four {s s1 s2 s3 s4 : State} {k0 k1 k2 k3 : Byte} (h0 : readByte s = .next (k0, s1))
    (h1 : readByte s1 = .next (k1, s2)) (h2 : readByte s2 = .next (k2, s3)) (h3 : readByte s3 = .next (k3, s4)) :
    readBytes 4 0 0#32 s = .next (k3 ++ k2 ++ k1 ++ k0, s4) := by
  rw [readBytes_succ h0, readBytes_succ h1, readBytes_succ h2, readBytes_succ h3, readBytes, placeKeyByte_four]

/-- Settles O8. The loop places byte i at offset 8i, which makes the append of the four; bit `8i + j` of a word is bit j of its key byte i. -/
theorem keyBytesArePlaced : Obligations.KeyBytesArePlaced := by
  intro k0 k1 k2 k3
  refine ⟨fun _ _ _ _ _ => readBytes_four, fun j hj => ?_⟩
  have hbit := fun i => (getLsbD_keyByte (k3 ++ k2 ++ k1 ++ k0) i j hj).symm
  obtain ⟨h0, h1, h2, h3⟩ := keyByte_append k0 k1 k2 k3
  refine ⟨?_, ?_, ?_, ?_⟩
  · simpa only [h0, Nat.mul_zero, Nat.zero_add] using hbit 0
  · simpa only [h1] using hbit 1
  · simpa only [h2] using hbit 2
  · simpa only [h3] using hbit 3

end Sys2Proof.Machine
end

section
/-! The mirror after CONSTRUCT (70_reset_and_hazards.md R280, R282): a transaction is a row of pin actions, which leaves the master's registers alone, so they stay as CONSTRUCT writes them. -/

namespace Sys2Proof.Machine

theorem pushDisplayCtrlInstr_master {s t : State} (h : pushDisplayCtrlInstr s = .next t) : t.master = s.master :=
  (pushInstruction_deviceOnly h).master

theorem openWriteTransaction_master {a : Addr} {ds : List Byte} {s t : State}
    (h : openWriteTransaction a ds s = .next t) : t.master = s.master :=
  (pinActions_masterSides (openWriteTransaction_eq_pinActions a ds s ▸ h)).master

theorem clearRegisters_master {s t : State} (h : clearRegisters s = .next t) : t.master = s.master :=
  openWriteTransaction_master h

/-- Whenever CONSTRUCT goes on, with any device on the wires and any opcode constants, it leaves its own three values in the master (R280, R282). -/
theorem exec_construct_master {s t : State} (hc : s.master.constructed = false) (h : exec .construct s = .next t) :
    t.master = { constructed := true, displayEnabled := true, brightness := 7#3 } := by
  rw [exec_construct_eq hc] at h
  obtain ⟨s1, -, h⟩ := andThen_eq_next.mp h
  obtain ⟨s2, hpush, h⟩ := andThen_eq_next.mp h
  obtain ⟨s3, hclear, hreturn⟩ := andThen_eq_next.mp h
  rw [returnOk_eq_next.mp hreturn, State.giveResult_master, clearRegisters_master hclear,
    pushDisplayCtrlInstr_master hpush]
  rfl

/-- Settles O38. CONSTRUCT always goes through, and what it writes to the mirror before its first window is still there at its end. -/
theorem constructSetsTheDefaults : Obligations.ConstructSetsTheDefaults := by
  intro s hc hv
  obtain ⟨t, ht, -⟩ := exec_construct_sends hc hv
  have hm := exec_construct_master hc ht
  exact ⟨t, ht, congrArg Master.displayEnabled hm, congrArg Master.brightness hm, congrArg Master.constructed hm⟩

end Sys2Proof.Machine
end

section
/-! Encoding and decoding are inverse (30_encoding.md sections 1 to 5), for wire bytes under R92 and for command words. -/

namespace Sys2Proof

/-! ## Command words -/

theorem noOperand_eq_ok {a b : Byte} {i j : Instr} : noOperand a b i = .ok j ↔ (a = 0#8 ∧ b = 0#8) ∧ i = j := by
  unfold noOperand
  split <;> simp [*]

theorem operandA_eq_ok {b : Byte} {i j : Instr} : operandA b i = .ok j ↔ b = 0#8 ∧ i = j := by
  unfold operandA
  split <;> simp [*]

theorem noOperand_eq_error {a b : Byte} {i : Instr} : (∃ r, noOperand a b i = .error r) ↔ (a ≠ 0#8 ∨ b ≠ 0#8) := by
  unfold noOperand
  split <;> simp_all [imp_iff_not_or]

theorem operandA_eq_error {b : Byte} {i : Instr} : (∃ r, operandA b i = .error r) ↔ b ≠ 0#8 := by
  unfold operandA
  split <;> simp_all

/-- A command is what its 24-bit word decodes to (R102). -/
theorem decode_encode_command (p : Params) {i : Instr} (hi : i.isWire = false) : decode p (encode p i) = .ok i := by
  cases i with
  | displayCtrl | dataWrite | dataRead | setAddress => nomatch hi
  | _ => simp [encode, decode, decodeCommand, cmdOp_cmdWord, cmdA_cmdWord, cmdB_cmdWord, noOperand, operandA]

/-- A word that decodes is the word of the command it decodes to (R101, R102). -/
theorem encode_decodeCommand (p : Params) {w : CmdWord} {i : Instr} (h : decodeCommand w = .ok i) :
    encode p i = .command w := by
  have hop {n : Nat} (hn : (cmdOp w).toNat = n) : cmdOp w = BitVec.ofNat 8 n := by
    rw [← hn, BitVec.ofNat_toNat, BitVec.setWidth_eq]
  rw [← cmdWord_fields w]
  unfold decodeCommand at h
  dsimp only at h
  split at h
  case h_11 => nomatch h
  case h_5 hn | h_6 hn | h_10 hn => cases h; rw [hop hn]; rfl
  case h_4 hn => obtain ⟨hb, rfl⟩ := operandA_eq_ok.mp h; rw [hop hn, hb]; rfl
  all_goals
    rename_i hn
    obtain ⟨⟨ha, hb⟩, rfl⟩ := noOperand_eq_ok.mp h
    rw [hop hn, ha, hb]
    rfl

/-- A command word yields commands only (R102). -/
theorem isWire_of_decodeCommand {w : CmdWord} {i : Instr} (h : decodeCommand w = .ok i) : i.isWire = false := by
  have he := encode_decodeCommand Params.default h
  cases i with
  | displayCtrl | dataWrite | dataRead | setAddress => nomatch he
  | _ => rfl

/-! ## Wire bytes -/

/-- A wire instruction is what its opcode byte decodes to, when the four opcode sets are disjoint (R92). -/
theorem decode_encode_wire {p : Params} (h : p.Constraints) {i : Instr} (hi : i.isWire = true) :
    decode p (encode p i) = .ok i := by
  cases i with
  | displayCtrl en bright => exact decodeWire_displayCtrlCode h en bright
  | dataWrite => exact decodeWire_dataWriteCode h
  | dataRead => exact decodeWire_dataReadCode h
  | setAddress a => exact decodeWire_addressCode h a
  | _ => nomatch hi

theorem displayCtrlCode_of_inDC {p : Params} {en : Bool} {c : Byte} (h : inDC p en c = true) :
    displayCtrlCode p en (c.setWidth 3) = c := by
  rw [displayCtrlCode, ← eq_of_beq h, clearLow3_or_field]

theorem addressCode_of_inAD {p : Params} {c : Byte} (h : inAD p c = true) : addressCode p (c.setWidth 4) = c := by
  rw [addressCode, ← eq_of_beq h, clearLow4_or_field]

/-- A byte that decodes is the opcode of the instruction it decodes to, under any assignment of the constants. -/
theorem encode_decodeWire {p : Params} {c : Byte} {i : Instr} (h : decodeWire p c = .ok i) : encode p i = .wire c := by
  unfold decodeWire at h
  split at h
  case isTrue hon => cases h; exact congrArg _ (displayCtrlCode_of_inDC hon)
  split at h
  case isTrue hoff => cases h; exact congrArg _ (displayCtrlCode_of_inDC hoff)
  split at h
  case isTrue had => cases h; exact congrArg _ (addressCode_of_inAD had)
  split at h
  case isTrue hw => cases h; exact congrArg _ hw.symm
  split at h
  case isTrue hr => cases h; exact congrArg _ hr.symm
  nomatch h

/-! ## The whole decoder -/

/-- Settles O1. A wire instruction comes back because its opcode lies in one of four disjoint sets with its operand in clear bits (R92), a command because the three bytes of its word come apart. -/
theorem encodedInstructionsDecode : Obligations.EncodedInstructionsDecode := by
  intro p hp i
  cases hi : i.isWire with
  | true => exact decode_encode_wire (Params.constraints hp) hi
  | false => exact decode_encode_command p hi

/-- Settles O2. Each test of the decoder fixes the bits above the operand field, and the operand is the rest. -/
theorem decodedBitsAreTheEncoding : Obligations.DecodedBitsAreTheEncoding := by
  intro p e i h
  cases e with
  | wire c => exact encode_decodeWire h
  | command w => exact encode_decodeCommand p h

/-- The table's numbering of bits loses nothing (R104). -/
theorem decodeBits_tableWord (p : Params) (e : Encoded) : decodeBits p e.tableWord.1 e.tableWord.2 = decode p e := by
  cases e <;> simp [Encoded.tableWord, decodeBits, decode]

/-- Settles O3. The default constants meet R92. -/
theorem tableWordsDecode : Obligations.TableWordsDecode := by
  intro i
  rw [decodeTableWord, decodeBits_tableWord, encodedInstructionsDecode Params.default (by decide) i]

/-- Settles O4, by running the decoder on every byte. -/
theorem reservedWireBytes : Obligations.ReservedWireBytes := by
  unfold Obligations.ReservedWireBytes
  decide

/-- Settles O5: op by op, along the rows of R102. -/
theorem reservedCommandWords : Obligations.ReservedCommandWords := by
  intro w
  unfold decodeCommand
  dsimp only
  split
  case h_11 h0 h1 h2 h3 h4 h5 h6 h7 h8 h9 =>
    have hop : (cmdOp w).toNat > 0x09 := by
      by_contra hle
      interval_cases hn : (cmdOp w).toNat <;> contradiction
    exact iff_of_true ⟨_, rfl⟩ (.inl hop)
  all_goals
    rename_i hn
    simp [hn, noOperand_eq_error, operandA_eq_error]

/-- Settles O6, by running the decoder on the ten words. -/
theorem writtenOutWordsDecode : Obligations.WrittenOutWordsDecode := by
  unfold Obligations.WrittenOutWordsDecode
  decide

end Sys2Proof
end

section
/-! The wires and the host side of the machine are apart: no pin action and no change of power reads the master's registers, the pin actions still to come or the results, so replacing these commutes with it. And the free-value counter never goes down. -/

namespace Sys2Proof.Machine

/-! ## What the wires do not read -/

/-- The master's registers, the pending pin actions and the results replaced, everything on the wires as before. -/
def State.withHost (s : State) (m : Master) (w : List PinAction) (r : List Result) : State :=
  { s with master := m, wire := w, results := r }

@[simp] theorem State.withHost_pins (s : State) (m : Master) (w : List PinAction) (r : List Result) :
    (s.withHost m w r).pins = s.pins := rfl
@[simp] theorem State.withHost_attached (s : State) (m : Master) (w : List PinAction) (r : List Result) :
    (s.withHost m w r).attached = s.attached := rfl
@[simp] theorem State.withHost_per (s : State) (m : Master) (w : List PinAction) (r : List Result) :
    (s.withHost m w r).per = s.per := rfl
@[simp] theorem State.withHost_harness (s : State) (m : Master) (w : List PinAction) (r : List Result) :
    (s.withHost m w r).harness = s.harness := rfl
@[simp] theorem State.withHost_contended (s : State) (m : Master) (w : List PinAction) (r : List Result) :
    (s.withHost m w r).contended = s.contended := rfl

/-- `F` neither reads nor writes the host side. -/
def HostFree (F : State → Out State) : Prop :=
  ∀ s m w r, F (s.withHost m w r) = andThen (F s) fun t => .next (t.withHost m w r)

/-- A case split of a computation on a value that the host side does not enter. -/
theorem andThen_ite {α β : Type} {c : Prop} [Decidable c] (x y : Out α) (f : α → Out β) :
    andThen (if c then x else y) f = if c then andThen x f else andThen y f := by
  split <;> rfl

theorem execWire_hostFree (i : Instr) : HostFree (execWire i) := by
  intro s m w r
  cases i <;> rfl

theorem acceptInstruction_hostFree : HostFree acceptInstruction := by
  intro s m w r
  cases h : decodeWire s.params s.per.sr with
  | ok i =>
    rw [acceptInstruction_ok h, acceptInstruction_ok (s := s.withHost m w r) h]
    exact execWire_hostFree i s m w r
  | error e => rw [acceptInstruction_error h, acceptInstruction_error (s := s.withHost m w r) h]; rfl

theorem byteComplete_hostFree : HostFree byteComplete := by
  intro s m w r
  have hp : (s.withHost m w r).per.phase = s.per.phase := rfl
  unfold byteComplete
  rw [hp]
  cases s.per.phase with
  | cmd => exact acceptInstruction_hostFree s m w r
  | _ => rfl

theorem afterLatch_withHost (s : State) (m : Master) (w : List PinAction) (r : List Result) :
    (s.withHost m w r).afterLatch = s.afterLatch.withHost m w r := by
  unfold State.afterLatch
  rw [State.withHost_contended]
  split <;> rfl

theorem latchBit_hostFree : HostFree latchBit := by
  intro s m w r
  unfold latchBit
  dsimp only
  rw [afterLatch_withHost, andThen_ite]
  refine if_congr Iff.rfl ?_ rfl
  exact byteComplete_hostFree (s.afterLatch.setPer _) m w r

theorem receiveBit_hostFree : HostFree receiveBit := by
  intro s m w r
  unfold receiveBit
  rw [State.withHost_pins]
  cases s.pins.dir with
  | output => exact latchBit_hostFree s m w r
  | input => rfl

theorem presentKeyBit_withHost (s : State) (m : Master) (w : List PinAction) (r : List Result) :
    presentKeyBit (s.withHost m w r) = (presentKeyBit s).withHost m w r := by
  unfold presentKeyBit
  rw [State.withHost_per]
  split <;> rfl

theorem periphClkFall_withHost (s : State) (m : Master) (w : List PinAction) (r : List Result) :
    periphClkFall (s.withHost m w r) = (periphClkFall s).withHost m w r := by
  unfold periphClkFall
  rw [State.withHost_pins, State.withHost_per]
  split
  · rfl
  · cases s.per.phase with
    | readOut => exact presentKeyBit_withHost s m w r
    | _ => rfl

theorem periphClkRise_hostFree : HostFree periphClkRise := by
  intro s m w r
  unfold periphClkRise
  rw [State.withHost_pins, State.withHost_per, andThen_ite]
  refine if_congr Iff.rfl rfl ?_
  cases s.per.phase with
  | cmd | dataIn => exact receiveBit_hostFree s m w r
  | readOut => cases s.pins.dir <;> rfl
  | _ => rfl

theorem loopRise_withHost (s : State) (m : Master) (w : List PinAction) (r : List Result) :
    loopRise (s.withHost m w r) = (loopRise s).withHost m w r := by
  unfold loopRise
  rw [State.withHost_pins]
  cases s.pins.dir with
  | output => exact afterLatch_withHost (s.setHarness { s.harness with fifo := s.harness.fifo ++ [s.line] }) m w r
  | input => rfl

theorem loopFall_withHost (s : State) (m : Master) (w : List PinAction) (r : List Result) :
    loopFall (s.withHost m w r) = (loopFall s).withHost m w r := by
  unfold loopFall
  rw [State.withHost_pins, State.withHost_harness]
  cases s.pins.dir with
  | output => rfl
  | input => cases s.harness.fifo <;> rfl

theorem stbEdge_withHost (v : Bool) (s : State) (m : Master) (w : List PinAction) (r : List Result) :
    stbEdge v (s.withHost m w r) = (stbEdge v s).withHost m w r := by
  unfold stbEdge
  rw [State.withHost_attached]
  cases s.attached <;> rfl

theorem clkEdge_hostFree (v : Bool) : HostFree (clkEdge v) := by
  intro s m w r
  unfold clkEdge
  rw [State.withHost_attached]
  cases s.attached <;> cases v
  case peripheral.true => exact periphClkRise_hostFree s m w r
  case peripheral.false => exact congrArg _ (periphClkFall_withHost s m w r)
  case loopback.true => exact congrArg _ (loopRise_withHost s m w r)
  case loopback.false => exact congrArg _ (loopFall_withHost s m w r)
  all_goals rfl

theorem pinAction_hostFree (a : PinAction) : HostFree (pinAction a) := by
  intro s m w r
  cases a with
  | stb v =>
    simp only [pinAction, setStb, andThen_next]
    rw [State.withHost_pins]
    split
    · rfl
    · exact congrArg _ (stbEdge_withHost v ((s.setPins { s.pins with stb := v }).log (.stb v)) m w r)
  | clk v =>
    simp only [pinAction, setClk]
    rw [State.withHost_pins, andThen_ite]
    refine if_congr Iff.rfl rfl ?_
    exact clkEdge_hostFree v ((s.setPins { s.pins with clk := v }).log (.clk v)) m w r
  | dio v =>
    simp only [pinAction, setDio]
    rw [State.withHost_pins]
    cases s.pins.dir <;> rfl
  | dirOut | dirIn => rfl
  | sample =>
    simp only [pinAction, sampleLine]
    rw [State.withHost_pins]
    cases s.pins.dir <;> rfl

theorem HostFree.andThen {F G : State → Out State} (hF : HostFree F) (hG : HostFree G) :
    HostFree fun s => Machine.andThen (F s) G := by
  intro s m w r
  simp only [hF s m w r, andThen_assoc, andThen_next]
  exact congrArg _ (funext fun t => hG t m w r)

theorem pinActions_hostFree (l : List PinAction) : HostFree (pinActions l) := by
  induction l with
  | nil => exact fun _ _ _ _ => rfl
  | cons a rest ih => exact (pinAction_hostFree a).andThen ih

theorem powerMove_withHost (x : PowerMove) (s : State) (m : Master) (w : List PinAction) (r : List Result) :
    (s.withHost m w r).powerMove x = (s.powerMove x).withHost m w r := by
  unfold State.powerMove
  rw [State.withHost_attached]
  cases s.attached <;> cases x <;> rfl

theorem pinActionsAmid_hostFree (moves : List (Nat × PowerMove)) (l : List PinAction) :
    HostFree (pinActionsAmid moves l) := by
  induction moves generalizing l with
  | nil => exact pinActions_hostFree l
  | cons x rest ih =>
    refine (pinActions_hostFree (l.take x.1)).andThen fun t m w r => ?_
    simp only [powerMove_withHost]
    exact ih _ _ m w r

/-! ## The free-value counter -/

theorem afterLatch_draws (s : State) : s.draws ≤ s.afterLatch.draws := by
  unfold State.afterLatch
  split
  · exact Nat.le_succ _
  · exact le_rfl

theorem execWire_draws {i : Instr} {s t : State} (h : execWire i s = .next t) : s.draws ≤ t.draws := by
  cases i with
  | displayCtrl | dataWrite | setAddress => cases h; exact le_rfl
  | dataRead => cases h; exact Nat.le_succ _
  | _ => nomatch h

theorem byteComplete_draws {s t : State} (h : byteComplete s = .next t) : s.draws ≤ t.draws := by
  unfold byteComplete at h
  split at h
  case h_2 =>
    unfold acceptInstruction at h
    split at h
    · exact execWire_draws h
    · nomatch h
  all_goals cases h; exact le_rfl

theorem receiveBit_draws {s t : State} (h : receiveBit s = .next t) : s.draws ≤ t.draws := by
  obtain ⟨_, h⟩ | ⟨_, rfl⟩ := receiveBit_eq_next.mp h
  · unfold latchBit at h
    dsimp only at h
    split at h
    · have hb := byteComplete_draws h
      exact (afterLatch_draws s).trans hb
    · cases h; exact afterLatch_draws s
  · exact le_rfl

theorem periphClkRise_draws {s t : State} (h : periphClkRise s = .next t) : s.draws ≤ t.draws := by
  unfold periphClkRise at h
  split at h
  · cases h; exact le_rfl
  · split at h
    case h_2 | h_3 => exact receiveBit_draws h
    case h_4 => split at h <;> cases h; exact le_rfl
    all_goals cases h
    exact le_rfl

theorem periphClkFall_draws (s : State) : s.draws ≤ (periphClkFall s).draws := by
  unfold periphClkFall presentKeyBit
  split
  · exact le_rfl
  · split
    case h_4 =>
      split
      · exact le_rfl
      · exact Nat.le_succ _
    all_goals exact le_rfl

theorem loopRise_draws (s : State) : s.draws ≤ (loopRise s).draws := by
  unfold loopRise
  split
  · exact afterLatch_draws (s.setHarness { s.harness with fifo := s.harness.fifo ++ [s.line] })
  · exact le_rfl

theorem loopFall_draws (s : State) : s.draws ≤ (loopFall s).draws := by
  unfold loopFall
  split
  · exact le_rfl
  · split
    · exact le_rfl
    · exact Nat.le_succ _

theorem clkEdge_draws {v : Bool} {s t : State} (h : clkEdge v s = .next t) : s.draws ≤ t.draws := by
  unfold clkEdge at h
  split at h
  case h_2 => exact periphClkRise_draws h
  case h_3 => cases h; exact periphClkFall_draws s
  case h_5 => cases h; exact loopRise_draws s
  case h_6 => cases h; exact loopFall_draws s
  all_goals cases h; exact le_rfl

theorem stbEdge_draws (v : Bool) (s : State) : (stbEdge v s).draws = s.draws := by
  unfold stbEdge
  split <;> rfl

theorem pinAction_draws {a : PinAction} {s t : State} (h : pinAction a s = .next t) : s.draws ≤ t.draws := by
  cases a with
  | stb v =>
    simp only [pinAction, setStb, Host.Outcome.next.injEq] at h
    subst h
    split
    · exact le_rfl
    · rw [stbEdge_draws]; exact le_rfl
  | clk v =>
    simp only [pinAction, setClk] at h
    split at h
    · cases h; exact le_rfl
    · exact clkEdge_draws (s := (s.setPins { s.pins with clk := v }).log (.clk v)) h
  | dio v => simp only [pinAction, setDio] at h; split at h <;> cases h; exact le_rfl
  | dirOut | dirIn => cases h; exact le_rfl
  | sample => simp only [pinAction, sampleLine] at h; split at h <;> cases h; exact le_rfl

theorem pinActions_draws {l : List PinAction} {s t : State} (h : pinActions l s = .next t) : s.draws ≤ t.draws := by
  induction l generalizing s with
  | nil => cases h; exact le_rfl
  | cons a rest ih =>
    obtain ⟨u, hu, ht⟩ := andThen_eq_next.mp h
    exact (pinAction_draws hu).trans (ih ht)

theorem pinActionsAmid_draws {moves : List (Nat × PowerMove)} {l : List PinAction} {s t : State}
    (h : pinActionsAmid moves l s = .next t) : s.draws ≤ t.draws := by
  induction moves generalizing l s with
  | nil => exact pinActions_draws h
  | cons x rest ih =>
    obtain ⟨u, hu, ht⟩ := andThen_eq_next.mp h
    exact (pinActions_draws hu).trans (by simpa using ih ht)

end Sys2Proof.Machine
end

section
/-! A scan is a row of pin actions (43_key_scan.md R190): what it reads is what its samples have shown. -/

namespace Sys2Proof.Machine

/-! ## What the samples of a trace say -/

theorem sampledLevels_append (es fs : List PinEvent) :
    sampledLevels (es ++ fs) = sampledLevels es ++ sampledLevels fs := by
  induction es with
  | nil => rfl
  | cons e rest ih =>
    cases e with
    | sampled v => exact congrArg (v :: ·) ih
    | _ => exact ih

theorem sampledLevels_writeByteEvents (b : Byte) : sampledLevels (writeByteEvents b) = [] := rfl

theorem sampledLevels_readByteEvents (r : Byte) : sampledLevels (readByteEvents r) = lsbFirst r := rfl

theorem getLsbD_wordOfLevels (vs : List Bool) {i : Nat} (hi : i < 32) : (wordOfLevels vs).getLsbD i = vs.getD i false := by
  induction vs generalizing i with
  | nil => simp [wordOfLevels]
  | cons v rest ih =>
    cases i with
    | zero => simp [wordOfLevels]
    | succ i =>
      rw [List.getD_cons_succ, ← ih (Nat.lt_of_succ_lt hi), BitVec.getLsbD_eq_getElem (Nat.lt_of_succ_lt hi)]
      simp [wordOfLevels, hi]

/-- The bits of the four key bytes in the order they are read (R64, R191). -/
theorem lsbFirst_keyBytes (w : ScanWord) :
    lsbFirst (keyByte w 0) ++ lsbFirst (keyByte w 1) ++ lsbFirst (keyByte w 2) ++ lsbFirst (keyByte w 3) =
      (List.range 32).map w.getLsbD := by
  simp [lsbFirst, keyByte, List.range_succ]

theorem wordOfLevels_getLsbD (w : ScanWord) : wordOfLevels ((List.range 32).map w.getLsbD) = w := by
  apply BitVec.eq_of_getLsbD_eq
  intro i hi
  rw [getLsbD_wordOfLevels _ hi]
  simp [hi]

theorem sampledLevels_windowEvents (es : List PinEvent) : sampledLevels (windowEvents es) = sampledLevels es := by
  rw [windowEvents, sampledLevels_append, sampledLevels, sampledLevels, sampledLevels, List.append_nil]

/-- The samples of a scan's trace are the scan word (R190, R191). -/
theorem wordOfLevels_scanEvents (p : Params) (w : ScanWord) : wordOfLevels (sampledLevels (scanEvents p w)) = w := by
  simp only [scanEvents, sampledLevels_windowEvents, sampledLevels_append, sampledLevels_writeByteEvents,
    sampledLevels_readByteEvents, List.nil_append, lsbFirst_keyBytes, wordOfLevels_getLsbD]

/-! ## The scan without its result -/

/-- What a computation does to the machine, without the value it returns. -/
def effectOf {α : Type} (x : Out (α × State)) : Out State := andThen x fun r => .next r.2

theorem effectOf_andThen {α β : Type} (x : Out α) (f : α → Out (β × State)) :
    effectOf (andThen x f) = andThen x fun a => effectOf (f a) := andThen_assoc _ _ _

/-- A computation whose rest looks only at the machine it leaves. -/
theorem andThen_effectOf {α β : Type} {x : Out (α × State)} {f : α × State → Out β} {g : State → Out β}
    (h : ∀ r, x = .next r → f r = g r.2) : andThen x f = andThen (effectOf x) g := by
  cases x with
  | next r => exact h r rfl
  | _ => rfl

theorem effectOf_readBit (v : Bool) (s : State) :
    effectOf (readBit s) = pinActions ((readBitEvents v).map PinEvent.action) s := by
  rw [readBit, effectOf_andThen, readBitEvents]
  refine congrArg (andThen (setClk false s)) (funext fun t => ?_)
  rw [effectOf_andThen]
  exact congrArg (andThen (setClk true t)) (funext fun u => (pinActions_singleton .sample u).symm)

theorem effectOf_readByteLoop (vs : List Bool) (k : Nat) (r : Byte) (s : State) :
    effectOf (readByteLoop vs.length k r s) = pinActions ((vs.flatMap readBitEvents).map PinEvent.action) s := by
  induction vs generalizing k r s with
  | nil => rfl
  | cons v rest ih =>
    rw [List.length_cons, readByteLoop_succ, effectOf_andThen, List.flatMap_cons, List.map_append, pinActions_append,
      ← effectOf_readBit]
    exact andThen_effectOf fun x _ => ih _ _ x.2

theorem effectOf_readByte (b : Byte) (s : State) :
    effectOf (readByte s) = pinActions ((readByteEvents b).map PinEvent.action) s := by
  have hloop := fun t => effectOf_readByteLoop (lsbFirst b) 0 0#8 t
  rw [readByteEvents_eq_flatMap, List.cons_append, List.map_cons, List.map_append, readByte, effectOf_andThen]
  refine congrArg (andThen (setDirIn s)) (funext fun t => ?_)
  rw [effectOf_andThen, pinActions_append, ← hloop t]
  exact andThen_effectOf fun x _ => rfl

theorem effectOf_readBytes (bs : List Byte) (i : Nat) (w : ScanWord) (s : State) :
    effectOf (readBytes bs.length i w s) = pinActions ((bs.flatMap readByteEvents).map PinEvent.action) s := by
  induction bs generalizing i w s with
  | nil => rfl
  | cons b rest ih =>
    rw [List.length_cons, readBytes, effectOf_andThen, List.flatMap_cons, List.map_append, pinActions_append,
      ← effectOf_readByte]
    exact andThen_effectOf fun x _ => ih _ _ x.2

theorem scanEvents_eq (p : Params) (w : ScanWord) :
    scanEvents p w = windowEvents (writeByteEvents (dataReadCode p) ++
      [keyByte w 0, keyByte w 1, keyByte w 2, keyByte w 3].flatMap readByteEvents) := by
  simp [scanEvents]

/-- The read transaction (R147, R190) is its row of pin actions; they do not depend on the word read. -/
theorem effectOf_readTransaction (w : ScanWord) (s : State) :
    effectOf (readTransaction s) = pinActions ((scanEvents s.params w).map PinEvent.action) s := by
  have hkeys := fun t => effectOf_readBytes [keyByte w 0, keyByte w 1, keyByte w 2, keyByte w 3] 0 0#32 t
  obtain ⟨t, ht⟩ : ∃ t, setStb false s = .next t := ⟨_, rfl⟩
  have hparams : t.params = s.params := (pinAction_masterSide (a := .stb false) ht).params
  rw [scanEvents_eq, ← window_eq_pinActions, readTransaction, window, ht, andThen_next, andThen_next, hparams,
    effectOf_andThen, List.map_append, map_action_writeByteEvents, pinActions_append, andThen_assoc]
  refine congrArg (andThen (writeByte (dataReadCode s.params) t)) (funext fun u => ?_)
  rw [effectOf_andThen, ← hkeys u]
  refine andThen_effectOf fun x _ => ?_
  obtain ⟨v, hv⟩ : ∃ v, setStb true x.2 = .next v := ⟨_, rfl⟩
  rw [hv]
  rfl

/-! ## The word a scan returns -/

/-- The word of four `read_byte` calls in a row is what they have shown (R125, R191). -/
theorem readBytes_trace {s t : State} {w : ScanWord} (h : readBytes 4 0 0#32 s = .next (w, t)) :
    t.trace = s.trace ++ [keyByte w 0, keyByte w 1, keyByte w 2, keyByte w 3].flatMap readByteEvents := by
  have hfour := h
  obtain ⟨⟨k0, s1⟩, h0, h⟩ := andThen_eq_next.mp h
  obtain ⟨⟨k1, s2⟩, h1, h⟩ := andThen_eq_next.mp h
  obtain ⟨⟨k2, s3⟩, h2, h⟩ := andThen_eq_next.mp h
  obtain ⟨⟨k3, s4⟩, h3, -⟩ := andThen_eq_next.mp h
  cases (readBytes_four h0 h1 h2 h3).symm.trans hfour
  obtain ⟨hk0, hk1, hk2, hk3⟩ := keyByte_append k0 k1 k2 k3
  have ht0 : s1.trace = s.trace ++ readByteEvents k0 := (readByte_deviceOnly h0).trace
  have ht1 : s2.trace = s1.trace ++ readByteEvents k1 := (readByte_deviceOnly h1).trace
  have ht2 : s3.trace = s2.trace ++ readByteEvents k2 := (readByte_deviceOnly h2).trace
  have ht3 : t.trace = s3.trace ++ readByteEvents k3 := (readByte_deviceOnly h3).trace
  rw [hk0, hk1, hk2, hk3, ht3, ht2, ht1, ht0]
  simp

/-- The trace of a read transaction holds the word it returns (R110, R190). -/
theorem readTransaction_trace {s t : State} {w : ScanWord} (h : readTransaction s = .next (w, t)) :
    t.trace = s.trace ++ scanEvents s.params w := by
  obtain ⟨s1, h1, h⟩ := andThen_eq_next.mp h
  obtain ⟨s2, h2, h⟩ := andThen_eq_next.mp h
  obtain ⟨⟨w', s3⟩, h3, h⟩ := andThen_eq_next.mp h
  obtain ⟨s4, h4, h⟩ := andThen_eq_next.mp h
  cases h
  have hopen := pinActions_deviceOnly (es := [.stb false]) (by decide) ((pinActions_singleton _ _).trans h1)
  have hclose := pinActions_deviceOnly (es := [.stb true]) (by decide) ((pinActions_singleton _ _).trans h4)
  have ht1 : s1.trace = s.trace ++ [.stb false] := hopen.trace
  have hp1 : s1.params = s.params := hopen.params
  have ht2 : s2.trace = s1.trace ++ writeByteEvents (dataReadCode s1.params) := (writeByte_deviceOnly h2).trace
  have ht4 : t.trace = s3.trace ++ [.stb true] := hclose.trace
  rw [ht4, readBytes_trace h3, ht2, ht1, hp1, scanEvents_eq]
  simp [windowEvents]

/-- What the samples since `s` have shown, as a word. -/
def readWord (s t : State) : ScanWord := wordOfLevels (sampledLevels (t.trace.drop s.trace.length))

theorem readWord_of_trace {s t : State} {es : List PinEvent} (h : t.trace = s.trace ++ es) :
    readWord s t = wordOfLevels (sampledLevels es) := by
  rw [readWord, h, List.drop_left]

/-- What follows a scan can take the word from the trace. -/
theorem andThen_readTransaction {α : Type} (s : State) (f : ScanWord → State → Out α) (w : ScanWord) :
    andThen (readTransaction s) (fun r => f r.1 r.2) =
      andThen (pinActions ((scanEvents s.params w).map PinEvent.action) s) fun t => f (readWord s t) t := by
  rw [← effectOf_readTransaction w s]
  refine andThen_effectOf fun x hx => ?_
  rw [readWord_of_trace (readTransaction_trace hx), wordOfLevels_scanEvents]

end Sys2Proof.Machine
end

section
/-! Every command is one computation (00_scope.md R14): the master's registers are written, the pin actions of its expansion (30_encoding.md R110) are performed, and one result is given. What a command shows, when it completes and what it keeps follow from this for all ten at once. -/

namespace Sys2Proof.Machine

/-! ## Rejected and refused commands -/

/-- The error code of a command with an operand out of its range (R251 to R254). -/
def rangeCode : Instr → Byte
  | .setBrightness _ => 1#8
  | .setSegmentValue _ _ => 2#8
  | .setLedState _ _ => 3#8
  | .write _ _ => 4#8
  | _ => 0#8

theorem rangeCode_ne_zero {i : Instr} (hi : i.wellFormed = false) : rangeCode i ≠ 0#8 := by
  cases i with
  | setBrightness => exact (by decide : (1#8 : Byte) ≠ 0#8)
  | setSegmentValue => exact (by decide : (2#8 : Byte) ≠ 0#8)
  | setLedState => exact (by decide : (3#8 : Byte) ≠ 0#8)
  | write => exact (by decide : (4#8 : Byte) ≠ 0#8)
  | _ => nomatch hi

/-- A command with an illegal operand, on a constructed master, returns its error code and changes nothing else (R260). -/
theorem exec_illFormed {i : Instr} (hi : i.wellFormed = false) {s : State} (hc : s.master.constructed = true) :
    exec i s = .next (s.err (rangeCode i)) := by
  cases i with
  | setBrightness level =>
    rw [exec, execSetBrightness, whenConstructed_of_constructed hc, levelTooBig_eq, hi]
    rfl
  | setSegmentValue x v =>
    rw [exec, execSetSegmentValue, whenConstructed_of_constructed hc, positionTooBig_eq_segment x v, hi]
    rfl
  | setLedState x v =>
    rw [exec, execSetLedState, whenConstructed_of_constructed hc, positionTooBig_eq_led x v, hi]
    rfl
  | write x v =>
    rw [exec, execWrite, whenConstructed_of_constructed hc, addressTooBig_eq x v, hi]
    rfl
  | _ => nomatch hi

/-- Before CONSTRUCT every other command is refused (R43). -/
theorem exec_notConstructed {i : Instr} (hw : i.isWire = false) (hi : i ≠ .construct) {s : State}
    (hc : s.master.constructed = false) : exec i s = .refused .notConstructed := by
  cases i with
  | displayCtrl | dataWrite | dataRead | setAddress => nomatch hw
  | construct => exact absurd rfl hi
  | _ => exact whenConstructed_refused hc _

theorem exec_construct_refused {s : State} (hc : s.master.constructed = true) :
    exec .construct s = .refused .alreadyConstructed := by
  rw [exec, execConstruct, hc]
  rfl

/-! ## The computation -/

/-- Two computations that begin alike and go on alike from wherever the first part ends. -/
theorem andThen_congr {α β : Type} {x : Out α} {f g : α → Out β} (h : ∀ a, x = .next a → f a = g a) :
    andThen x f = andThen x g := by
  cases x with
  | next a => exact h a rfl
  | _ => rfl

/-- The result a command gives in `t` when it began in `s` (R103). -/
def commandResult (i : Instr) (s t : State) : Result :=
  if i.wellFormed then { status := 0#8, value := valueOf (readWord s t) i } else { status := rangeCode i, value := 0#32 }

/-- The command has done its pin actions and gives its result. -/
def finish (i : Instr) (s t : State) : State := t.giveResult (commandResult i s t)

/-- The master's registers have been written as the command leaves them. -/
def State.commanded (s : State) (i : Instr) : State := { s with master := masterAfter i s.master }

/-- The master is in the state the command needs: not constructed for CONSTRUCT, constructed for any other (R43). -/
abbrev State.takes (s : State) (i : Instr) : Prop := s.master.constructed = !decide (i = .construct)

theorem State.not_takes {s : State} {i : Instr} : ¬ s.takes i ↔ s.master.constructed = decide (i = .construct) := by
  simp only [State.takes, Bool.eq_not, ne_eq, not_not]

theorem State.accepts.takes {s : State} {i : Instr} (h : s.accepts i) : s.takes i := by
  obtain ⟨-, hfirst, hother⟩ := h
  by_cases hi : i = .construct
  · simp [State.takes, hi, hfirst hi]
  · simp [State.takes, hi, (hother hi).1]

/-- A command that the master does not take is refused. -/
theorem exec_refused {i : Instr} (hw : i.isWire = false) {s : State} (h : ¬ s.takes i) : ∃ r, exec i s = .refused r := by
  by_cases hi : i = .construct
  · subst hi
    exact ⟨_, exec_construct_refused (by simpa [State.takes] using h)⟩
  · exact ⟨_, exec_notConstructed hw hi (by simpa [State.takes, hi] using h)⟩

theorem addressField_eq_ofNat (x : Byte) : addressField x = BitVec.ofNat 4 x.toNat := by
  rw [addressField, ← BitVec.ofNat_toNat]

/-- A legal store is the row of a one-byte write transaction (R146, R160). -/
theorem storeRegister_eq_pinActions (x v : Byte) (s : State) :
    storeRegister x v s =
      andThen (pinActions ((writeTransactionEvents s.params (addressField x) [v]).map PinEvent.action) s)
        (returnOk 0#32) := by
  rw [storeRegister, openWriteTransaction_eq_pinActions]

theorem clearRegisters_eq_pinActions (s : State) :
    clearRegisters s = pinActions ((cleanupEvents s.params).map PinEvent.action) s := by
  rw [clearRegisters, openWriteTransaction_eq_pinActions, cleanupEvents, cleanupPayload]

theorem pushDisplayCtrlInstr_eq_pinActions (s : State) :
    pushDisplayCtrlInstr s = pinActions ((instructionEvents (mirrorCode s)).map PinEvent.action) s := by
  rw [pushDisplayCtrlInstr, pushInstruction_eq_pinActions]

/-- The four pin actions of CONSTRUCT come out the same with its mirror writes done before them. -/
theorem andThen_initPins_commanded (s : State) (f : State → Out State) :
    andThen (pinActions [.stb true, .clk false, .dirOut, .dio false] (s.commanded .construct)) f =
      andThen (initPins s) fun t => f ((t.setDisplayEnabled true).setBrightness 7#3).setConstructed := by
  have hfree := pinActions_hostFree [.stb true, .clk false, .dirOut, .dio false] s (masterAfter .construct s.master)
    s.wire s.results
  rw [show s.commanded .construct = s.withHost (masterAfter .construct s.master) s.wire s.results from rfl, hfree,
    initPins, andThen_assoc]
  refine andThen_congr fun t ht => ?_
  have hm := pinActions_masterSides ht
  rw [andThen_next, State.withHost, ← hm.wire, ← hm.results]
  rfl

theorem finish_ok {i : Instr} (hi : i.wellFormed = true) (s t : State) :
    (.next (finish i s t) : Out State) = returnOk (valueOf (readWord s t) i) t := by
  rw [finish, commandResult, if_pos hi, returnOk]

theorem commanded_of_masterAfter {i : Instr} {s : State} (h : masterAfter i s.master = s.master) : s.commanded i = s := by
  rw [State.commanded, h]

/-- CONSTRUCT as its whole row of pin actions (R110, R280). -/
theorem exec_construct_eq_pinActions {s : State} (hc : s.master.constructed = false) :
    exec .construct s = andThen (pinActions (commandActions s.params s.master .construct) (s.commanded .construct))
      (returnOk 0#32) := by
  rw [exec_construct_eq hc, commandActions, commandEvents, List.map_append, List.map_append, pinActions_append,
    pinActions_append, andThen_assoc, List.map_cons, List.map_cons, List.map_cons, List.map_cons, List.map_nil]
  refine Eq.trans ?_ ((andThen_assoc _ _ _).trans (andThen_initPins_commanded s _)).symm
  refine andThen_congr fun s1 h1 => ?_
  have hparams1 : s1.params = s.params := (pinActions_masterSides h1).params
  rw [pushDisplayCtrlInstr_eq_pinActions, mirrorCode]
  simp only [State.setConstructed_params, State.setBrightness_params, State.setDisplayEnabled_params, hparams1,
    State.setConstructed_master, State.setBrightness_master, State.setDisplayEnabled_master]
  refine andThen_congr fun s2 h2 => ?_
  have hparams2 : s2.params = s.params := (pinActions_masterSides h2).params.trans hparams1
  rw [clearRegisters_eq_pinActions, hparams2]

/-- A rejected command performs no pin action (R260). -/
theorem commandActions_illFormed {i : Instr} (hi : i.wellFormed = false) (p : Params) (m : Master) :
    commandActions p m i = [] := by
  cases i with
  | setBrightness | setSegmentValue | setLedState | write =>
    rw [commandActions, commandEvents, if_neg (of_decide_eq_false hi)]
    rfl
  | _ => nomatch hi

/-- A rejected command writes no register of the master (R260). -/
theorem masterAfter_illFormed {i : Instr} (hi : i.wellFormed = false) (m : Master) : masterAfter i m = m := by
  cases i with
  | setBrightness => exact if_neg (of_decide_eq_false hi)
  | setSegmentValue | setLedState | write => rfl
  | _ => nomatch hi

theorem ne_construct_of_illFormed {i : Instr} (hi : i.wellFormed = false) : i ≠ .construct :=
  fun h => by rw [h] at hi; nomatch hi

theorem State.takes.constructed {s : State} {i : Instr} (h : s.takes i) (hi : i ≠ .construct) :
    s.master.constructed = true := by
  rw [h, decide_eq_false hi]
  rfl

/-- Every command with legal operands that the master takes is its mirror write, its row of pin actions and `Ok`. -/
theorem exec_wellFormed {i : Instr} (hw : i.isWire = false) (hi : i.wellFormed = true) {s : State} (hc : s.takes i) :
    exec i s = andThen (pinActions (commandActions s.params s.master i) (s.commanded i))
      fun t => returnOk (valueOf (readWord s t) i) t := by
  cases i with
  | displayCtrl | dataWrite | dataRead | setAddress => nomatch hw
  | construct => exact exec_construct_eq_pinActions hc
  | displayOn =>
    rw [exec, execDisplayOn, whenConstructed_of_constructed hc, pushDisplayCtrlInstr_eq_pinActions]
    rfl
  | displayOff =>
    rw [exec, execDisplayOff, whenConstructed_of_constructed hc, pushDisplayCtrlInstr_eq_pinActions]
    rfl
  | setBrightness level =>
    have hlevel : level.toNat ≤ 7 := of_decide_eq_true hi
    rw [exec, execSetBrightness, whenConstructed_of_constructed hc, levelTooBig_eq, hi,
      pushDisplayCtrlInstr_eq_pinActions, commandActions, commandEvents, if_pos hlevel, State.commanded, masterAfter,
      if_pos hlevel]
    rfl
  | setSegmentValue x v =>
    have hx : x.toNat ≤ 7 := of_decide_eq_true hi
    rw [exec_setSegmentValue_of_le hx, whenConstructed_of_constructed hc, storeRegister_eq_pinActions,
      addressField_segmentAddress, commandActions, commandEvents, if_pos hx]
    rfl
  | setLedState x v =>
    have hx : x.toNat ≤ 7 := of_decide_eq_true hi
    rw [exec_setLedState_of_le hx, whenConstructed_of_constructed hc, storeRegister_eq_pinActions,
      addressField_ledAddress, commandActions, commandEvents, if_pos hx]
    rfl
  | write x v =>
    have hx : x.toNat ≤ 15 := of_decide_eq_true hi
    rw [exec_write_of_le hx, whenConstructed_of_constructed hc, storeRegister_eq_pinActions,
      addressField_eq_ofNat, commandActions, commandEvents, if_pos hx]
    rfl
  | cleanup =>
    rw [exec, execCleanup, whenConstructed_of_constructed hc, clearRegisters_eq_pinActions]
    rfl
  | scanKeys =>
    rw [exec, execScanKeys, whenConstructed_of_constructed hc, andThen_readTransaction s returnOk 0#32]
    rfl
  | defPressedKeys =>
    rw [exec, execDefPressedKeys, whenConstructed_of_constructed hc,
      andThen_readTransaction s (fun w t => returnOk (pressedKeys w) t) 0#32]
    rfl

/-- Changes of power alone come out the same with a result given before them. -/
theorem pinActionsAmid_giveResult (moves : List (Nat × PowerMove)) (s : State) (r : Result) :
    pinActionsAmid moves [] (s.giveResult r) = andThen (pinActionsAmid moves [] s) fun t => .next (t.giveResult r) := by
  have hfree := pinActionsAmid_hostFree moves [] s s.master s.wire (s.results ++ [r])
  rw [show s.giveResult r = s.withHost s.master s.wire (s.results ++ [r]) from rfl, hfree]
  refine andThen_congr fun t ht => ?_
  have hm := pinActionsAmid_masterSides ht
  rw [State.withHost, ← hm.master, ← hm.wire, ← hm.results]
  rfl

/-- Every command the master takes, with changes of power in its course: the mirror write, the row of pin actions, the result. -/
theorem execAmid_of_takes {i : Instr} {s : State} (hc : s.takes i)
    (moves : List (Nat × PowerMove)) :
    execAmid i moves s = andThen (pinActionsAmid moves (commandActions s.params s.master i) (s.commanded i))
      fun t => .next (finish i s t) := by
  cases hi : i.wellFormed with
  | false =>
    have hm := State.takes.constructed hc (ne_construct_of_illFormed hi)
    have hfinish (t : State) : finish i s t = t.giveResult { status := rangeCode i, value := 0#32 } := by
      rw [finish, commandResult, hi]
      rfl
    simp only [hfinish]
    rw [execAmid, if_pos (.inr hi), exec_illFormed hi hm, andThen_next, commandActions_illFormed hi,
      commanded_of_masterAfter (masterAfter_illFormed hi _), ← pinActionsAmid_giveResult]
    rfl
  | true =>
    have hne : ¬ (s.master.constructed = decide (i = .construct) ∨ i.wellFormed = false) :=
      not_or.mpr ⟨mt State.not_takes.mpr (not_not.mpr hc), by simp [hi]⟩
    rw [execAmid, if_neg hne]
    refine andThen_congr fun t _ => ?_
    rw [finish_ok hi]
    rfl

theorem andThen_next_right {α : Type} (x : Out α) : andThen x Host.Outcome.next = x := by
  cases x <;> rfl

/-- With no change of power in its course a command is the command (R14). -/
theorem execAmid_nil {i : Instr} (hw : i.isWire = false) (s : State) : execAmid i [] s = exec i s := by
  by_cases hrefused : s.master.constructed = decide (i = .construct) ∨ i.wellFormed = false
  · rw [execAmid, if_pos hrefused]
    exact andThen_next_right _
  · obtain ⟨hc, hi⟩ := not_or.mp hrefused
    have hc : s.takes i := not_not.mp (mt State.not_takes.mp hc)
    have hi : i.wellFormed = true := by simpa using hi
    rw [execAmid_of_takes hc, exec_wellFormed hw hi hc]
    simp only [finish_ok hi]
    rfl

/-- All that a command that goes on can be, changes of power in its course or not. -/
theorem execAmid_eq_next {i : Instr} (hw : i.isWire = false) {moves : List (Nat × PowerMove)} {s t : State} :
    execAmid i moves s = .next t ↔ s.takes i ∧
      ∃ u, pinActionsAmid moves (commandActions s.params s.master i) (s.commanded i) = .next u ∧ t = finish i s u := by
  by_cases hc : s.takes i
  · rw [execAmid_of_takes hc, andThen_eq_next, and_iff_right hc]
    simp [eq_comm]
  · obtain ⟨r, hr⟩ := exec_refused hw hc
    rw [execAmid, if_pos (.inl (State.not_takes.mp hc)), hr]
    simp [hc]

theorem exec_eq_next {i : Instr} (hw : i.isWire = false) {s t : State} :
    exec i s = .next t ↔ s.takes i ∧
      ∃ u, pinActions (commandActions s.params s.master i) (s.commanded i) = .next u ∧ t = finish i s u := by
  rw [← execAmid_nil hw, execAmid_eq_next hw]
  rfl

end Sys2Proof.Machine
end

section
/-! What one step can do, said once: a pin action, a change of the switches or of power, or one command with its result; and what every step keeps. -/

namespace Sys2Proof.Machine

/-! ## The cases of a step -/

/-- The changes of power in the course of an input. -/
def Input.moves : Input → List (Nat × PowerMove)
  | .command _ => []
  | .switches _ _ => []
  | .power m => [(0, m)]
  | .commandAmid _ moves => moves

theorem Input.bringsPowerBack_eq (x : Input) : x.bringsPowerBack = x.moves.any fun m => m.2.isBack := by
  cases x with
  | power m => simp [Input.bringsPowerBack, Input.moves]
  | _ => rfl

/-- What taking an input can be: `t` is the state after it. -/
inductive InputTaken (x : Input) (s t : State) : Prop where
  /-- The switches change (R74). -/
  | switched (levels unstable : Byte) (hx : x = .switches levels unstable)
      (ht : t = { s with sw := levels, unstable := unstable })
  /-- The power of the peripheral changes (R284). -/
  | powered (m : PowerMove) (hx : x = .power m) (ht : t = s.powerMove m)
  /-- A reserved word gives its error (R255), and what changes of power there are follow. -/
  | reserved (u : State) (r : Result) (hu : pinActionsAmid x.moves [] s = .next u) (ht : t = u.giveResult r)
  /-- A command runs. -/
  | ran (i : Instr) (hw : i.isWire = false) (hm : mayIssue i s = true) (he : execAmid i x.moves s = .next t)

theorem issueAmid_taken {w : CmdWord} {x : Input} {s t : State} (h : issueAmid w x.moves s = .next t) :
    InputTaken x s t := by
  unfold issueAmid at h
  split at h
  · rw [raiseValidation, andThen_next, pinActionsAmid_giveResult] at h
    obtain ⟨u, hu, ht⟩ := andThen_eq_next.mp h
    cases ht
    exact .reserved u _ hu rfl
  · rename_i i hi
    split at h
    · rename_i hm
      exact .ran i (isWire_of_decodeCommand hi) hm h
    · nomatch h

/-- With no change of power in its course a command word is taken as it is without that description. -/
theorem issueAmid_nil (w : CmdWord) (s : State) : issueAmid w [] s = issue w s := by
  unfold issueAmid issue
  split
  · rfl
  · rename_i i hi
    rw [execAmid_nil (isWire_of_decodeCommand hi)]

theorem takeInput_taken {x : Input} {s t : State} (h : takeInput x s = .next t) : InputTaken x s t := by
  cases x with
  | command w => exact issueAmid_taken (x := .command w) ((issueAmid_nil w s).trans h)
  | switches levels unstable => cases h; exact .switched levels unstable rfl rfl
  | power m => cases h; exact .powered m rfl rfl
  | commandAmid w moves => exact issueAmid_taken (x := .commandAmid w moves) h

/-- What a step can be: `t` is the state after it. -/
inductive Stepped (s t : State) : Prop where
  | pin (a : PinAction) (rest : List PinAction) (hwire : s.wire = a :: rest)
      (ht : pinAction a { s with wire := rest } = .next t)
  | input (x : Input) (rest : List Input) (hwire : s.wire = []) (hinputs : s.inputs = x :: rest)
      (ht : InputTaken x { s with inputs := rest } t)
  | ended (ht : t = s)

theorem step_stepped {s t : State} (h : step s = .next t) : Stepped s t := by
  unfold step at h
  split at h
  case h_1 a rest hwire => exact .pin a rest hwire h
  case h_2 x rest hwire hinputs => exact .input x rest hwire hinputs (takeInput_taken h)
  case h_3 => cases h; exact .ended rfl

/-! ## The link invariant -/

theorem execAmid_linkInv {i : Instr} (hw : i.isWire = false) {moves : List (Nat × PowerMove)} {s t : State}
    (h : s.linkInv) (he : execAmid i moves s = .next t) : t.linkInv := by
  obtain ⟨-, u, hu, rfl⟩ := (execAmid_eq_next hw).mp he
  have hu' := pinActionsAmid_linkInv (s := s.commanded i) h hu
  exact hu'

theorem inputTaken_linkInv {x : Input} {s t : State} (h : s.linkInv) (ht : InputTaken x s t) : t.linkInv := by
  cases ht with
  | switched levels unstable _ ht => exact ht ▸ linkInv_of_eq h rfl rfl rfl rfl
  | powered m _ ht => exact ht ▸ State.powerMove_linkInv h m
  | reserved u r hu ht => exact ht ▸ linkInv_of_eq (pinActionsAmid_linkInv h hu) rfl rfl rfl rfl
  | ran i hw _ he => exact execAmid_linkInv hw h he

/-- Settles O52. Whatever a step is, the wires see only pin actions and changes of power, and both keep the invariant. -/
theorem linkInvariantIsKept : Obligations.LinkInvariantIsKept := by
  intro s t h hstep
  cases step_stepped hstep with
  | pin a rest _ ht => exact pinAction_linkInv (s := { s with wire := rest }) h ht
  | input x rest _ _ ht => exact inputTaken_linkInv (s := { s with inputs := rest }) h ht
  | ended ht => exact ht ▸ h

/-- Settles O53: the power-on state is a closed term, so its invariant is decided. -/
theorem linkInvariantAtReset : Obligations.LinkInvariantAtReset := by
  unfold Obligations.LinkInvariantAtReset
  decide

/-! ## What is only added to -/

/-- Of two states of a run the later one: what was seen stays seen (R15), and what no step writes is as it was. -/
structure Later (s t : State) : Prop where
  params : t.params = s.params
  device : Attached.sameDevice s.attached t.attached
  constructed : s.master.constructed = true → t.master.constructed = true
  results : s.results <+: t.results
  trace : s.trace <+: t.trace
  draws : s.draws ≤ t.draws

theorem Later.refl (s : State) : Later s s :=
  ⟨rfl, ⟨Iff.rfl, Iff.rfl⟩, id, List.prefix_rfl, List.prefix_rfl, le_rfl⟩

/-- Once there is a master, no command takes it away (R43). -/
theorem masterAfter_constructed (i : Instr) {m : Master} (h : m.constructed = true) :
    (masterAfter i m).constructed = true := by
  cases i with
  | construct => rfl
  | setBrightness level => rw [masterAfter]; split <;> exact h
  | _ => exact h

/-- Pin actions with changes of power, performed by a master whose registers have been written, and then a result. -/
theorem pinActionsAmid_later {moves : List (Nat × PowerMove)} {l : List PinAction} {s u : State} {m : Master}
    (hu : pinActionsAmid moves l { s with master := m } = .next u)
    (hm : s.master.constructed = true → m.constructed = true) (r : Result) : Later s (u.giveResult r) := by
  have h := pinActionsAmid_masterSides hu
  obtain ⟨es, -, htrace⟩ := h.trace
  have hdraws := pinActionsAmid_draws hu
  exact ⟨h.params, h.attached, fun hc => (congrArg Master.constructed h.master).trans (hm hc),
    ⟨[r], congrArg (· ++ [r]) h.results.symm⟩, ⟨es, htrace.symm⟩, hdraws⟩

theorem powerMove_later (m : PowerMove) (s : State) : Later s (s.powerMove m) :=
  ⟨by simp, s.powerMove_attached m, by simp, by simp, by simp, by simp⟩

theorem pinAction_later {a : PinAction} {s t : State} (h : pinAction a s = .next t) : Later s t := by
  have hm := pinAction_masterSide h
  obtain ⟨e, -, htrace⟩ := hm.trace
  exact ⟨hm.params, hm.attached ▸ ⟨Iff.rfl, Iff.rfl⟩, by rw [hm.master]; exact id, hm.results ▸ List.prefix_rfl,
    ⟨[e], htrace.symm⟩, pinAction_draws h⟩

theorem inputTaken_later {x : Input} {s t : State} (ht : InputTaken x s t) : Later s t := by
  cases ht with
  | switched levels unstable _ ht =>
    subst ht
    exact ⟨rfl, ⟨Iff.rfl, Iff.rfl⟩, id, List.prefix_rfl, List.prefix_rfl, le_rfl⟩
  | powered m _ ht => exact ht ▸ powerMove_later m s
  | reserved u r hu ht => exact ht ▸ pinActionsAmid_later hu id r
  | ran i hw _ he =>
    obtain ⟨-, u, hu, rfl⟩ := (execAmid_eq_next hw).mp he
    exact pinActionsAmid_later hu (masterAfter_constructed i) _

/-- Settles O51. A step writes to the results and the trace at their end only, and a command's master write keeps the master. -/
theorem stepsOnlyAddToWhatIsSeen : Obligations.StepsOnlyAddToWhatIsSeen := by
  intro s t hstep
  have h : Later s t := by
    cases step_stepped hstep with
    | pin a rest _ ht =>
      have hp := pinAction_later ht
      exact ⟨hp.params, hp.device, hp.constructed, hp.results, hp.trace, hp.draws⟩
    | input x rest _ _ ht =>
      have hi := inputTaken_later ht
      exact ⟨hi.params, hi.device, hi.constructed, hi.results, hi.trace, hi.draws⟩
    | ended ht => exact ht ▸ .refl s
  exact ⟨h.params, h.device.1, h.device.2, h.constructed, h.results, h.trace, h.draws⟩

/-! ## The mirror -/

/-- A wire instruction leaves the master alone (R23, R26). -/
theorem exec_wire_master {i : Instr} (hw : i.isWire = true) {s t : State} (h : exec i s = .next t) :
    t.master = masterAfter i s.master := by
  cases i with
  | displayCtrl | dataWrite | dataRead | setAddress => cases h; rfl
  | _ => nomatch hw

/-- Settles O41. A command writes the mirror before its pin actions, and these leave it alone. -/
theorem onlyTheseCommandsWriteTheMirror : Obligations.OnlyTheseCommandsWriteTheMirror := by
  intro i s t h
  cases hw : i.isWire with
  | true => exact exec_wire_master hw h
  | false =>
    obtain ⟨-, u, hu, rfl⟩ := (exec_eq_next hw).mp h
    exact (pinActions_masterSides hu).master

end Sys2Proof.Machine
end

section
/-! What every command puts on the wires is framed (41_framing.md R150 to R152): windows of whole bytes, one after the other. Each fact about the row of a command (the pins after it, that it keeps the contract of the data pin, what a reader of the wires makes of it, its rising edges) is said of one byte and carried to bytes in a row, to a window, and to windows in a row. -/

namespace Sys2Proof.Machine

/-! ## The pins after a row, and the contract of the data pin -/

/-- The pins after the events `es`. -/
def Pins.after (p : Pins) (es : List PinEvent) : Pins := (es.map PinEvent.action).foldl (fun p a => a.onPins p) p

theorem Pins.after_append (p : Pins) (es fs : List PinEvent) : p.after (es ++ fs) = (p.after es).after fs := by
  rw [Pins.after, List.map_append, List.foldl_append]
  rfl

/-- The pin action is within its contract with the data pin in direction `d` (R36). -/
def PinAction.allowed (d : Dir) : PinAction → Bool
  | .dio _ => d = .output
  | .sample => d = .input
  | _ => true

/-- The direction of the data pin after a pin action. -/
def PinAction.dirAfter (d : Dir) : PinAction → Dir
  | .dirOut => .output
  | .dirIn => .input
  | _ => d

/-- Every pin action of the row is within its contract, from direction `d` on. -/
def inContract : Dir → List PinAction → Bool
  | _, [] => true
  | d, a :: rest => a.allowed d && inContract (a.dirAfter d) rest

theorem PinAction.onPins_dir (a : PinAction) (p : Pins) : (a.onPins p).dir = a.dirAfter p.dir := by
  cases a <;> rfl

/-- The rest of a row within its contract is so from the pins it begins with. -/
theorem inContract_rest {l₁ l₂ : List PinAction} {p : Pins} (h : inContract p.dir (l₁ ++ l₂) = true) :
    inContract (l₁.foldl (fun p a => a.onPins p) p).dir l₂ = true := by
  induction l₁ generalizing p with
  | nil => exact h
  | cons a rest ih =>
    rw [List.cons_append, inContract, Bool.and_eq_true, ← PinAction.onPins_dir] at h
    exact ih h.2

/-- With the peripheral not on the wires, a row within its contract completes (R129). -/
theorem pinActions_runs {l : List PinAction} {s : State} (ha : s.attached ≠ .peripheral)
    (h : inContract s.pins.dir l = true) : ∃ t, pinActions l s = .next t := by
  induction l generalizing s with
  | nil => exact ⟨s, rfl⟩
  | cons a rest ih =>
    rw [inContract, Bool.and_eq_true] at h
    obtain ⟨hallowed, hrest⟩ := h
    obtain ⟨u, hu⟩ := pinAction_runs ha a (fun v hv => by subst hv; exact of_decide_eq_true hallowed)
      (fun hs => by subst hs; exact of_decide_eq_true hallowed)
    have hm := pinAction_masterSide hu
    rw [pinActions, hu, andThen_next]
    exact ih (hm.attached ▸ ha) (by rw [hm.pins, PinAction.onPins_dir]; exact hrest)

/-! ## Bytes in an open window -/

theorem WireView.run_append (v : WireView) (es fs : List PinEvent) :
    v.run (es ++ fs) = (v.run es).bind fun u => u.run fs := by
  induction es generalizing v with
  | nil => rfl
  | cons e rest ih =>
    rw [List.cons_append, WireView.run, WireView.run]
    cases v.next e with
    | some u => exact ih u
    | none => rfl

/-- `n` whole bytes, read or written, inside an open window. -/
structure WholeBytes (n : Nat) (es : List PinEvent) : Prop where
  pins : ∀ p : Pins, p.dir = .output → (p.after es).clk = true ∧ (p.after es).dir = .output
  contract : ∀ l, inContract .output (es.map PinEvent.action ++ l) = inContract .output l
  view : ∀ e c, WireView.run ⟨true, c, e⟩ es = some ⟨true, true, e⟩
  rises : ∀ c fs, rises c (es ++ fs) = 8 * n + rises true fs

theorem wholeBytes_writeByteEvents (b : Byte) : WholeBytes 1 (writeByteEvents b) where
  pins p hd := by
    rw [Pins.after, map_action_writeByteEvents, foldl_onPins_writeByteActions]
    exact ⟨rfl, hd⟩
  contract _ := rfl
  view e c := by simp [writeByteEvents, lsbFirst, WireView.run, WireView.next, BitVec.add_assoc]
  rises c fs := by simp [writeByteEvents, lsbFirst, rises]; omega

theorem wholeBytes_readByteEvents (r : Byte) : WholeBytes 1 (readByteEvents r) where
  pins _ _ := ⟨rfl, rfl⟩
  contract _ := rfl
  view e c := by simp [readByteEvents, lsbFirst, WireView.run, WireView.next, BitVec.add_assoc]
  rises c fs := by simp [readByteEvents, lsbFirst, rises]; omega

theorem WholeBytes.append {m n : Nat} {es fs : List PinEvent} (he : WholeBytes m es) (hf : WholeBytes n fs) :
    WholeBytes (m + n) (es ++ fs) where
  pins p hd := by
    rw [Pins.after_append]
    exact hf.pins _ (he.pins p hd).2
  contract l := by rw [List.map_append, List.append_assoc, he.contract, hf.contract]
  view e c := by rw [WireView.run_append, he.view, Option.bind_some, hf.view]
  rises c gs := by rw [List.append_assoc, he.rises, hf.rises]; omega

theorem wholeBytes_flatMap_writeByteEvents (d : Byte) (ds : List Byte) :
    WholeBytes (ds.length + 1) ((d :: ds).flatMap writeByteEvents) := by
  induction ds generalizing d with
  | nil => simpa using wholeBytes_writeByteEvents d
  | cons e rest ih =>
    rw [List.flatMap_cons, List.length_cons, Nat.add_comm]
    exact (wholeBytes_writeByteEvents d).append (ih e)

/-! ## Windows -/

/-- CLK high, and the master at rest (R150). -/
def Pins.settled (p : Pins) : Prop := p.stb = true ∧ p.clk = true ∧ p.dir = .output

/-- Windows one after the other that hold `n` bytes. -/
structure Framed (n : Nat) (es : List PinEvent) : Prop where
  pins : ∀ p : Pins, p.dir = .output → (p.after es).settled
  contract : ∀ l, inContract .output (es.map PinEvent.action ++ l) = inContract .output l
  view : ∀ c, WireView.run ⟨false, c, 0#3⟩ es = some ⟨false, true, 0#3⟩
  rises : ∀ c fs, rises c (es ++ fs) = 8 * n + rises true fs

theorem WholeBytes.window {n : Nat} {es : List PinEvent} (h : WholeBytes n es) : Framed n (windowEvents es) where
  pins p hd := by
    obtain ⟨hclk, hdir⟩ := h.pins { p with stb := false } hd
    rw [windowEvents, Pins.after_append]
    exact ⟨rfl, hclk, hdir⟩
  contract l := by
    rw [windowEvents, List.map_append, List.append_assoc]
    exact h.contract _
  view c := by
    rw [windowEvents, WireView.run_append]
    have hbody := h.view 0#3 c
    simp [WireView.run, WireView.next, hbody]
  rises c fs := by
    rw [windowEvents, List.append_assoc]
    exact h.rises c _

theorem Framed.append {m n : Nat} {es fs : List PinEvent} (he : Framed m es) (hf : Framed n fs) :
    Framed (m + n) (es ++ fs) where
  pins p hd := by
    rw [Pins.after_append]
    exact hf.pins _ (he.pins p hd).2.2
  contract l := by rw [List.map_append, List.append_assoc, he.contract, hf.contract]
  view c := by rw [WireView.run_append, he.view, Option.bind_some, hf.view]
  rises c gs := by rw [List.append_assoc, he.rises, hf.rises]; omega

theorem inContract_of_framed {n : Nat} {es : List PinEvent} (h : Framed n es) :
    inContract .output (es.map PinEvent.action) = true := by
  rw [← List.append_nil (es.map PinEvent.action), h.contract]
  rfl

theorem rises_of_framed {n : Nat} {es : List PinEvent} (h : Framed n es) (c : Bool) : rises c es = 8 * n := by
  rw [← List.append_nil es, h.rises]
  rfl

theorem framed_instructionEvents (c : Byte) : Framed 1 (instructionEvents c) := (wholeBytes_writeByteEvents c).window

theorem framed_writeTransactionEvents (p : Params) (a : Addr) (ds : List Byte) :
    Framed (1 + (ds.length + 1)) (writeTransactionEvents p a ds) :=
  (framed_instructionEvents _).append (wholeBytes_flatMap_writeByteEvents _ ds).window

theorem framed_scanEvents (p : Params) (w : ScanWord) : Framed 5 (scanEvents p w) :=
  ((((wholeBytes_writeByteEvents _).append (wholeBytes_readByteEvents _)).append (wholeBytes_readByteEvents _)).append
    (wholeBytes_readByteEvents _)).append (wholeBytes_readByteEvents _) |>.window

/-! ## Commands -/

/-- The four pin actions CONSTRUCT begins with, as they are seen (R281). -/
def initEvents : List PinEvent := [.stb true, .clk false, .dirOut, .dio false]

/-- The row of a command with legal operands (R110). -/
theorem framed_commandEvents {i : Instr} (hw : i.isWire = false) (hi : i.wellFormed = true) (hcon : i ≠ .construct)
    (p : Params) (m : Master) (w : ScanWord) :
    ∃ n, Framed n (commandEvents p m w i) ∧ risingEdgeCount i = 8 * n := by
  cases i with
  | displayCtrl | dataWrite | dataRead | setAddress => nomatch hw
  | construct => exact absurd rfl hcon
  | displayOn | displayOff => exact ⟨1, framed_instructionEvents _, rfl⟩
  | setBrightness level =>
    rw [commandEvents, if_pos (of_decide_eq_true hi), risingEdgeCount, hi]
    exact ⟨1, framed_instructionEvents _, rfl⟩
  | setSegmentValue x v =>
    rw [commandEvents, if_pos (of_decide_eq_true hi), risingEdgeCount, hi]
    exact ⟨3, framed_writeTransactionEvents _ _ [v], rfl⟩
  | setLedState x v =>
    rw [commandEvents, if_pos (of_decide_eq_true hi), risingEdgeCount, hi]
    exact ⟨3, framed_writeTransactionEvents _ _ [v], rfl⟩
  | write x v =>
    rw [commandEvents, if_pos (of_decide_eq_true hi), risingEdgeCount, hi]
    exact ⟨3, framed_writeTransactionEvents _ _ [v], rfl⟩
  | scanKeys | defPressedKeys => exact ⟨5, framed_scanEvents _ _, rfl⟩
  | cleanup => exact ⟨18, framed_writeTransactionEvents p 0#4 (List.replicate 16 0#8), rfl⟩

/-- The row of CONSTRUCT is its four pin actions and 19 bytes in three windows (R280). -/
theorem framed_construct (p : Params) (m : Master) (w : ScanWord) :
    ∃ es, Framed 19 es ∧ commandEvents p m w .construct = initEvents ++ es :=
  ⟨_, (framed_instructionEvents _).append (framed_writeTransactionEvents p 0#4 (List.replicate 16 0#8)),
    List.append_assoc _ _ _⟩

/-- A rejected command puts nothing on the wires (R260). -/
theorem commandEvents_illFormed {i : Instr} (hi : i.wellFormed = false) (p : Params) (m : Master) (w : ScanWord) :
    commandEvents p m w i = [] := by
  cases i with
  | setBrightness | setSegmentValue | setLedState | write => rw [commandEvents, if_neg (of_decide_eq_false hi)]
  | _ => nomatch hi

/-- Whatever the pins before CONSTRUCT, and from an output before any other command, the row of a command with legal operands ends with settled pins (R150). -/
theorem commandEvents_settles {i : Instr} (hw : i.isWire = false) (hi : i.wellFormed = true) {p : Pins}
    (hp : i ≠ .construct → p.dir = .output) (c : Params) (m : Master) (w : ScanWord) :
    (p.after (commandEvents c m w i)).settled := by
  by_cases hcon : i = .construct
  · subst hcon
    obtain ⟨es, hes, heq⟩ := framed_construct c m w
    rw [heq, Pins.after_append]
    exact hes.pins _ rfl
  · obtain ⟨n, hn, -⟩ := framed_commandEvents hw hi hcon c m w
    exact hn.pins p (hp hcon)

/-- The row of a command uses the data pin within its contract (R292). -/
theorem commandActions_inContract {i : Instr} (hw : i.isWire = false) {d : Dir} (hd : i ≠ .construct → d = .output)
    (p : Params) (m : Master) : inContract d (commandActions p m i) = true := by
  rw [commandActions]
  cases hi : i.wellFormed with
  | false => rw [commandEvents_illFormed hi]; rfl
  | true =>
    by_cases hcon : i = .construct
    · subst hcon
      obtain ⟨es, hes, heq⟩ := framed_construct p m 0#32
      rw [heq, List.map_append]
      exact inContract_of_framed hes
    · obtain ⟨n, hn, -⟩ := framed_commandEvents hw hi hcon p m 0#32
      rw [hd hcon]
      exact inContract_of_framed hn

/-- Every accepted command completes, whatever hangs on the wires (R17). -/
theorem exec_completes {i : Instr} (hw : i.isWire = false) {s : State} (h : s.accepts i) : ∃ t, exec i s = .next t := by
  by_cases ha : s.attached = .peripheral
  · cases hi : i.wellFormed with
    | true => exact ⟨_, exec_eq_commandEffect hw hi h ha⟩
    | false => exact ⟨_, exec_illFormed hi (constructed_of_accepts hi h)⟩
  · obtain ⟨-, -, hother⟩ := id h
    obtain ⟨u, hu⟩ := pinActions_runs (s := s.commanded i) ha
      (commandActions_inContract hw (fun hcon => (hother hcon).2.2) s.params s.master)
    exact ⟨finish i s u, (exec_eq_next hw).mpr ⟨State.accepts.takes h, u, hu, rfl⟩⟩

/-! ## The trace of a command -/

/-- A command that scans nothing puts the same on the wires whatever word it is described with. -/
theorem commandEvents_word {i : Instr} (hs : i ≠ .scanKeys) (hd : i ≠ .defPressedKeys) (p : Params) (m : Master)
    (w w' : ScanWord) : commandEvents p m w i = commandEvents p m w' i := by
  cases i with
  | scanKeys => exact absurd rfl hs
  | defPressedKeys => exact absurd rfl hd
  | _ => rfl

/-- Only the scans sample (R23). -/
theorem commandActions_no_sample {i : Instr} (hs : i ≠ .scanKeys) (hd : i ≠ .defPressedKeys) (p : Params) (m : Master) :
    .sample ∉ commandActions p m i := by
  have hinstr := fun c => (outputOnly_instructionEvents c).no_sample
  have hburst := fun a ds => (outputOnly_writeTransactionEvents p a ds).no_sample
  rw [commandActions]
  cases i with
  | scanKeys => exact absurd rfl hs
  | defPressedKeys => exact absurd rfl hd
  | displayCtrl | dataWrite | dataRead | setAddress => exact List.not_mem_nil
  | displayOn | displayOff => exact hinstr _
  | cleanup => exact hburst _ _
  | setBrightness level =>
    rw [commandEvents]
    split
    · exact hinstr _
    · exact List.not_mem_nil
  | setSegmentValue | setLedState | write =>
    rw [commandEvents]
    split
    · exact hburst _ _
    · exact List.not_mem_nil
  | construct =>
    rw [commandEvents, List.map_append, List.map_append, List.mem_append, List.mem_append, not_or, not_or]
    exact ⟨⟨by decide, hinstr _⟩, hburst _ _⟩

theorem length_writeByteEvents (b : Byte) : (writeByteEvents b).length = 24 := rfl

theorem length_flatMap_writeByteEvents (ds : List Byte) : (ds.flatMap writeByteEvents).length = 24 * ds.length := by
  induction ds with
  | nil => rfl
  | cons d rest ih =>
    rw [List.flatMap_cons, List.length_append, length_writeByteEvents, ih, List.length_cons]
    omega

theorem length_writeTransactionEvents (p : Params) (a : Addr) (ds : List Byte) :
    (writeTransactionEvents p a ds).length = 52 + 24 * ds.length := by
  rw [writeTransactionEvents, List.length_append, length_instructionEvents, windowEvents, List.length_append,
    List.length_cons, length_flatMap_writeByteEvents, List.length_cons, List.length_singleton]
  omega

/-- The number of pin actions of a command (R304). -/
theorem length_commandEvents {i : Instr} (hw : i.isWire = false) (p : Params) (m : Master) (w : ScanWord) :
    (commandEvents p m w i).length = pinActionCount i := by
  cases hi : i.wellFormed with
  | false => rw [commandEvents_illFormed hi, pinActionCount.eq_def, if_pos hi]; rfl
  | true =>
    rw [pinActionCount.eq_def, hi]
    cases i with
    | displayCtrl | dataWrite | dataRead | setAddress => nomatch hw
    | displayOn | displayOff => rfl
    | scanKeys | defPressedKeys => rfl
    | cleanup => exact length_writeTransactionEvents _ _ _
    | setBrightness => rw [commandEvents, if_pos (of_decide_eq_true hi)]; rfl
    | setSegmentValue | setLedState | write =>
      rw [commandEvents, if_pos (of_decide_eq_true hi), length_writeTransactionEvents]
      rfl
    | construct =>
      rw [commandEvents, List.length_append, List.length_append, length_instructionEvents, cleanupEvents,
        length_writeTransactionEvents]
      rfl

/-- The rising CLK edges of a command (R304). -/
theorem rises_commandEvents {i : Instr} (hw : i.isWire = false) (c : Bool) (p : Params) (m : Master) (w : ScanWord) :
    rises c (commandEvents p m w i) = risingEdgeCount i := by
  cases hi : i.wellFormed with
  | false => rw [commandEvents_illFormed hi, risingEdgeCount.eq_def, if_pos hi]; rfl
  | true =>
    by_cases hcon : i = .construct
    · subst hcon
      obtain ⟨es, hes, heq⟩ := framed_construct p m w
      rw [heq]
      simp [initEvents, rises, rises_of_framed hes, risingEdgeCount, Instr.wellFormed]
    · obtain ⟨n, hn, hcount⟩ := framed_commandEvents hw hi hcon p m w
      rw [hcount]
      exact rises_of_framed hn c

end Sys2Proof.Machine
end

section
/-! What the host and the wires see of a command: its trace, its pins, its one result. -/

namespace Sys2Proof.Machine

/-! ## Rejected and refused -/

/-- Settles O39. Each range check is R106's legal range, and a rejected command is its error. -/
theorem outOfRangeOperandsAreRejected : Obligations.OutOfRangeOperandsAreRejected := by
  intro x v s hc
  have h7 (hx : x.toNat > 7) : decide (x.toNat ≤ 7) = false := decide_eq_false (Nat.not_le.mpr hx)
  have h15 (hx : x.toNat > 15) : decide (x.toNat ≤ 15) = false := decide_eq_false (Nat.not_le.mpr hx)
  exact ⟨fun hx => exec_illFormed (i := .setBrightness x) (h7 hx) hc,
    fun hx => exec_illFormed (i := .setSegmentValue x v) (h7 hx) hc,
    fun hx => exec_illFormed (i := .setLedState x v) (h7 hx) hc,
    fun hx => exec_illFormed (i := .write x v) (h15 hx) hc⟩

/-- Settles O40. The test of `M.constructed` comes before anything else a command does (R43). -/
theorem commandsNeedOneConstruct : Obligations.CommandsNeedOneConstruct :=
  ⟨fun _ _ hw hi hc => exec_notConstructed hw hi hc, fun _ hc => exec_construct_refused hc⟩

/-! ## The trace -/

/-- A scan that goes on has read the word its samples have shown (R190). -/
theorem exec_scan_trace {s t : State} {f : ScanWord → ScanWord}
    (h : whenConstructed s (andThen (readTransaction s) fun r => returnOk (f r.1) r.2) = .next t) :
    ∃ w, t.trace = s.trace ++ scanEvents s.params w ∧ t.results = s.results ++ [{ status := 0#8, value := f w }] := by
  obtain ⟨-, h⟩ := whenConstructed_eq_next.mp h
  obtain ⟨⟨w, u⟩, hread, h⟩ := andThen_eq_next.mp h
  obtain rfl := returnOk_eq_next.mp h
  have heffect : pinActions ((scanEvents s.params w).map PinEvent.action) s = .next u := by
    rw [← effectOf_readTransaction w s, hread]
    rfl
  have htrace := readTransaction_trace hread
  exact ⟨w, htrace, congrArg (· ++ _) (pinActions_masterSides heffect).results⟩

/-- Whatever hangs on the wires, a command that goes on has put its row on them (R110). -/
theorem exec_trace {i : Instr} (hw : i.isWire = false) {s t : State} (h : exec i s = .next t) :
    ∃ w, t.trace = s.trace ++ commandEvents s.params s.master w i ∧
      (i = .scanKeys → t.results = s.results ++ [{ status := 0#8, value := w }]) ∧
      (i = .defPressedKeys → t.results = s.results ++ [{ status := 0#8, value := pressedKeys w }]) := by
  by_cases hs : i = .scanKeys
  · subst hs
    obtain ⟨w, htrace, hres⟩ := exec_scan_trace (f := id) h
    exact ⟨w, htrace, fun _ => hres, fun hi => nomatch hi⟩
  by_cases hd : i = .defPressedKeys
  · subst hd
    obtain ⟨w, htrace, hres⟩ := exec_scan_trace (f := pressedKeys) h
    exact ⟨w, htrace, (fun hi => nomatch hi), fun _ => hres⟩
  obtain ⟨-, u, hu, rfl⟩ := (exec_eq_next hw).mp h
  exact ⟨0#32, (pinActions_deviceOnly (commandActions_no_sample hs hd _ _) hu).trace, fun hi => absurd hi hs,
    fun hi => absurd hi hd⟩

/-- Settles O44. An accepted command completes; without a scan its pin actions determine what is seen, and a scan returns what it has seen. -/
theorem everyCommandHasItsTrace : Obligations.EveryCommandHasItsTrace := by
  intro i s hw hc
  obtain ⟨t, ht⟩ := exec_completes hw hc
  obtain ⟨w, htrace, hscan, hdef⟩ := exec_trace hw ht
  exact ⟨t, w, ht, htrace, hscan, hdef⟩

/-! ## The pins -/

/-- The pins after a command that goes on. -/
theorem exec_pins {i : Instr} (hw : i.isWire = false) {s t : State} (h : exec i s = .next t) (w : ScanWord) :
    t.pins = s.pins.after (commandEvents s.params s.master w i) := by
  obtain ⟨-, u, hu, rfl⟩ := (exec_eq_next hw).mp h
  have hpins : u.pins = s.pins.after (commandEvents s.params s.master 0#32 i) := (pinActions_masterSides hu).pins
  refine hpins.trans ?_
  by_cases hs : i = .scanKeys
  · subst hs; rfl
  by_cases hd : i = .defPressedKeys
  · subst hd; rfl
  rw [commandEvents_word hs hd]

theorem State.atRest_eq_true {s : State} : s.atRest = true ↔ s.pins.stb = true ∧ s.pins.dir = .output := by
  rw [State.atRest, Bool.and_eq_true, beq_iff_eq]

/-- An accepted command leaves the master at rest (R150), also when it is rejected. -/
theorem exec_atRest {i : Instr} (hw : i.isWire = false) {s t : State} (hc : s.accepts i) (h : exec i s = .next t) :
    t.atRest = true := by
  obtain ⟨-, -, hother⟩ := id hc
  rw [State.atRest_eq_true, exec_pins hw h 0#32]
  cases hi : i.wellFormed with
  | false =>
    rw [commandEvents_illFormed hi]
    exact (hother (ne_construct_of_illFormed hi)).2
  | true =>
    obtain ⟨hstb, -, hdir⟩ := commandEvents_settles hw hi (fun hcon => (hother hcon).2.2) s.params s.master 0#32
    exact ⟨hstb, hdir⟩

/-- Settles O45. The counts of R304 are those of the row the command puts on the wires. -/
theorem everyCommandCompletes : Obligations.EveryCommandCompletes := by
  intro i s hw hc
  obtain ⟨t, ht⟩ := exec_completes hw hc
  obtain ⟨w, htrace, -, -⟩ := exec_trace hw ht
  refine ⟨t, ht, exec_atRest hw hc ht, ?_, ?_⟩
  · rw [htrace, List.length_append, length_commandEvents hw]
  · rw [htrace, List.drop_left, rises_commandEvents hw]

/-- Settles O48. The row of a command is windows of whole bytes, after the four pin actions of CONSTRUCT. -/
theorem everyTraceIsFramed : Obligations.EveryTraceIsFramed := by
  refine ⟨fun i s t hw hcon hready h => ?_, fun s t h => ?_⟩
  · obtain ⟨w, htrace, -, -⟩ := exec_trace hw h
    have hpins := exec_pins hw h w
    obtain ⟨-, -, -, hdir⟩ := hready
    cases hi : i.wellFormed with
    | false =>
      rw [commandEvents_illFormed hi] at htrace hpins
      exact ⟨[], _, htrace, rfl, rfl, congrArg Pins.clk hpins.symm⟩
    | true =>
      obtain ⟨n, hn, -⟩ := framed_commandEvents hw hi hcon s.params s.master w
      obtain ⟨-, hclk, -⟩ := hn.pins s.pins hdir
      exact ⟨_, _, htrace, hn.view _, rfl, (hpins ▸ hclk).symm⟩
  · obtain ⟨w, htrace, -, -⟩ := exec_trace rfl h
    have hpins := exec_pins rfl h w
    obtain ⟨es, hes, heq⟩ := framed_construct s.params s.master w
    rw [heq, Pins.after_append] at hpins
    rw [heq, ← List.append_assoc] at htrace
    obtain ⟨-, hclk, -⟩ := hes.pins (s.pins.after initEvents) rfl
    exact ⟨es, _, htrace, hes.view false, rfl, (hpins ▸ hclk).symm⟩

/-! ## The result -/

theorem valueOf_eq_zero {i : Instr} (hs : i ≠ .scanKeys) (hd : i ≠ .defPressedKeys) (w : ScanWord) :
    valueOf w i = 0#32 := by
  cases i with
  | scanKeys => exact absurd rfl hs
  | defPressedKeys => exact absurd rfl hd
  | _ => rfl

/-- The result of a command without a scan does not depend on the wires. -/
theorem commandResult_value {i : Instr} (hs : i ≠ .scanKeys) (hd : i ≠ .defPressedKeys) (s t : State) :
    (commandResult i s t).value = 0#32 := by
  unfold commandResult
  split
  · exact valueOf_eq_zero hs hd _
  · rfl

theorem commandResult_status (i : Instr) (s t : State) :
    (commandResult i s t).status = if i.wellFormed then 0#8 else rangeCode i := by
  unfold commandResult
  split <;> rfl

/-- Settles O46. A command ends by giving its one result, and no error code is 0. -/
theorem everyCommandReturnsOneResult : Obligations.EveryCommandReturnsOneResult := by
  intro i s t hw h
  obtain ⟨-, u, hu, rfl⟩ := (exec_eq_next hw).mp h
  refine ⟨commandResult i s u, congrArg (· ++ _) (pinActions_masterSides hu).results, ?_,
    fun hs hd => commandResult_value hs hd s u⟩
  rw [commandResult_status]
  cases hi : i.wellFormed with
  | true => simp
  | false => simpa using rangeCode_ne_zero hi

end Sys2Proof.Machine
end

section
/-! Between commands (10_state.md R28, R44; 41_framing.md R150): phase IDLE follows the pin STB, whatever the rest of the peripheral holds, and after a command both are at rest with the mirror in the latch. -/

namespace Sys2Proof.Machine

/-! ## Phase IDLE and the pin STB -/

/-- A peripheral on the wires is in IDLE exactly while STB is high (R38, R211). -/
def State.idleWithStb (s : State) : Prop := s.attached = .peripheral → (s.pins.stb = true ↔ s.per.phase = .idle)

/-- No byte brings the peripheral into IDLE or out of it. -/
theorem byteComplete_idle {s t : State} (h : byteComplete s = .next t) : t.per.phase = .idle ↔ s.per.phase = .idle := by
  unfold byteComplete at h
  split at h
  case h_2 hp =>
    unfold acceptInstruction at h
    split at h
    case h_1 i _ =>
      rw [hp]
      cases i with
      | displayCtrl | dataWrite | dataRead => cases h; exact iff_of_false Phase.noConfusion Phase.noConfusion
      | setAddress addr =>
        cases h
        refine iff_of_false ?_ Phase.noConfusion
        show phaseAfterAddress s.per.mode ≠ .idle
        cases s.per.mode <;> exact Phase.noConfusion
      | _ => nomatch h
    case h_2 => nomatch h
  all_goals cases h; exact Iff.rfl

theorem receiveBit_idle {s t : State} (h : receiveBit s = .next t) : t.per.phase = .idle ↔ s.per.phase = .idle := by
  obtain ⟨_, h⟩ | ⟨_, rfl⟩ := receiveBit_eq_next.mp h
  · unfold latchBit at h
    dsimp only at h
    split at h
    · have hb := byteComplete_idle h
      exact hb
    · cases h; exact Iff.rfl
  · exact Iff.rfl

theorem periphClkRise_idle {s t : State} (h : periphClkRise s = .next t) :
    t.per.phase = .idle ↔ s.per.phase = .idle := by
  unfold periphClkRise at h
  split at h
  · cases h; exact Iff.rfl
  · split at h
    case h_2 | h_3 => exact receiveBit_idle h
    case h_4 => split at h <;> cases h; exact Iff.rfl
    all_goals cases h
    exact Iff.rfl

theorem periphClkFall_phase (s : State) : (periphClkFall s).per.phase = s.per.phase := by
  unfold periphClkFall presentKeyBit
  split
  · rfl
  · split
    case h_4 => split <;> rfl
    all_goals rfl

/-- No change of CLK brings the peripheral into IDLE or out of it. -/
theorem clkEdge_idle {v : Bool} {s t : State} (h : clkEdge v s = .next t) : t.per.phase = .idle ↔ s.per.phase = .idle := by
  unfold clkEdge at h
  split at h
  case h_2 => exact periphClkRise_idle h
  case h_3 => cases h; rw [periphClkFall_phase]
  case h_5 => cases h; rw [loopRise_per]
  case h_6 => cases h; rw [loopFall_per]
  all_goals cases h; exact Iff.rfl

/-- A change of STB brings phase and pin together (R211). -/
theorem setStb_idle {v : Bool} {s t : State} (h : setStb v s = .next t) (hv : s.pins.stb ≠ v ∨ s.idleWithStb) :
    t.idleWithStb := by
  rw [setStb, Host.Outcome.next.injEq] at h
  subst h
  by_cases heq : s.pins.stb = v
  · rw [if_pos heq]
    obtain hne | hidle := hv
    · exact absurd heq hne
    · exact heq ▸ hidle
  · rw [if_neg heq]
    intro ha
    have hs : ((s.setPins { s.pins with stb := v }).log (.stb v)).attached = .peripheral :=
      (stbEdge_deviceOnly v _).attached.symm.trans ha
    unfold stbEdge
    rw [hs]
    cases v <;> simp

theorem pinAction_idle {a : PinAction} {s t : State} (h : pinAction a s = .next t) (hs : s.idleWithStb) :
    t.idleWithStb := by
  cases a with
  | stb v => exact setStb_idle h (.inr hs)
  | clk v =>
    simp only [pinAction, setClk] at h
    split at h
    · cases h; exact hs
    · intro ha
      have hd := clkEdge_deviceOnly h
      rw [clkEdge_idle h, hd.pins]
      exact hs (hd.attached.symm.trans ha)
  | dio v =>
    simp only [pinAction, setDio] at h
    split at h
    · cases h; exact hs
    · nomatch h
  | dirOut | dirIn => cases h; exact hs
  | sample =>
    simp only [pinAction, sampleLine] at h
    split at h
    · nomatch h
    · cases h; exact hs

theorem powerMove_idle {s : State} (hs : s.idleWithStb) (m : PowerMove) : (s.powerMove m).idleWithStb := by
  unfold State.powerMove
  split
  case h_3 => exact fun ha => nomatch ha
  case h_5 | h_6 => exact fun _ => Periph.poweredUp_idle _ _
  all_goals exact hs

theorem pinActions_idle {l : List PinAction} {s t : State} (h : pinActions l s = .next t) (hs : s.idleWithStb) :
    t.idleWithStb := by
  induction l generalizing s with
  | nil => cases h; exact hs
  | cons a rest ih =>
    obtain ⟨u, hu, ht⟩ := andThen_eq_next.mp h
    exact ih ht (pinAction_idle hu hs)

theorem pinActionsAmid_idle {moves : List (Nat × PowerMove)} {l : List PinAction} {s t : State}
    (h : pinActionsAmid moves l s = .next t) (hs : s.idleWithStb) : t.idleWithStb := by
  induction moves generalizing l s with
  | nil => exact pinActions_idle h hs
  | cons x rest ih =>
    obtain ⟨u, hu, ht⟩ := andThen_eq_next.mp h
    exact ih ht (powerMove_idle (pinActions_idle hu hs) x.2)

/-- The row assigns no level to STB but the one it has. -/
def NoStrobe (s : State) (l : List PinAction) : Prop := ∀ v, .stb v ∈ l → v = s.pins.stb

/-- A pin action that is no edge of STB leaves its level. -/
theorem onPins_stb {a : PinAction} {p : Pins} (ha : ∀ v, a = .stb v → v = p.stb) : (a.onPins p).stb = p.stb := by
  cases a with
  | stb v => exact ha v rfl
  | _ => rfl

/-- An edge of STB brings phase and pin together, wherever in a row it comes. -/
theorem pinActions_idle_or {l : List PinAction} {s t : State} (h : pinActions l s = .next t) :
    t.idleWithStb ∨ t.pins.stb = s.pins.stb ∧ NoStrobe s l := by
  induction l generalizing s with
  | nil => cases h; exact .inr ⟨rfl, fun _ hv => nomatch hv⟩
  | cons a rest ih =>
    obtain ⟨u, hu, ht⟩ := andThen_eq_next.mp h
    by_cases ha : ∀ v, a = .stb v → v = s.pins.stb
    · have hstb : u.pins.stb = s.pins.stb := by rw [(pinAction_masterSide hu).pins, onPins_stb ha]
      obtain hidle | ⟨hsame, hrest⟩ := ih ht
      · exact .inl hidle
      · refine .inr ⟨hsame.trans hstb, fun v hv => ?_⟩
        obtain rfl | hv := List.mem_cons.mp hv
        · exact ha v rfl
        · exact (hrest v hv).trans hstb
    · obtain ⟨v, rfl, hv⟩ : ∃ v, a = .stb v ∧ v ≠ s.pins.stb := by
        simpa only [not_forall, exists_prop] using ha
      exact .inl (pinActions_idle ht (setStb_idle hu (.inl (Ne.symm hv))))

theorem pinActionsAmid_idle_or {moves : List (Nat × PowerMove)} {l : List PinAction} {s t : State}
    (h : pinActionsAmid moves l s = .next t) : t.idleWithStb ∨ NoStrobe s l := by
  induction moves generalizing l s with
  | nil => exact (pinActions_idle_or h).imp id And.right
  | cons x rest ih =>
    obtain ⟨u, hu, ht⟩ := andThen_eq_next.mp h
    obtain hidle | ⟨hsame, htake⟩ := pinActions_idle_or hu
    · exact .inl (pinActionsAmid_idle ht (powerMove_idle hidle x.2))
    · refine (ih ht).imp id fun hdrop v hv => ?_
      rw [← List.take_append_drop x.1 l, List.mem_append] at hv
      obtain hv | hv := hv
      · exact htake v hv
      · exact (hdrop v hv).trans (by rw [State.powerMove_pins, hsame])

/-- CONSTRUCT brings phase and pin together whatever they were at power-on (R280). -/
theorem strobe_construct (p : Params) (m : Master) (s : State) : ¬ NoStrobe s (commandActions p m .construct) := by
  intro h
  have hhigh : true = s.pins.stb := h true (List.mem_map.mpr ⟨.stb true, by simp [commandEvents], rfl⟩)
  have hlow : false = s.pins.stb :=
    h false (List.mem_map.mpr ⟨.stb false, by simp [commandEvents, instructionEvents, windowEvents], rfl⟩)
  exact Bool.noConfusion (hhigh.trans hlow.symm)

/-! ## The rest invariant -/

/-- Between commands: what `restInv` and `restPins` say of a constructed master, but for the mirror. -/
structure Resting (s : State) : Prop where
  settled : s.pins.settled
  idle : s.attached = .peripheral → s.per.phase = .idle

theorem Resting.idleWithStb {s : State} (h : Resting s) : s.idleWithStb := fun ha =>
  iff_of_true h.settled.1 (h.idle ha)

theorem Resting.of_idle {s : State} (hs : s.pins.settled) (h : s.idleWithStb) : Resting s :=
  ⟨hs, fun ha => (h ha).mp hs.1⟩

/-- A command that goes on leaves the machine resting if it was so, and CONSTRUCT in any case, whatever changes of power come in its course. -/
theorem execAmid_resting {i : Instr} (hw : i.isWire = false) {moves : List (Nat × PowerMove)} {s t : State}
    (hs : s.master.constructed = true → Resting s) (h : execAmid i moves s = .next t) : Resting t := by
  obtain ⟨hc, u, hu, rfl⟩ := (execAmid_eq_next hw).mp h
  have hpins : u.pins = s.pins.after (commandEvents s.params s.master 0#32 i) := (pinActionsAmid_masterSides hu).pins
  by_cases hcon : i = .construct
  · subst hcon
    have hidle : u.idleWithStb := (pinActionsAmid_idle_or hu).resolve_right (strobe_construct _ _ _)
    have hsettled : u.pins.settled := hpins ▸ commandEvents_settles rfl rfl (fun h => absurd rfl h) _ _ _
    have hr := Resting.of_idle hsettled hidle
    exact ⟨hr.settled, hr.idle⟩
  · have hr := hs (State.takes.constructed hc hcon)
    have hidle : u.idleWithStb := pinActionsAmid_idle (s := s.commanded i) hu hr.idleWithStb
    suffices hsettled : u.pins.settled from ⟨hsettled, (Resting.of_idle hsettled hidle).idle⟩
    rw [hpins]
    cases hi : i.wellFormed with
    | false => rw [commandEvents_illFormed hi]; exact hr.settled
    | true => exact commandEvents_settles hw hi (fun _ => hr.settled.2.2) _ _ _

theorem powerMove_resting {s : State} (h : Resting s) (m : PowerMove) : Resting (s.powerMove m) :=
  Resting.of_idle (by rw [State.powerMove_pins]; exact h.settled) (powerMove_idle h.idleWithStb m)

theorem inputTaken_resting {x : Input} {s t : State} (hs : s.master.constructed = true → Resting s)
    (ht : InputTaken x s t) (hc : t.master.constructed = true) : Resting t := by
  cases ht with
  | switched levels unstable _ ht => subst ht; exact ⟨(hs hc).settled, (hs hc).idle⟩
  | powered m _ ht =>
    subst ht
    rw [State.powerMove_master] at hc
    exact powerMove_resting (hs hc) m
  | reserved u r hu ht =>
    subst ht
    have hm := pinActionsAmid_masterSides hu
    have hr := hs ((congrArg Master.constructed hm.master).symm.trans hc)
    have hu := Resting.of_idle (hm.pins ▸ hr.settled) (pinActionsAmid_idle hu hr.idleWithStb)
    exact ⟨hu.settled, hu.idle⟩
  | ran i hw _ he => exact execAmid_resting hw hs he

theorem inputTaken_wire {x : Input} {s t : State} (ht : InputTaken x s t) : t.wire = s.wire := by
  cases ht with
  | switched levels unstable _ ht => exact ht ▸ rfl
  | powered m _ ht => exact ht ▸ State.powerMove_wire m s
  | reserved u r hu ht => exact ht ▸ (pinActionsAmid_masterSides hu).wire
  | ran i hw _ he =>
    obtain ⟨-, u, hu, rfl⟩ := (execAmid_eq_next hw).mp he
    exact (pinActionsAmid_masterSides hu).wire

theorem State.restPins_iff {s : State} :
    s.restPins ↔ s.wire = [] ∧ s.params.valid = true ∧ (s.master.constructed = true → Resting s) := by
  refine and_congr_right fun _ => and_congr_right fun _ => imp_congr_right fun _ => ?_
  exact ⟨fun ⟨h1, h2, h3, h4⟩ => ⟨⟨h1, h2, h3⟩, h4⟩, fun ⟨⟨h1, h2, h3⟩, h4⟩ => ⟨h1, h2, h3, h4⟩⟩

/-- Every step keeps the part of the rest invariant that does not speak of the mirror. -/
theorem step_restPins {s t : State} (h : s.restPins) (hstep : step s = .next t) : t.restPins := by
  rw [State.restPins_iff] at h ⊢
  obtain ⟨hwire, hvalid, hrest⟩ := h
  cases step_stepped hstep with
  | pin a rest hcons _ => exact absurd (hwire.symm.trans hcons) (List.cons_ne_nil a rest).symm
  | input x rest _ _ ht =>
    refine ⟨(inputTaken_wire ht).trans hwire, ?_, ?_⟩
    · rw [(inputTaken_later ht).params]; exact hvalid
    · exact inputTaken_resting (s := { s with inputs := rest }) (fun hc => ⟨(hrest hc).settled, (hrest hc).idle⟩) ht
  | ended ht => exact ht ▸ ⟨hwire, hvalid, hrest⟩

/-! ## The mirror -/

/-- The latch of a peripheral on the wires is the mirror (R28). -/
def Mirrored (s : State) : Prop :=
  s.attached = .peripheral → s.per.dispEn = s.master.displayEnabled ∧ s.per.bright = s.master.brightness

theorem State.restInv_iff {s : State} :
    s.restInv ↔ s.restPins ∧ (s.master.constructed = true → Mirrored s) := by
  refine ⟨fun ⟨hw, hv, h⟩ => ⟨⟨hw, hv, fun hc => ?_⟩, fun hc ha => ((h hc).2.2.2 ha).2⟩,
    fun ⟨⟨hw, hv, h⟩, hm⟩ => ⟨hw, hv, fun hc => ?_⟩⟩
  · obtain ⟨h1, h2, h3, h4⟩ := h hc
    exact ⟨h1, h2, h3, fun ha => (h4 ha).1⟩
  · obtain ⟨h1, h2, h3, h4⟩ := h hc
    exact ⟨h1, h2, h3, fun ha => ⟨h4 ha, hm hc ha⟩⟩

theorem powerMove_lost_of_not_isBack {m : PowerMove} (h : m.isBack = false) : m = .lost := by
  cases m with
  | lost => rfl
  | back p => nomatch h

/-- Once the power is lost and does not come back, there is no peripheral with power on the wires. -/
theorem pinActionsAmid_stays_lost {moves : List (Nat × PowerMove)} {l : List PinAction} {s t : State}
    (hmoves : (moves.any fun m => m.2.isBack) = false) (hs : moves ≠ [] ∨ s.attached ≠ .peripheral)
    (h : pinActionsAmid moves l s = .next t) : t.attached ≠ .peripheral := by
  induction moves generalizing l s with
  | nil =>
    rw [(pinActions_masterSides h).attached]
    exact hs.resolve_left (absurd rfl)
  | cons x rest ih =>
    obtain ⟨u, -, ht⟩ := andThen_eq_next.mp h
    rw [List.any_cons, Bool.or_eq_false_iff] at hmoves
    rw [powerMove_lost_of_not_isBack hmoves.1] at ht
    exact ih hmoves.2 (.inr u.powerMove_lost_attached) ht

theorem Mirrored.afterBurst {s : State} (h : Mirrored s) (a : Addr) (ds : List Byte) (v : ScanWord) :
    Mirrored ((s.afterBurst a ds).ok v) := h

theorem Mirrored.afterScan {s : State} (h : Mirrored s) (w v : ScanWord) : Mirrored ((s.afterScan w).ok v) := h

/-- A command leaves latch and mirror in agreement if they were so, and CONSTRUCT in any case. -/
theorem commandEffect_mirrored {i : Instr} {s : State} (hs : i ≠ .construct → Mirrored s) :
    Mirrored (commandEffect i s) := by
  cases i with
  | construct | displayOn | displayOff | setBrightness => exact fun _ => ⟨rfl, rfl⟩
  | setSegmentValue | setLedState | cleanup | write => exact (hs Instr.noConfusion).afterBurst _ _ _
  | scanKeys | defPressedKeys => exact (hs Instr.noConfusion).afterScan _ _
  | displayCtrl | dataWrite | dataRead | setAddress => exact hs Instr.noConfusion

theorem exec_mirrored {i : Instr} (hw : i.isWire = false) {s t : State} (hv : s.params.valid = true)
    (hs : s.master.constructed = true → Resting s ∧ Mirrored s) (h : exec i s = .next t) : Mirrored t := by
  obtain ⟨hc, u, hu, hfinish⟩ := (exec_eq_next hw).mp h
  intro ha
  have hattached : s.attached = .peripheral := by
    rw [hfinish] at ha
    exact (pinActions_masterSides hu).attached.symm.trans ha
  have hmaster (hcon : i ≠ .construct) := hs (State.takes.constructed hc hcon)
  cases hi : i.wellFormed with
  | true =>
    have haccepts : s.accepts i := by
      refine ⟨hv, fun hcon => by rw [hc, hcon]; rfl, fun hcon => ?_⟩
      obtain ⟨⟨⟨hstb, -, hdir⟩, -⟩, -⟩ := hmaster hcon
      exact ⟨State.takes.constructed hc hcon, hstb, hdir⟩
    cases (exec_eq_commandEffect hw hi haccepts hattached).symm.trans h
    exact commandEffect_mirrored (fun hcon => (hmaster hcon).2) ha
  | false =>
    have hcon := ne_construct_of_illFormed hi
    cases (exec_illFormed hi (State.takes.constructed hc hcon)).symm.trans h
    exact (hmaster hcon).2 ha

/-- An input in which the power does not come back keeps the mirror in agreement. -/
theorem inputTaken_mirrored {x : Input} {s t : State} (hx : x.bringsPowerBack = false) (hv : s.params.valid = true)
    (hs : s.master.constructed = true → Resting s ∧ Mirrored s) (ht : InputTaken x s t)
    (hc : t.master.constructed = true) : Mirrored t := by
  rw [Input.bringsPowerBack_eq] at hx
  have lost {l : List PinAction} {s u : State} (hmoves : x.moves ≠ []) (hu : pinActionsAmid x.moves l s = .next u) :=
    pinActionsAmid_stays_lost hx (.inl hmoves) hu
  cases ht with
  | switched levels unstable _ ht => subst ht; exact (hs hc).2
  | powered m hm ht =>
    subst hm ht
    rw [powerMove_lost_of_not_isBack (m := m) (by simpa [Input.moves] using hx)]
    exact fun ha => absurd ha s.powerMove_lost_attached
  | reserved u r hu ht =>
    subst ht
    by_cases hmoves : x.moves = []
    · rw [hmoves] at hu
      cases hu
      exact (hs hc).2
    · have hlost := lost hmoves hu
      exact fun ha => absurd ha hlost
  | ran i hw _ he =>
    by_cases hmoves : x.moves = []
    · rw [hmoves, execAmid_nil hw] at he
      exact exec_mirrored hw hv hs he
    · obtain ⟨-, u, hu, rfl⟩ := (execAmid_eq_next hw).mp he
      have hlost := lost hmoves hu
      exact fun ha => absurd ha hlost

/-- Settles O54. A command ends with settled pins and so, by the edges of STB, with the peripheral in IDLE; without a change of power its effect at the peripheral keeps latch and mirror together, and after a loss of power there is no latch to agree with. -/
theorem restInvariantIsKept : Obligations.RestInvariantIsKept := by
  refine fun s t hstep => ⟨fun h hinputs => ?_, fun h => step_restPins h hstep⟩
  obtain ⟨hpins, hmirror⟩ := State.restInv_iff.mp h
  refine State.restInv_iff.mpr ⟨step_restPins hpins hstep, ?_⟩
  obtain ⟨hwire, hvalid, hrest⟩ := State.restPins_iff.mp hpins
  cases step_stepped hstep with
  | pin a rest hcons _ => exact absurd (hwire.symm.trans hcons) (List.cons_ne_nil a rest).symm
  | input x rest _ hx ht =>
    have hbefore (hc : s.master.constructed = true) :
        Resting { s with inputs := rest } ∧ Mirrored { s with inputs := rest } :=
      ⟨⟨(hrest hc).settled, (hrest hc).idle⟩, hmirror hc⟩
    exact inputTaken_mirrored (hinputs x rest hx) (s := { s with inputs := rest }) hvalid hbefore ht
  | ended ht => exact ht ▸ hmirror

/-- Settles O55: the power-on state is a closed term with no master in it. -/
theorem restInvariantAtReset : Obligations.RestInvariantAtReset := by
  unfold Obligations.RestInvariantAtReset
  decide

end Sys2Proof.Machine
end

section
/-! A command compared with itself under another description: one pin action a step (00_scope.md R14), with another device on the wires (20_memory.md R78), with the power of the peripheral lost in its course (70_reset_and_hazards.md R284). -/

namespace Sys2Proof.Machine

/-! ## One pin action a step -/

/-- Steps that have only pin actions to perform are the row of these. -/
theorem steps_wire (l : List PinAction) (s : State) (m : Master) (r : List Result) :
    steps l.length (s.withHost m l r) = andThen (pinActions l s) fun t => .next (t.withHost m [] r) := by
  induction l generalizing s with
  | nil => rfl
  | cons a rest ih =>
    have hstep : step (s.withHost m (a :: rest) r) = pinAction a (s.withHost m rest r) := rfl
    rw [List.length_cons, steps, hstep, pinAction_hostFree a s m rest r, pinActions, andThen_assoc, andThen_assoc]
    exact andThen_congr fun t _ => ih t

/-- A command is its row of pin actions on the machine with the host side as it was, but for the host side. -/
theorem exec_eq_row {i : Instr} (hw : i.isWire = false) {s t : State} (h : exec i s = .next t) :
    ∃ u, pinActions (commandActions s.params s.master i) s = .next u ∧
      t = finish i s (u.withHost (masterAfter i s.master) s.wire s.results) := by
  obtain ⟨-, v, hv, rfl⟩ := (exec_eq_next hw).mp h
  have hfree := pinActions_hostFree (commandActions s.params s.master i) s (masterAfter i s.master) s.wire s.results
  obtain ⟨u, hu, hv⟩ := andThen_eq_next.mp (hfree.symm.trans hv)
  cases hv
  exact ⟨u, hu, rfl⟩

/-- Settles O47. Both levels are the same row of pin actions, which does not look at the host side. -/
theorem wireLevelAgreesWithCommandLevel : Obligations.WireLevelAgreesWithCommandLevel := by
  intro i s hw hc
  obtain ⟨t, ht⟩ := exec_completes hw hc
  obtain ⟨u, hu, heq⟩ := exec_eq_row hw ht
  have hsteps := steps_wire (commandActions s.params s.master i) s s.master s.results
  rw [hu, andThen_next] at hsteps
  refine ⟨t, _, ht, hsteps, rfl, ?_, ?_, ?_, ?_, ?_, (execAmid_nil hw s).trans ht⟩
  all_goals rw [heq]; rfl

/-! ## What a command without a scan shows -/

theorem State.sameMasterSide.symm {s t : State} (h : s.sameMasterSide t) : t.sameMasterSide s := by
  obtain ⟨hparams, hmaster, hpins, hresults, htrace⟩ := h
  exact ⟨hparams.symm, hmaster.symm, hpins.symm, hresults.symm, htrace.symm⟩

theorem State.sameMasterSide.trans {s t u : State} (h : s.sameMasterSide t) (g : t.sameMasterSide u) :
    s.sameMasterSide u := by
  obtain ⟨hparams, hmaster, hpins, hresults, htrace⟩ := h
  obtain ⟨gparams, gmaster, gpins, gresults, gtrace⟩ := g
  exact ⟨hparams.trans gparams, hmaster.trans gmaster, hpins.trans gpins, hresults.trans gresults, htrace.trans gtrace⟩

/-- The master's side after a command that scans nothing. -/
def State.shown (s : State) (i : Instr) : State :=
  ((s.commanded i).showed (commandEvents s.params s.master 0#32 i)).giveResult
    { status := if i.wellFormed then 0#8 else rangeCode i, value := 0#32 }

theorem commandResult_of_no_scan {i : Instr} (hs : i ≠ .scanKeys) (hd : i ≠ .defPressedKeys) (s t : State) :
    commandResult i s t = { status := if i.wellFormed then 0#8 else rangeCode i, value := 0#32 } := by
  rw [← commandResult_status i s t, ← commandResult_value hs hd s t]

/-- Without a scan the host and the wires show the same, whatever hangs there and whatever its power does. -/
theorem execAmid_shown {i : Instr} (hw : i.isWire = false) (hs : i ≠ .scanKeys) (hd : i ≠ .defPressedKeys)
    {moves : List (Nat × PowerMove)} {s t : State} (h : execAmid i moves s = .next t) :
    (s.shown i).sameMasterSide t := by
  obtain ⟨-, u, hu, rfl⟩ := (execAmid_eq_next hw).mp h
  have hm := pinActionsAmid_masterSides hu
  obtain ⟨es, hes, htrace⟩ := hm.trace
  rw [PinEvent.eq_of_map_action_eq hes (commandActions_no_sample hs hd _ _)] at htrace
  refine ⟨hm.params.symm, hm.master.symm, hm.pins.symm, ?_, htrace.symm⟩
  rw [finish, commandResult_of_no_scan hs hd]
  exact congrArg (· ++ _) hm.results.symm

theorem exec_shown {i : Instr} (hw : i.isWire = false) (hs : i ≠ .scanKeys) (hd : i ≠ .defPressedKeys)
    {s t : State} (h : exec i s = .next t) : (s.shown i).sameMasterSide t :=
  execAmid_shown hw hs hd ((execAmid_nil hw s).trans h)

/-! ## An absent or unpowered chip -/

theorem clkEdge_absent {v : Bool} {s t : State} (ha : s.attached = .nothing ∨ s.attached = .unpowered)
    (h : clkEdge v s = .next t) : t = s := by
  unfold clkEdge at h
  obtain ha | ha := ha <;> rw [ha] at h <;> cases v <;> cases h <;> rfl

/-- No pin action reaches the registers of a peripheral that is not there or has no power (R78, R284). -/
theorem pinAction_absent_per {a : PinAction} {s t : State} (ha : s.attached = .nothing ∨ s.attached = .unpowered)
    (h : pinAction a s = .next t) : t.per = s.per := by
  cases a with
  | stb v => cases (setStb_absent ha v).symm.trans h; rfl
  | clk v =>
    simp only [pinAction, setClk] at h
    split at h
    · cases h; rfl
    · rw [clkEdge_absent (s := (s.setPins { s.pins with clk := v }).log (.clk v)) ha h]; rfl
  | dio v => simp only [pinAction, setDio] at h; split at h <;> cases h; rfl
  | dirOut | dirIn => cases h; rfl
  | sample => simp only [pinAction, sampleLine] at h; split at h <;> cases h; rfl

theorem pinActions_absent_per {l : List PinAction} {s t : State} (ha : s.attached = .nothing ∨ s.attached = .unpowered)
    (h : pinActions l s = .next t) : t.per = s.per := by
  induction l generalizing s with
  | nil => cases h; rfl
  | cons a rest ih =>
    obtain ⟨u, hu, ht⟩ := andThen_eq_next.mp h
    rw [ih ((pinAction_masterSide hu).attached.symm ▸ ha) ht, pinAction_absent_per ha hu]

theorem exec_absent_per {i : Instr} (hw : i.isWire = false) {s t : State}
    (ha : s.attached = .nothing ∨ s.attached = .unpowered) (h : exec i s = .next t) : t.per = s.per := by
  obtain ⟨-, u, hu, rfl⟩ := (exec_eq_next hw).mp h
  have hper := pinActions_absent_per (s := s.commanded i) ha hu
  exact hper

/-- With the power lost after `n` of its pin actions a row within its contract goes on to its end. -/
theorem pinActionsAmid_lost_runs {l : List PinAction} {s t : State} (ha : s.attached = .peripheral)
    (hl : inContract s.pins.dir l = true) (h : pinActions l s = .next t) (n : Nat) :
    ∃ u, pinActionsAmid [(n, .lost)] l s = .next u ∧ u.attached = .unpowered := by
  rw [← List.take_append_drop n l, pinActions_append] at h
  obtain ⟨v, hv, -⟩ := andThen_eq_next.mp h
  have hm := pinActions_masterSides hv
  have hlost : (v.powerMove .lost).attached = .unpowered := by simp [State.powerMove, hm.attached, ha]
  have hrest : inContract (v.powerMove .lost).pins.dir (l.drop n) = true := by
    rw [State.powerMove_pins, hm.pins]
    exact inContract_rest (by rwa [List.take_append_drop])
  obtain ⟨u, hu⟩ := pinActions_runs (v.powerMove_lost_attached) hrest
  refine ⟨u, by rw [pinActionsAmid, hv]; exact hu, (pinActions_masterSides hu).attached.trans hlost⟩

/-- An accepted command in whose course the power is lost completes (R284). -/
theorem execAmid_lost_completes {i : Instr} (hw : i.isWire = false) {s : State} (hc : s.accepts i)
    (ha : s.attached = .peripheral) (n : Nat) : ∃ u, execAmid i [(n, .lost)] s = .next u ∧ u.attached = .unpowered := by
  obtain ⟨t, ht⟩ := exec_completes hw hc
  obtain ⟨htakes, v, hv, -⟩ := (exec_eq_next hw).mp ht
  obtain ⟨-, -, hother⟩ := hc
  have hl := commandActions_inContract hw (fun hcon => (hother hcon).2.2) s.params s.master
  obtain ⟨u, hu, hlost⟩ := pinActionsAmid_lost_runs (s := s.commanded i) ha hl hv n
  exact ⟨_, (execAmid_eq_next hw).mpr ⟨htakes, u, hu, rfl⟩, hlost⟩

/-- The pin actions of a command are the same whatever its power does. -/
theorem execAmid_actions {i : Instr} (hw : i.isWire = false) {moves : List (Nat × PowerMove)} {s t : State}
    (h : execAmid i moves s = .next t) :
    t.pins = s.pins.after (commandEvents s.params s.master 0#32 i) ∧ t.master = masterAfter i s.master ∧
      t.trace.map PinEvent.action = s.trace.map PinEvent.action ++ commandActions s.params s.master i := by
  obtain ⟨-, u, hu, rfl⟩ := (execAmid_eq_next hw).mp h
  have hm := pinActionsAmid_masterSides hu
  obtain ⟨es, hes, htrace⟩ := hm.trace
  refine ⟨hm.pins, hm.master, ?_⟩
  rw [finish, State.giveResult_trace, htrace, List.map_append, hes]
  rfl

/-- Settles O49. What a command without a scan shows is determined by its pin actions, which no device changes; without power nothing reaches the registers, and nothing stops the rest of a command. -/
theorem absentChipCannotBeDetected : Obligations.AbsentChipCannotBeDetected := by
  refine ⟨fun i s hw hs hd hc ha => ?_, fun i s n hw hc ha => ?_⟩
  · obtain ⟨t, ht⟩ := exec_completes hw hc
    obtain ⟨u, hu⟩ := exec_completes (s := { s with attached := .nothing }) hw hc
    obtain ⟨v, hv⟩ := exec_completes (s := { s with attached := .unpowered }) hw hc
    have hts := (exec_shown hw hs hd ht).symm
    have hsu := exec_shown hw hs hd hu
    have hsv := exec_shown hw hs hd hv
    have huper := exec_absent_per hw (.inl rfl) hu
    have hvper := exec_absent_per hw (.inr rfl) hv
    exact ⟨t, u, v, ht, hu, hv, hts.trans hsu, hts.trans hsv, huper, hvper⟩
  · obtain ⟨t, ht⟩ := exec_completes hw hc
    obtain ⟨u, hu, hlost⟩ := execAmid_lost_completes hw hc ha n
    obtain ⟨htpins, htmaster, httrace⟩ := execAmid_actions hw ((execAmid_nil hw s).trans ht)
    obtain ⟨hupins, humaster, hutrace⟩ := execAmid_actions hw hu
    exact ⟨t, u, ht, hu, hlost, hupins.trans htpins.symm, humaster.trans htmaster.symm, hutrace.trans httrace.symm,
      fun hs hd => (exec_shown hw hs hd ht).symm.trans (execAmid_shown hw hs hd hu)⟩

/-- A read transaction with no chip, or a chip without power, on the wires reads all ones (R78; log 15). -/
theorem readTransaction_absent {s : State} (ha : s.attached = .nothing ∨ s.attached = .unpowered)
    (hd : s.pins.dir = .output) :
    ∃ t, readTransaction s = .next (0xFFFFFFFF#32, t) ∧ t.per = s.per ∧ t.master = s.master ∧
      t.results = s.results := by
  rw [readTransaction, setStb_absent ha, andThen_next, writeByte_absent (s := s.strobed false) ha hd, andThen_next,
    readBytes_absent (s := (s.strobed false).wroteByte _) ha, andThen_next, setStb_absent (by exact ha), andThen_next]
  exact ⟨_, rfl, rfl, rfl, rfl⟩

/-- Settles O50. Nothing drives the line, so every sample is the pull-up's. -/
theorem absentChipReadsAllOnes : Obligations.AbsentChipReadsAllOnes := by
  have hkeys : pressedKeys 0xFFFFFFFF#32 = 0xFF#32 := by decide
  refine fun s ha => ⟨⟨_, readByte_absent ha⟩, fun hready => ?_, fun hready => ?_⟩
  all_goals
    obtain ⟨hc, -, -, hd⟩ := hready
    obtain ⟨t, ht, hper, hmaster, hresults⟩ := readTransaction_absent ha hd
  · rw [exec, execScanKeys, whenConstructed_of_constructed hc, ht, andThen_next]
    exact ⟨_, rfl, congrArg (· ++ _) hresults, hper, hmaster⟩
  · rw [exec, execDefPressedKeys, whenConstructed_of_constructed hc, ht, andThen_next, hkeys]
    exact ⟨_, rfl, congrArg (· ++ _) hresults, hper, hmaster⟩

end Sys2Proof.Machine
end

section
/-! The commands with the peripheral on the wires (42_register_api.md, 43_key_scan.md, 70_reset_and_hazards.md R280): each has the effect of CommandLevel.lean, and these are the facts about those effects. -/

namespace Sys2Proof.Machine

/-! ## Bursts -/

theorem toNat_add_one (a : Addr) : (a + 1#4).toNat = (a.toNat + 1) % 16 := BitVec.toNat_add a 1#4

/-- A burst leaves every register it does not come to as it was (R71). -/
theorem Memory.read_burst_other {m : Memory} (h : Memory.wf m = true) (a : Addr) (ds : List Byte) {b : Nat}
    (hb : ∀ j, j < ds.length → b ≠ (a.toNat + j) % 16) : Memory.read (Memory.burst m a ds) b = Memory.read m b := by
  induction ds generalizing m a with
  | nil => rfl
  | cons d rest ih =>
    have hfirst : b ≠ a.toNat := by simpa [Nat.mod_eq_of_lt a.isLt] using hb 0 (Nat.succ_pos _)
    rw [Memory.burst, ih (Memory.write_wf h a d), Memory.read_write_other h d hfirst]
    intro j hj
    have hnext := hb (j + 1) (Nat.succ_lt_succ hj)
    rw [toNat_add_one]
    omega

/-- The j-th byte of a burst is at `(a + j) mod 16` (R71): up to 16 bytes do not come round to it again. -/
theorem Memory.read_burst {m : Memory} (h : Memory.wf m = true) (a : Addr) {ds : List Byte} (hlen : ds.length ≤ 16)
    {j : Nat} (hj : j < ds.length) : Memory.read (Memory.burst m a ds) ((a.toNat + j) % 16) = ds[j] := by
  induction ds generalizing m a j with
  | nil => exact absurd hj (Nat.not_lt_zero j)
  | cons d rest ih =>
    have hwf := Memory.write_wf h a d
    rw [List.length_cons] at hlen hj
    cases j with
    | zero =>
      have ha : (a.toNat + 0) % 16 = a.toNat := Nat.mod_eq_of_lt a.isLt
      rw [ha, Memory.burst, Memory.read_burst_other hwf, Memory.read_write_same h, List.getElem_cons_zero]
      intro k hk
      rw [toNat_add_one]
      omega
    | succ j =>
      have hnext := ih hwf (a + 1#4) (by omega) (Nat.lt_of_succ_lt_succ hj)
      have haddr : ((a + 1#4).toNat + j) % 16 = (a.toNat + (j + 1)) % 16 := by rw [toNat_add_one]; omega
      rw [haddr] at hnext
      rw [Memory.burst, hnext, List.getElem_cons_succ]

/-- No register is listed beyond the sixteen. -/
theorem Memory.read_beyond {m : Memory} {lo a : Nat} (h : Memory.wfFrom lo m = true) (ha : 16 ≤ a) :
    Memory.read m a = unlistedByte := by
  induction m generalizing lo with
  | nil => rfl
  | cons c rest ih =>
    obtain ⟨b, v⟩ := c
    simp only [Memory.wfFrom, Bool.and_eq_true, decide_eq_true_eq] at h
    obtain ⟨⟨⟨-, hb⟩, -⟩, hrest⟩ := h
    rw [Memory.read, if_neg (by omega), ih hrest]

/-- The burst of CLEANUP empties DISPLAY space (R164): in canonical form nothing is listed. -/
theorem Memory.burst_zeros {m : Memory} (h : Memory.wf m = true) :
    Memory.burst m 0#4 (List.replicate 16 0#8) = [] := by
  have hwf := Memory.burst_wf h 0#4 (List.replicate 16 0#8)
  refine Memory.ext hwf rfl fun a => ?_
  by_cases ha : a < 16
  · have hread := Memory.read_burst h 0#4 (ds := List.replicate 16 0#8) (by simp) (j := a) (by simpa using ha)
    rw [BitVec.toNat_zero, Nat.zero_add, Nat.mod_eq_of_lt ha, List.getElem_replicate] at hread
    exact hread
  · exact Memory.read_beyond hwf (Nat.not_lt.mp ha)

/-- Settles O26. The transaction completes in the state `afterBurst`, and its memory reads as the burst says. -/
theorem writeTransactionStoresABurst : Obligations.WriteTransactionStoresABurst := by
  intro a ds s hv ha hs hd hm hds hlen
  refine ⟨_, openWriteTransaction_peripheral ⟨Params.constraints hv, ha, hs, hd⟩ a hds,
    fun j hj => Memory.read_burst hm a hlen hj, fun b hb => Memory.read_burst_other hm a ds hb, ?_, rfl, rfl, rfl, rfl,
    rfl, rfl, hs, rfl, hd, ?_, rfl⟩
  · show (a + BitVec.ofNat 4 ds.length).toNat = _
    rw [BitVec.toNat_add, BitVec.toNat_ofNat]
    omega
  · simp [State.afterBurst, writeTransactionEvents]

/-! ## Commands on a constructed master at rest -/

theorem State.ready.accepts {s : State} {i : Instr} (h : s.ready) (hi : i ≠ .construct) : s.accepts i := by
  obtain ⟨hc, hv, hs, hd⟩ := h
  exact ⟨hv, fun hcon => absurd hcon hi, fun _ => ⟨hc, hs, hd⟩⟩

theorem exec_ready {i : Instr} {s : State} (h : s.readyWithPeripheral) (hw : i.isWire = false)
    (hi : i.wellFormed = true) (hcon : i ≠ .construct) : exec i s = .next (commandEffect i s) :=
  exec_eq_commandEffect hw hi (State.ready.accepts h.1 hcon) h.2

/-- Settles O28: the commands have their effect, whose registers are as stated by definition. -/
theorem displayPowerCommands : Obligations.DisplayPowerCommands := fun _ h =>
  ⟨exec_ready h rfl rfl Instr.noConfusion, exec_ready h rfl rfl Instr.noConfusion, rfl, rfl, rfl, rfl, rfl, rfl⟩

/-- Settles O29. A legal level loses nothing in three bits. -/
theorem setBrightnessCommand : Obligations.SetBrightnessCommand := by
  intro level s h hlevel
  have hfield : (level.setWidth 3).toNat = level.toNat := by
    rw [BitVec.toNat_setWidth]
    omega
  exact ⟨exec_ready h rfl (decide_eq_true hlevel) Instr.noConfusion, hfield, hfield, rfl, rfl⟩

/-- The three storing commands with legal operands, and the address each computes. -/
theorem exec_write_ready {s : State} (h : s.readyWithPeripheral) {x : Byte} (hx : x.toNat ≤ 15) (v : Byte) :
    exec (.write x v) s = .next ((s.afterBurst (addressField x) [v]).ok 0#32) := by
  rw [exec_write_of_le hx, whenConstructed_of_constructed h.1.1, storeRegister_peripheral (AtWindow.ofReady h)]

theorem exec_setSegmentValue_ready {s : State} (h : s.readyWithPeripheral) {x : Byte} (hx : x.toNat ≤ 7) (v : Byte) :
    exec (.setSegmentValue x v) s = .next ((s.afterBurst (addressField (segmentAddress x)) [v]).ok 0#32) := by
  rw [exec_setSegmentValue_of_le hx, whenConstructed_of_constructed h.1.1, storeRegister_peripheral (AtWindow.ofReady h)]

theorem exec_setLedState_ready {s : State} (h : s.readyWithPeripheral) {x : Byte} (hx : x.toNat ≤ 7) (v : Byte) :
    exec (.setLedState x v) s = .next ((s.afterBurst (addressField (ledAddress x)) [v]).ok 0#32) := by
  rw [exec_setLedState_of_le hx, whenConstructed_of_constructed h.1.1, storeRegister_peripheral (AtWindow.ofReady h)]

/-- Settles O30. The address field of each computed address is the number of the statement. -/
theorem storeCommands : Obligations.StoreCommands := by
  intro x v s h
  refine ⟨fun hx => ?_, fun hx => ?_, fun hx => ?_⟩
  · rw [exec_write_ready h hx, addressField_eq_ofNat]
  · rw [exec_setSegmentValue_ready h hx, addressField_segmentAddress]
  · rw [exec_setLedState_ready h hx, addressField_ledAddress]

/-- Settles O31. The three commands end in the same one-byte burst, and a write changes one register. -/
theorem storeCommandsTouchOneRegister : Obligations.StoreCommandsTouchOneRegister := by
  intro x v i a s t hi h hm ht
  have hexec : exec i s = .next ((s.afterBurst a [v]).ok 0#32) := by
    obtain ⟨rfl, hx, rfl⟩ | ⟨rfl, hx, rfl⟩ | ⟨rfl, hx, rfl⟩ := hi
    · exact exec_write_ready h hx v
    · exact exec_setSegmentValue_ready h hx v
    · exact exec_setLedState_ready h hx v
  cases hexec.symm.trans ht
  exact ⟨Memory.read_write_same hm _ v, fun b hb => Memory.read_write_other hm v hb, rfl, rfl, rfl, rfl, rfl⟩

theorem led_of_dark {s : State} (h : s.per.mem = []) (p : Pos) : s.led p = false := by
  simp [State.led, h, unlistedByte]

theorem seg_of_dark {s : State} (h : s.per.mem = []) (p j : Pos) : s.seg p j = false := by
  simp [State.seg, h, unlistedByte]

/-- The transactions of CLEANUP have been done (R164): the registers as such, with nothing listed in DISPLAY space. -/
def State.cleared (s : State) : State :=
  { s with
    pins := { s.pins with clk := true, dio := false }
    per := { s.per with mem := [], mode := .write, ap := 0#4, phase := .idle, sr := 0#8, bc := 0#3, drv := .z }
    trace := s.trace ++ cleanupEvents s.params }

theorem afterBurst_zeros {s : State} (hm : Memory.wf s.per.mem = true) :
    s.afterBurst 0#4 (List.replicate 16 0#8) = s.cleared := by
  unfold State.afterBurst
  rw [Memory.burst_zeros hm]
  rfl

theorem commandEffect_cleanup {s : State} (hm : Memory.wf s.per.mem = true) :
    commandEffect .cleanup s = s.cleared.ok 0#32 := by
  rw [commandEffect, afterBurst_zeros hm]

/-- Settles O32. Sixteen zero bytes from address 0 leave nothing listed, so no light is lit. -/
theorem cleanupClearsEveryRegister : Obligations.CleanupClearsEveryRegister := by
  intro s h hm
  obtain ⟨⟨-, -, hstb, hdir⟩, -⟩ := id h
  rw [commandEffect_cleanup hm, exec_ready h rfl rfl Instr.noConfusion, commandEffect_cleanup hm]
  refine ⟨_, rfl, fun a => rfl, rfl, rfl, rfl, rfl, rfl, ?_, led_of_dark rfl, seg_of_dark rfl, rfl⟩
  simp [State.ok, State.cleared, hstb, hdir]

/-- Settles O33: the effect of SCAN_KEYS. -/
theorem scanKeysReturnsTheSnapshot : Obligations.ScanKeysReturnsTheSnapshot := fun _ h =>
  exec_ready h rfl rfl Instr.noConfusion

/-- Settles O35: the effect of DEF_PRESSED_KEYS. -/
theorem defPressedKeysCommand : Obligations.DefPressedKeysCommand := fun _ h =>
  exec_ready h rfl rfl Instr.noConfusion

theorem afterInitPins_mem (s : State) : s.afterInitPins.per.mem = s.per.mem := by
  unfold State.afterInitPins
  dsimp only
  split <;> rfl

/-- The effect of CONSTRUCT with nothing listed in DISPLAY space (R280). -/
theorem commandEffect_construct {s : State} (hm : Memory.wf s.per.mem = true) :
    commandEffect .construct s =
      ({ s.afterInitPins with master := masterAfter .construct s.master }.afterDisplayControl true 7#3).cleared.ok 0#32 := by
  have hm' : Memory.wf s.afterInitPins.per.mem = true := (congrArg Memory.wf (afterInitPins_mem s)).trans hm
  rw [commandEffect, masterAfter, afterBurst_zeros]
  exact hm'

/-- Settles O37. Whether its first pin action is an edge or not, CONSTRUCT writes every register that its own description does not leave free. -/
theorem constructFromAnyPowerOn : Obligations.ConstructFromAnyPowerOn := by
  intro s hc hv ha hm
  rw [exec_construct hc hv ha, commandEffect_construct hm]
  refine ⟨_, rfl, rfl, rfl, fun a => rfl, ?_, rfl⟩
  cases hs : s.pins.stb <;> simp [State.ok, State.cleared, State.afterDisplayControl, State.afterInitPins, hs]

/-! ## Keys -/

/-- Bit n of the decoded value is the bit of switch n in the key word (R33, R194). -/
theorem getLsbD_pressedKeys (w : ScanWord) {n : Nat} (hn : n < 8) :
    (pressedKeys w).getLsbD n = w.getLsbD (8 * (n % 4) + 4 * (n / 4)) := by
  simp only [pressedKeys, BitVec.getLsbD_setWidth, BitVec.getLsbD_append]
  interval_cases n <;> simp

theorem getLsbD_pressedKeys_high (w : ScanWord) {n : Nat} (hn : 8 ≤ n) : (pressedKeys w).getLsbD n = false := by
  rw [pressedKeys, BitVec.getLsbD_setWidth, BitVec.getLsbD_of_ge _ _ hn, Bool.and_false]

theorem getLsbD_switchWord (sw : Byte) {n : Nat} (hn : n < 8) :
    (switchWord sw).getLsbD (8 * (n % 4) + 4 * (n / 4)) = sw.getLsbD n := by
  simp only [switchWord, switchByte, BitVec.getLsbD_append, BitVec.getLsbD_or, BitVec.getLsbD_shiftLeft]
  interval_cases n <;> simp

/-- No unused bit falls on a switch's bit (R32, R63). -/
theorem getLsbD_unusedKeyMask {n : Nat} (hn : n < 8) : unusedKeyMask.getLsbD (8 * (n % 4) + 4 * (n / 4)) = false := by
  interval_cases n <;> rfl

/-- The key word holds each switch at its bit, whatever the unused bits (R33). -/
theorem getLsbD_keyWord (sw : Byte) (unused : ScanWord) {n : Nat} (hn : n < 8) :
    (keyWord sw unused).getLsbD (8 * (n % 4) + 4 * (n / 4)) = sw.getLsbD n := by
  rw [keyWord, BitVec.getLsbD_or, BitVec.getLsbD_and, getLsbD_unusedKeyMask hn, Bool.and_false, Bool.or_false,
    getLsbD_switchWord sw hn]

/-- Settles O34. Both commands are one read transaction, of the same word. -/
theorem defPressedKeysDecodesOneScan : Obligations.DefPressedKeysDecodesOneScan := by
  refine fun s => ⟨fun t ht => ?_, fun t ht => ?_, fun w i hi => ?_, fun w i hi => ?_⟩
  · obtain ⟨hc, h⟩ := whenConstructed_eq_next.mp ht
    obtain ⟨⟨w, u⟩, hread, h⟩ := andThen_eq_next.mp h
    cases h
    exact ⟨w, u, rfl, by rw [exec, execDefPressedKeys, whenConstructed_of_constructed hc, hread]; rfl⟩
  · obtain ⟨hc, h⟩ := whenConstructed_eq_next.mp ht
    obtain ⟨⟨w, u⟩, hread, -⟩ := andThen_eq_next.mp h
    exact ⟨u.ok w, by rw [exec, execScanKeys, whenConstructed_of_constructed hc, hread]; rfl⟩
  · have hlow := getLsbD_pressedKeys w (n := i) (by omega)
    have hhigh := getLsbD_pressedKeys w (n := i + 4) (by omega)
    rw [hlow, hhigh, show 8 * (i % 4) + 4 * (i / 4) = 8 * i by omega,
      show 8 * ((i + 4) % 4) + 4 * ((i + 4) / 4) = 8 * i + 4 by omega]
    exact ⟨rfl, rfl⟩
  · exact getLsbD_pressedKeys_high w hi

/-- A switch that keeps its level is seen at it (R33). -/
theorem getLsbD_seenSwitches {s : State} {n : Nat} (hn : n < 8) (hsteady : s.unstable.getLsbD n = false) :
    s.seenSwitches.getLsbD n = s.sw.getLsbD n := by
  rw [State.seenSwitches, BitVec.getLsbD_or, BitVec.getLsbD_and, BitVec.getLsbD_and, BitVec.getLsbD_not, hsteady]
  simp [hn]

/-- Settles O36. The bit of a switch in the key word is no unused bit, and the decoding reads exactly these bits. -/
theorem steadySwitchesAreSeen : Obligations.SteadySwitchesAreSeen := by
  refine ⟨fun s n hn hsteady => ?_, fun sw unused => ?_⟩
  · have hseen : s.keySnapshot.getLsbD (8 * (n % 4) + 4 * (n / 4)) = s.sw.getLsbD n := by
      rw [State.keySnapshot, getLsbD_keyWord _ _ hn, getLsbD_seenSwitches hn hsteady]
    exact ⟨hseen, (getLsbD_pressedKeys _ hn).trans hseen⟩
  · apply BitVec.eq_of_getLsbD_eq
    intro n hn
    rw [BitVec.getLsbD_setWidth, decide_eq_true hn, Bool.true_and]
    by_cases h8 : n < 8
    · rw [getLsbD_pressedKeys _ h8, getLsbD_keyWord _ _ h8]
    · rw [getLsbD_pressedKeys_high _ (Nat.not_lt.mp h8), BitVec.getLsbD_of_ge _ _ (Nat.not_lt.mp h8)]

/-! ## Two commands in a row, and what is seen -/

/-- The effect of DISPLAY_ON or DISPLAY_OFF (R166, R168). -/
def State.displayed (s : State) (on : Bool) : State :=
  ({ s with master := { s.master with displayEnabled := on } }.afterDisplayControl on s.master.brightness).ok 0#32

theorem exec_displayOn_ready {s : State} (h : s.readyWithPeripheral) : exec .displayOn s = .next (s.displayed true) :=
  exec_ready h rfl rfl Instr.noConfusion

theorem exec_displayOff_ready {s : State} (h : s.readyWithPeripheral) : exec .displayOff s = .next (s.displayed false) :=
  exec_ready h rfl rfl Instr.noConfusion

theorem displayed_ready {s : State} (h : s.readyWithPeripheral) (on : Bool) : (s.displayed on).readyWithPeripheral := h

theorem displayed_displayIsOn {s : State} (h : s.readyWithPeripheral) (on : Bool) :
    (s.displayed on).displayIsOn = on := by
  rw [State.displayIsOn, (displayed_ready h on).2]
  rfl

theorem exec_cleanup_ready {s : State} (h : s.readyWithPeripheral) (hm : Memory.wf s.per.mem = true) :
    exec .cleanup s = .next (s.cleared.ok 0#32) := by
  rw [exec_ready h rfl rfl Instr.noConfusion, commandEffect_cleanup hm]

theorem powerMove_back_unpowered {s : State} (ha : s.attached = .unpowered) (p : Periph) :
    s.powerMove (.back p) = { s with attached := .peripheral, per := p.poweredUp s.pins.stb } := by
  simp [State.powerMove, ha]

/-- Settles O56. The two commands write every register of the peripheral but those of the key scan. -/
theorem peripheralIsRestored : Obligations.PeripheralIsRestored := by
  refine ⟨fun s on h hm => ?_, fun s p h ha => ?_⟩
  · have hpower : exec (if on then .displayOn else .displayOff) s = .next (s.displayed on) := by
      cases on
      · exact exec_displayOff_ready h
      · exact exec_displayOn_ready h
    exact ⟨_, _, hpower, exec_cleanup_ready (displayed_ready h on) hm, rfl, rfl⟩
  · rw [powerMove_back_unpowered ha]
    exact ⟨⟨h, rfl⟩, p.poweredUp_wf _⟩

/-- Settles O58. Both commands leave the registers as they are, and the lights read these with the display's flag. -/
theorem displayOffKeepsTheContent : Obligations.DisplayOffKeepsTheContent := by
  intro s h
  have hoff := displayed_ready h false
  refine ⟨_, _, exec_displayOff_ready h, exec_displayOn_ready hoff, fun p => ?_, fun p j => ?_, rfl, fun p => ?_,
    fun p j => ?_, rfl⟩
  · rw [State.led, displayed_displayIsOn h, Bool.false_and]
  · rw [State.seg, displayed_displayIsOn h, Bool.false_and]
  · rw [State.led, displayed_displayIsOn hoff, Bool.true_and]
    rfl
  · rw [State.seg, displayed_displayIsOn hoff, Bool.true_and]
    rfl

/-- Settles O59. The effect of DISPLAY_OFF on its own outcome changes the trace and the results only. -/
theorem displayOffTwiceIsTheSame : Obligations.DisplayOffTwiceIsTheSame := fun _ h =>
  ⟨_, _, exec_displayOff_ready h, exec_displayOff_ready (displayed_ready h false), rfl, rfl, rfl, rfl, rfl, rfl⟩

/-- Settles O60. A scan ends with the master at rest, and a store begins by selecting write mode. -/
theorem storeAfterScanSucceeds : Obligations.StoreAfterScanSucceeds := by
  intro x v s h hx
  have hscan : ((s.afterScan s.keySnapshot).ok s.keySnapshot).readyWithPeripheral := h
  obtain ⟨⟨-, -, -, hdir⟩, -⟩ := id h
  refine ⟨_, _, exec_ready h rfl rfl Instr.noConfusion, rfl, hdir, exec_setSegmentValue_ready hscan hx v, ?_, rfl⟩
  have hseg := toNat_segmentAddress hx
  have haddr := (toNat_addressField (a := segmentAddress x) (by omega)).trans hseg
  rw [← haddr]
  rfl

/-- The registers after a one-byte store. -/
theorem read_afterBurst_singleton {s : State} (hm : Memory.wf s.per.mem = true) (a : Addr) (v : Byte) (w : ScanWord)
    (b : Nat) : Memory.read ((s.afterBurst a [v]).ok w).per.mem b =
      if b = a.toNat then v else Memory.read s.per.mem b :=
  Memory.read_write_from hm a.toNat b v

theorem displayIsOn_of_ready {s : State} (h : s.readyWithPeripheral) : s.displayIsOn = s.per.dispEn := by
  rw [State.displayIsOn, h.2]
  rfl

/-- An LED after a one-byte store (R232). -/
theorem led_afterBurst {s : State} (hm : Memory.wf s.per.mem = true) (a : Addr) (v : Byte) (w : ScanWord) (p : Pos) :
    ((s.afterBurst a [v]).ok w).led p =
      if 2 * p.toNat + 1 = a.toNat then s.displayIsOn && v.getLsbD 0 else s.led p := by
  rw [State.led, read_afterBurst_singleton hm, State.led]
  split <;> rfl

/-- A segment after a one-byte store (R231). -/
theorem seg_afterBurst {s : State} (hm : Memory.wf s.per.mem = true) (a : Addr) (v : Byte) (w : ScanWord) (p j : Pos) :
    ((s.afterBurst a [v]).ok w).seg p j =
      if 2 * p.toNat = a.toNat then s.displayIsOn && v.getLsbD j.toNat else s.seg p j := by
  rw [State.seg, read_afterBurst_singleton hm, State.seg]
  split <;> rfl

/-- Settles O57. The two kinds of light read registers of different parity. -/
theorem lightsFollowTheirCommands : Obligations.LightsFollowTheirCommands := by
  intro x v s h hm hx
  have hseg := toNat_segmentAddress hx
  have hled := toNat_ledAddress hx
  have hsegAddr := (toNat_addressField (a := segmentAddress x) (by omega)).trans hseg
  have hledAddr := (toNat_addressField (a := ledAddress x) (by omega)).trans hled
  refine ⟨⟨_, exec_setLedState_ready h hx v, fun p => ?_, fun p j => ?_⟩,
    ⟨_, exec_setSegmentValue_ready h hx v, fun p j => ?_, fun p => ?_⟩⟩
  · rw [led_afterBurst hm, hledAddr, displayIsOn_of_ready h]
    exact if_congr (by omega) rfl rfl
  · rw [seg_afterBurst hm, hledAddr, if_neg (by omega)]
  · rw [seg_afterBurst hm, hsegAddr, displayIsOn_of_ready h]
    exact if_congr (by omega) rfl rfl
  · rw [led_afterBurst hm, hsegAddr, if_neg (by omega)]

end Sys2Proof.Machine
end

section
/-! The peripheral at the edges of STB and CLK (44_peripheral.md R211 to R221), edge by edge and byte by byte. -/

namespace Sys2Proof.Machine

/-! ## Wire instructions -/

/-- Settles O13: exec of the instruction is this record update. -/
theorem displayCtrlSetsTheLatch : Obligations.DisplayCtrlSetsTheLatch := fun _ _ _ => rfl

/-- Settles O14: exec of the two instructions is these record updates. -/
theorem dataInstructionsSelectTheMode : Obligations.DataInstructionsSelectTheMode := fun _ => ⟨rfl, rfl⟩

theorem phaseAfterAddress_eq (m : Mode) : phaseAfterAddress m = if m = .write then .dataIn else .done := by
  cases m <;> rfl

/-- Settles O15. The phase that follows depends on the mode (D22). -/
theorem setAddressSetsThePointer : Obligations.SetAddressSetsThePointer := by
  intro addr s
  rw [← phaseAfterAddress_eq]
  rfl

/-- The two dispatchers agree on the four wire instructions (R212). -/
theorem execWire_eq_exec {i : Instr} (hw : i.isWire = true) (s : State) : execWire i s = exec i s := by
  cases i with
  | displayCtrl | dataWrite | dataRead | setAddress => rfl
  | _ => nomatch hw

theorem isWire_of_encode {p : Params} {i : Instr} {c : Byte} (h : encode p i = .wire c) : i.isWire = true := by
  cases i with
  | displayCtrl | dataWrite | dataRead | setAddress => rfl
  | _ => nomatch h

/-- The opcode byte of a wire instruction decodes to it, under a legal assignment of the constants. -/
theorem decodeWire_of_encode {p : Params} (hp : p.valid = true) {i : Instr} {c : Byte} (h : encode p i = .wire c) :
    decodeWire p c = .ok i := by
  have hi := decode_encode_wire (Params.constraints hp) (isWire_of_encode h)
  rwa [h] at hi

/-- The first byte of a window, once complete, runs the instruction it decodes to (R212). -/
theorem byteComplete_cmd {s : State} {i : Instr} (hp : s.per.phase = .cmd) (hi : decodeWire s.params s.per.sr = .ok i) :
    byteComplete s = exec i s := by
  unfold byteComplete
  rw [hp, ← execWire_eq_exec (isWire_of_encode (encode_decodeWire hi))]
  exact acceptInstruction_ok hi

/-! ## Edges of STB, and of CLK while STB is high -/

/-- The pin CLK has been assigned and this is seen; the device has not reacted yet. -/
def State.clocked (s : State) (v : Bool) : State := (s.setPins { s.pins with clk := v }).log (.clk v)

@[simp] theorem State.clocked_attached (s : State) (v : Bool) : (s.clocked v).attached = s.attached := rfl
@[simp] theorem State.clocked_pins (s : State) (v : Bool) : (s.clocked v).pins = { s.pins with clk := v } := rfl
@[simp] theorem State.clocked_per (s : State) (v : Bool) : (s.clocked v).per = s.per := rfl

theorem setClk_edge {s : State} {v : Bool} (h : s.pins.clk ≠ v) : setClk v s = clkEdge v (s.clocked v) := if_neg h

theorem setClk_same {s : State} {v : Bool} (h : s.pins.clk = v) : setClk v s = .next (s.clocked v) := if_pos h

/-- A change of CLK reaches the peripheral on the wires. -/
theorem setClk_rise {s : State} (ha : s.attached = .peripheral) (hc : s.pins.clk = false) :
    setClk true s = periphClkRise (s.clocked true) := by
  rw [setClk_edge (by simp [hc])]
  unfold clkEdge
  rw [State.clocked_attached, ha]

theorem setClk_fall {s : State} (ha : s.attached = .peripheral) (hc : s.pins.clk = true) :
    setClk false s = .next (periphClkFall (s.clocked false)) := by
  rw [setClk_edge (by simp [hc])]
  unfold clkEdge
  rw [State.clocked_attached, ha]

/-- While STB is high an assignment to CLK is seen and nothing else happens (R211, D15). -/
theorem setClk_stb_high {s : State} (ha : s.attached = .peripheral) (hs : s.pins.stb = true) (v : Bool) :
    setClk v s = .next (s.clocked v) := by
  have hstb : (s.clocked v).pins.stb = true := hs
  by_cases hc : s.pins.clk = v
  · exact setClk_same hc
  cases v with
  | true => rw [setClk_rise ha (by simpa using hc), periphClkRise, if_pos hstb]
  | false => rw [setClk_fall ha (by simpa using hc), periphClkFall, if_pos hstb]

/-- Settles O20. The window opens and closes at the edges of STB only, and CLK counts inside it only. -/
theorem strobeBoundsTheWindow : Obligations.StrobeBoundsTheWindow := fun _ ha =>
  ⟨setStb_open ha, setStb_close ha, by rw [setStb, if_pos rfl]; rfl, fun v hs => setClk_stb_high ha hs v⟩

/-! ## The peripheral receiving -/

/-- In phases CMD and DATA_IN of an open window a falling edge does nothing (R213). -/
theorem periphClkFall_receiving {s : State} (hs : s.pins.stb = false) (hp : s.per.phase = .cmd ∨ s.per.phase = .dataIn) :
    periphClkFall s = s := by
  unfold periphClkFall
  obtain hp | hp := hp <;> simp [hs, hp]

/-- In phases CMD and DATA_IN of an open window a rising edge may bring a bit (R213). -/
theorem periphClkRise_receiving {s : State} (hs : s.pins.stb = false) (hp : s.per.phase = .cmd ∨ s.per.phase = .dataIn) :
    periphClkRise s = receiveBit s := by
  unfold periphClkRise
  obtain hp | hp := hp <;> simp [hs, hp]

theorem afterLatch_eq (s : State) : s.afterLatch = { s with draws := if s.contended then s.draws + 1 else s.draws } := by
  unfold State.afterLatch
  split <;> rfl

/-- A rising edge that latches (R37, R213): the bit is in, and the last one completes the byte. -/
theorem setClk_latch {s : State} (ha : s.attached = .peripheral) (hs : s.pins.stb = false)
    (hp : s.per.phase = .cmd ∨ s.per.phase = .dataIn) (hc : s.pins.clk = false) (hd : s.pins.dir = .output) :
    setClk true s = latchBit (s.clocked true) := by
  rw [setClk_rise ha hc, periphClkRise_receiving (s := s.clocked true) hs hp, receiveBit,
    State.clocked_pins, hd]

/-- Settles O16. Each edge is the peripheral's reaction in an open window, and eight bits in a row are the byte. -/
theorem bytesAreReceivedLsbFirst : Obligations.BytesAreReceivedLsbFirst := by
  intro s ha hs hp
  refine ⟨fun hc => ?_, fun hc hd => ?_, fun hc hd hb => ?_, fun hc hd hb => ?_, fun b hd hz hb => ?_⟩
  · rw [setClk_fall ha hc, periphClkFall_receiving (s := s.clocked false) hs hp]
    rfl
  · rw [setClk_rise ha hc, periphClkRise_receiving (s := s.clocked true) hs hp, receiveBit,
      State.clocked_pins, hd]
    rfl
  · rw [setClk_latch ha hs hp hc hd, latchBit, State.clocked_per, if_neg hb, afterLatch_eq]
    rfl
  · rw [setClk_latch ha hs hp hc hd, latchBit, State.clocked_per, if_pos hb, afterLatch_eq, ← hb]
    rfl
  · exact writeByte_receiving ⟨ha, hs, hd, hp, hz⟩ hb b

/-- Settles O17. The master's byte arrives whole and decodes to the instruction it encodes. -/
theorem writtenOpcodeRunsItsInstruction : Obligations.WrittenOpcodeRunsItsInstruction := by
  intro i c s hv hc ha hs hd hp hb hz
  rw [writeByte_receiving ⟨ha, hs, hd, .inl hp, hz⟩ hb c]
  exact byteComplete_cmd (s := s.tookByte c) hp (decodeWire_of_encode hv hc)

theorem byteComplete_dataByte {s : State} (hp : s.per.phase = .dataIn) : byteComplete s = .next (storeDataByte s) := by
  unfold byteComplete
  rw [hp]

/-- Settles O18. The byte arrives whole and is stored by one write of DISPLAY space. -/
theorem dataByteIsStoredAtThePointer : Obligations.DataByteIsStoredAtThePointer := by
  intro d s ha hs hd hp hb hz hm
  rw [writeByte_receiving ⟨ha, hs, hd, .inr hp, hz⟩ hb d, byteComplete_dataByte (s := s.tookByte d) hp]
  exact ⟨_, rfl, Memory.read_write_same hm _ d, fun a hne => Memory.read_write_other hm d hne, toNat_add_one _, rfl⟩

/-- Fewer bits than complete the byte under way are taken, and the peripheral's other registers stay. -/
theorem pinActions_partialByte {s : State} (h : Receiving s) (vs : List Bool) (clk dio : Bool) (sr : Byte) (k : Nat)
    (es : List PinEvent) (hk : k + vs.length < 8) :
    ∃ clk' dio' sr' bc' es', pinActions (vs.flatMap writeBitActions) (s.taking clk dio sr (BitVec.ofNat 3 k) es) =
      .next (s.taking clk' dio' sr' bc' es') := by
  induction vs generalizing clk dio sr k es with
  | nil => exact ⟨clk, dio, sr, BitVec.ofNat 3 k, es, rfl⟩
  | cons v rest ih =>
    rw [List.length_cons] at hk
    have hne : BitVec.ofNat 3 k ≠ 7#3 := by
      intro heq
      have := congrArg BitVec.toNat heq
      rw [BitVec.toNat_ofNat, BitVec.toNat_ofNat] at this
      omega
    have hnext : BitVec.ofNat 3 k + 1#3 = BitVec.ofNat 3 (k + 1) := (BitVec.ofNat_add k 1).symm
    rw [List.flatMap_cons, pinActions_append, writeBit_receiving h _ _ _ _ _ _ hne, andThen_next, hnext]
    exact ih true v _ (k + 1) _ (by omega)

/-- Settles O21. The bits that have come lie in the shift register only, and closing the window leaves them there. -/
theorem partialByteIsDropped : Obligations.PartialByteIsDropped := by
  intro vs s hlen ha hs hd hp hb hz
  have hstart : s = s.taking s.pins.clk s.pins.dio s.per.sr (BitVec.ofNat 3 0) [] := by
    rw [show BitVec.ofNat 3 0 = s.per.bc from hb.symm]
    simp [State.taking, State.driving, State.setPer]
  obtain ⟨clk, dio, sr, bc, es, hbits⟩ :=
    pinActions_partialByte ⟨ha, hs, hd, hp, hz⟩ vs s.pins.clk s.pins.dio s.per.sr 0 [] (by omega)
  rw [← hstart] at hbits
  rw [pinActions_append, hbits, andThen_next, pinActions_singleton, pinAction,
    setStb_close (s := s.taking clk dio sr bc es) ha hs]
  exact ⟨_, rfl, rfl⟩

/-! ## The peripheral reading out -/

theorem periphClkFall_readOut {s : State} (hs : s.pins.stb = false) (hp : s.per.phase = .readOut) :
    periphClkFall s = presentKeyBit s := by
  unfold periphClkFall
  simp [hs, hp]

theorem periphClkRise_readOut {s : State} (hs : s.pins.stb = false) (hp : s.per.phase = .readOut)
    (hd : s.pins.dir = .input) :
    periphClkRise s = .next (s.setPer { s.per with rc := nextReadCount s.per.rc }) := by
  unfold periphClkRise
  simp [hs, hp, hd]

theorem nextReadCount_of_le {rc : BitVec 6} (h : rc.toNat ≤ 32) : nextReadCount rc = BitVec.ofNat 6 (rc.toNat + 1) := by
  have hne : rc ≠ 63#6 := by
    rintro rfl
    exact absurd h (by decide)
  rw [nextReadCount, if_neg hne, BitVec.ofNat_add, BitVec.ofNat_toNat, BitVec.setWidth_eq]

/-- Settles O19. Each edge is the peripheral's reaction in READ_OUT. -/
theorem keyBitsAreReadOut : Obligations.KeyBitsAreReadOut := by
  intro s ha hs hp
  refine ⟨fun hc hrc => ?_, fun hc hrc => ?_, fun hc hd hrc => ?_⟩
  · rw [setClk_fall ha hc, periphClkFall_readOut (s := s.clocked false) hs hp, presentKeyBit,
      State.clocked_per, if_pos hrc]
    rfl
  · rw [setClk_fall ha hc, periphClkFall_readOut (s := s.clocked false) hs hp, presentKeyBit,
      State.clocked_per, if_neg (Nat.not_le.mpr hrc)]
    rfl
  · rw [setClk_rise ha hc, ← nextReadCount_of_le hrc]
    exact periphClkRise_readOut (s := s.clocked true) hs hp hd

/-! ## What is refused, and what stops the machine -/

/-- With CLK brought low in read-out the peripheral is still in read-out. -/
theorem setClk_low_readOut {s : State} (ha : s.attached = .peripheral)
    (hp : s.per.phase = .readOut) :
    ∃ t, setClk false s = .next t ∧ t.attached = .peripheral ∧ t.pins = { s.pins with clk := false } ∧
      t.per.phase = .readOut := by
  have h : ∃ t, setClk false s = .next t ∧ t.per.phase = .readOut := by
    cases hc : s.pins.clk with
    | false => exact ⟨_, setClk_same hc, hp⟩
    | true =>
      refine ⟨_, setClk_fall ha hc, ?_⟩
      rw [periphClkFall_phase]
      exact hp
  obtain ⟨t, ht, hphase⟩ := h
  have hm := pinAction_masterSide (a := .clk false) ht
  exact ⟨t, ht, hm.attached.trans ha, hm.pins, hphase⟩

/-- The first bit the master writes during read-out is refused at its rising edge (R221; log 17). -/
theorem writeBit_readOut {s : State} (ha : s.attached = .peripheral) (hs : s.pins.stb = false) (hd : s.pins.dir = .output)
    (hp : s.per.phase = .readOut) (v : Bool) : pinActions (writeBitActions v) s = .refused .writeDuringReadOut := by
  obtain ⟨t, ht, hta, htpins, htphase⟩ := setClk_low_readOut ha hp
  rw [writeBitActions, pinActions, pinAction, ht, andThen_next]
  simp [pinActions, pinAction, setDio, setClk, clkEdge, periphClkRise, State.setPins, State.log, hta, htpins, htphase,
    hs, hd]

/-- Settles O22. The byte, the edge or the pin action that is not covered is met in its phase or direction. -/
theorem uncoveredInputIsRefused : Obligations.UncoveredInputIsRefused := by
  refine ⟨fun s ha hs => ⟨fun c r hr hd hp hb hz => ?_, fun hc hp => ?_, fun hp hd b => ?_⟩, fun s v hd => ?_,
    fun s hd => ?_⟩
  · rw [writeByte_receiving ⟨ha, hs, hd, .inl hp, hz⟩ hb c]
    unfold byteComplete
    rw [show (s.tookByte c).per.phase = .cmd from hp]
    exact acceptInstruction_error (s := s.tookByte c) hr
  · rw [setClk_rise ha hc]
    unfold periphClkRise
    simp [hs, hp]
  · rw [writeByte, writeByteActions_eq_flatMap, lsbFirst, List.flatMap_cons, pinActions_append,
      writeBit_readOut ha hs hd hp, andThen_refused]
  · rw [pinAction, setDio, hd]
  · rw [pinAction, sampleLine, hd, andThen_fault]

end Sys2Proof.Machine
end

section
/-! The loopback harness (40_transport.md R128): its store takes the bits the master drives and gives them back in order. -/

namespace Sys2Proof.Machine

/-- `s` part way through `write_byte` with the harness on the wires and `q` in its store. -/
def State.looping (s : State) (clk dio : Bool) (q : List Bool) (es : List PinEvent) : State :=
  (s.driving clk dio es).setHarness { fifo := q, drv := .z }

theorem writeBit_loopback {s : State} (ha : s.attached = .loopback) (hd : s.pins.dir = .output) (clk dio v : Bool)
    (q : List Bool) (es : List PinEvent) :
    pinActions (writeBitActions v) (s.looping clk dio q es) =
      .next (s.looping true v (q ++ [v]) (es ++ writeBitEvents v)) := by
  cases clk <;>
    simp [pinActions, writeBitActions, writeBitEvents, pinAction, setClk, setDio, clkEdge, loopFall, loopRise, State.line,
      State.driver, State.afterLatch, State.contended, State.looping, State.driving, State.log, State.setPins,
      State.setHarness, ha, hd]

theorem writeBits_loopback {s : State} (ha : s.attached = .loopback) (hd : s.pins.dir = .output) (vs : List Bool)
    (clk dio v : Bool) (q : List Bool) (es : List PinEvent) :
    pinActions ((v :: vs).flatMap writeBitActions) (s.looping clk dio q es) =
      .next (s.looping true ((v :: vs).getLast (List.cons_ne_nil v vs)) (q ++ v :: vs)
        (es ++ (v :: vs).flatMap writeBitEvents)) := by
  induction vs generalizing clk dio v q es with
  | nil => simpa using writeBit_loopback ha hd clk dio v q es
  | cons w rest ih =>
    rw [List.flatMap_cons, pinActions_append, writeBit_loopback ha hd, andThen_next, ih true v w]
    simp

/-- R128: the eight bits written are in the store, bit 0 first. -/
theorem writeByte_loopback {s : State} (ha : s.attached = .loopback) (hd : s.pins.dir = .output)
    (hh : s.harness = { fifo := [], drv := .z }) (b : Byte) :
    writeByte b s = .next (s.looping true (b.getLsbD 7) (lsbFirst b) (writeByteEvents b)) := by
  have hstart : s = s.looping s.pins.clk s.pins.dio [] [] := by
    simp [State.looping, State.driving, State.setHarness, ← hh]
  rw [writeByte, writeByteActions_eq_flatMap]
  conv_lhs => rw [hstart]
  exact writeBits_loopback ha hd _ _ _ _ _ _

/-- `s` part way through `read_byte` with the harness on the wires, `q` left in its store. -/
def State.echoing (s : State) (drv : Drive) (q : List Bool) (es : List PinEvent) : State :=
  (s.listening true es).setHarness { fifo := q, drv := drv }

theorem readBit_loopback {s : State} (ha : s.attached = .loopback) (drv : Drive) (v : Bool) (q : List Bool)
    (es : List PinEvent) :
    readBit (s.echoing drv (v :: q) es) = .next (v, s.echoing (.level v) q (es ++ readBitEvents v)) := by
  simp [readBit, setClk, clkEdge, loopFall, loopRise, sampleLine, State.line, State.driver, State.echoing,
    State.listening, State.setHarness, State.log, State.setPins, readBitEvents, ha]

/-- The loop of `read_byte` takes the store's bits in order. -/
theorem readByteLoop_loopback {s : State} (ha : s.attached = .loopback) (vs : List Bool) (drv : Drive) (k : Nat) (r : Byte)
    (es : List PinEvent) :
    ∃ drv' es', readByteLoop vs.length k r (s.echoing drv vs es) = .next (placeSamples k r vs, s.echoing drv' [] es') := by
  induction vs generalizing drv k r es with
  | nil => exact ⟨drv, es, rfl⟩
  | cons v rest ih =>
    rw [List.length_cons, readByteLoop_succ, readBit_loopback ha, andThen_next]
    exact ih _ _ _ _

theorem placeSamples_lsbFirst (b : Byte) : placeSamples 0 0#8 (lsbFirst b) = b := orSamples_eq b

/-- R128: `read_byte` after `write_byte` finds the eight bits in the store and empties it. -/
theorem readByte_loopback {s : State} (ha : s.attached = .loopback) (hc : s.pins.clk = true) {b : Byte}
    (hq : s.harness.fifo = lsbFirst b) :
    ∃ u, readByte s = .next (b, u) ∧ u.harness = { fifo := [], drv := .z } ∧
      u.pins = { s.pins with dir := .output } := by
  have hstart : (s.setPins { s.pins with dir := .input }).log .dirIn =
      s.echoing s.harness.drv (lsbFirst b) [.dirIn] := by
    simp [State.echoing, State.listening, State.setPins, State.setHarness, State.log, ← hq, ← hc]
  obtain ⟨drv, es, hloop⟩ := readByteLoop_loopback ha (lsbFirst b) s.harness.drv 0 0#8 [.dirIn]
  rw [placeSamples_lsbFirst, show (lsbFirst b).length = 8 from rfl] at hloop
  rw [readByte, setDirIn, andThen_next, hstart, hloop]
  refine ⟨_, rfl, rfl, ?_⟩
  simp [State.echoing, State.listening, State.setPins, State.setHarness, State.log, ← hc]

/-- Settles O27. The store is first in, first out: what was driven bit by bit comes back bit by bit. -/
theorem loopbackReproducesEveryByte : Obligations.LoopbackReproducesEveryByte := by
  intro b s ha hd hh
  obtain ⟨u, hread, hharness, hpins⟩ := readByte_loopback
    (s := s.looping true (b.getLsbD 7) (lsbFirst b) (writeByteEvents b)) ha rfl rfl
  refine ⟨_, u, writeByte_loopback ha hd hh b, hread, hharness, hpins.trans ?_⟩
  rw [← hd]
  rfl

end Sys2Proof.Machine
end

section
/-! The steps (00_scope.md R14): a pending pin action, or else the next input. -/

namespace Sys2Proof.Machine

theorem step_pin {s : State} {a : PinAction} {rest : List PinAction} (h : s.wire = a :: rest) :
    step s = pinAction a { s with wire := rest } := by
  unfold step
  rw [h]

theorem step_input {s : State} {x : Input} {rest : List Input} (hwire : s.wire = []) (hinputs : s.inputs = x :: rest) :
    step s = takeInput x { s with inputs := rest } := by
  unfold step
  rw [hwire, hinputs]

theorem step_end {s : State} (hwire : s.wire = []) (hinputs : s.inputs = []) : step s = .next s := by
  unfold step
  rw [hwire, hinputs]

theorem mayIssue_of {i : Instr} {s : State} (h : i = .construct ∨ s.atRest = true) : mayIssue i s = true := by
  rwa [mayIssue, Bool.or_eq_true, decide_eq_true_iff]

theorem issue_ok {w : CmdWord} {i : Instr} {s : State} (hi : decodeCommand w = .ok i) (hm : mayIssue i s = true) :
    issue w s = exec i s := by
  rw [issue, hi]
  exact if_pos hm

theorem issueAmid_ok {w : CmdWord} {i : Instr} {s : State} (hi : decodeCommand w = .ok i) (hm : mayIssue i s = true)
    (moves : List (Nat × PowerMove)) : issueAmid w moves s = execAmid i moves s := by
  rw [issueAmid, hi]
  exact if_pos hm

/-- Settles O9. The word is decoded, may be issued, and runs. -/
theorem stepRunsTheIssuedCommand : Obligations.StepRunsTheIssuedCommand := by
  refine ⟨fun s w rest i hwire hinputs hi hm => ?_, fun s w moves rest i hwire hinputs hi hm => ?_⟩
  · rw [step_input hwire hinputs]
    exact issue_ok (s := { s with inputs := rest }) hi (mayIssue_of hm)
  · rw [step_input hwire hinputs]
    exact issueAmid_ok (s := { s with inputs := rest }) hi (mayIssue_of hm) moves

/-- Settles O10. The edge latches the level the master drives as bit 7, and the byte is complete. -/
theorem stepRunsTheCompletedWireInstruction : Obligations.StepRunsTheCompletedWireInstruction := by
  intro s rest i hwire ha hs hc hd hp hb hz hi
  have hline : s.line = s.pins.dio := by simp [State.line, State.driver, ha, hd, hz]
  have hcontended : s.contended = false := by simp [State.contended, State.driver, ha, hd, hz]
  obtain ⟨-, -, -, hlast, -⟩ := bytesAreReceivedLsbFirst { s with wire := rest } ha hs (.inl hp)
  rw [step_pin hwire, pinAction, hlast hc hd hb,
    show ({ s with wire := rest } : State).line = s.pins.dio from hline,
    show ({ s with wire := rest } : State).contended = false from hcontended]
  exact byteComplete_cmd hp hi

/-- The registers of a peripheral whose power has come back (R283; log 34). -/
theorem Periph.poweredUp_stb_high (p : Periph) :
    p.poweredUp true = { p with mem := (p.poweredUp true).mem, phase := .idle, drv := .z } := rfl

theorem Periph.poweredUp_stb_low (p : Periph) :
    (p.poweredUp false).phase ≠ .idle ∧ (p.phase ≠ .idle → (p.poweredUp false).phase = p.phase) := by
  cases h : p.phase <;> simp [Periph.poweredUp, Phase.inOpenWindow, h]

theorem Periph.poweredUp_read (p : Periph) (stb : Bool) {a : Nat} (ha : a < 16) :
    Memory.read (p.poweredUp stb).mem a = Memory.read p.mem a := Memory.read_canonical p.mem ha

/-- Whether it was powered or not, a peripheral whose power comes back is on the wires with the registers it then has (R284). -/
theorem powerMove_back {s : State} (h : s.attached = .peripheral ∨ s.attached = .unpowered) (p : Periph) :
    s.powerMove (.back p) = { s with attached := .peripheral, per := p.poweredUp s.pins.stb } := by
  obtain ha | ha := h
  · simp [State.powerMove, ha]
  · exact powerMove_back_unpowered ha p

theorem powerMove_lost (s : State) :
    s.powerMove .lost = { s with attached := if s.attached = .peripheral then .unpowered else s.attached } := by
  cases s with
  | mk params master pins attached per harness sw unstable draws inputs wire results trace => cases attached <;> rfl

/-- Settles O11, input by input. -/
theorem otherSteps : Obligations.OtherSteps := by
  refine ⟨fun s w rest r hwire hinputs hr => ?_, fun s w rest i hwire hinputs hi hcon hrest => ?_,
    fun s levels unstable rest hwire hinputs => step_input hwire hinputs, fun s rest hwire hinputs => ?_,
    fun s p rest hwire hinputs => ⟨fun ha => ?_, fun ha => ?_⟩, fun s => step_end⟩
  · rw [step_input hwire hinputs, takeInput, issue, hr]
    rfl
  · have hm : mayIssue i { s with inputs := rest } = false := by
      rw [mayIssue, decide_eq_false hcon]
      exact hrest
    rw [step_input hwire hinputs, takeInput, issue, hi]
    simp [hm]
  · rw [step_input hwire hinputs, takeInput, powerMove_lost]
  · rw [step_input hwire hinputs, takeInput]
    obtain ha | ha := ha <;> simp [State.powerMove, ha]
  · rw [step_input hwire hinputs, takeInput, powerMove_back (s := { s with inputs := rest }) ha]
    refine ⟨_, rfl, rfl, p.poweredUp_wf _, fun a => p.poweredUp_read _, fun hs => ?_, fun hs => ?_⟩
    · dsimp only
      rw [hs]
      exact p.poweredUp_stb_high
    · dsimp only
      rw [hs]
      exact ⟨p.poweredUp_stb_low.1, p.poweredUp_stb_low.2, rfl⟩

/-- Seven bits of a byte in the shift register and bit 7 on the line make the byte (R213). -/
theorem setBit_lowSeven (c : Byte) : setBit (c &&& 0x7F#8) 7#3 (c.getLsbD 7) = c := by
  apply byte_ext
  intro i hi
  rw [getLsbD_setBit _ _ _ _ hi]
  interval_cases i <;> simp

theorem withFetchWord_wire (s : State) (c : Byte) : s.withFetchWord 8 c.toNat = loadWireByte c s := by
  rw [State.withFetchWord, if_pos rfl, BitVec.ofNat_toNat, BitVec.setWidth_eq]

theorem withFetchWord_command (s : State) (w : CmdWord) : s.withFetchWord 24 w.toNat = loadCommand w s := by
  rw [State.withFetchWord, if_neg (by decide), if_pos rfl, BitVec.ofNat_toNat, BitVec.setWidth_eq]

/-- `op` is 0 in the word of CONSTRUCT and in no other (R102). -/
theorem cmdOp_of_encode {p : Params} {i : Instr} {w : CmdWord} (h : encode p i = .command w) :
    cmdOp w ≠ 0#8 ↔ i ≠ .construct := by
  cases i with
  | displayCtrl | dataWrite | dataRead | setAddress => nomatch h
  | _ => cases h; simp [cmdOp_cmdWord]

/-- Settles O12. The placed state meets the premises of O10 for a wire byte and of O9 for a command word. -/
theorem placedInstructionRunsNext : Obligations.PlacedInstructionRunsNext := by
  intro s i hv
  cases he : encode s.params i with
  | wire c =>
    have hdec : decodeWire s.params (setBit (c &&& 0x7F#8) 7#3 (c.getLsbD 7)) = .ok i := by
      rw [setBit_lowSeven]
      exact decodeWire_of_encode hv he
    have hstep := stepRunsTheCompletedWireInstruction (loadWireByte c s) s.wire i rfl rfl rfl rfl rfl rfl rfl rfl hdec
    dsimp only [Encoded.tableWord]
    rw [withFetchWord_wire, hstep,
      show setBit (loadWireByte c s).per.sr 7#3 (loadWireByte c s).pins.dio = c from setBit_lowSeven c]
    rfl
  | command w =>
    have hdec : decodeCommand w = .ok i := by
      have hi := encodedInstructionsDecode s.params hv i
      rwa [he] at hi
    have hstep := stepRunsTheIssuedCommand.1 (loadCommand w s) w s.inputs i rfl rfl hdec (.inr rfl)
    dsimp only [Encoded.tableWord]
    rw [withFetchWord_command, hstep, ← decide_eq_decide.mpr (cmdOp_of_encode he)]
    rfl

end Sys2Proof.Machine
end
